-- ==== Sys2Proof/Word.lean ====
section
/-! DEFINITION. The word types of `IOMON-ACQ` and the record of four like things (four ADC channels, four PWM channels). -/

namespace Sys2Proof

/-- A pin-level vector or an 8-bit mask, `PIN_W = 8` (R12). Bit 0 is the least significant (R16). -/
abbrev Byte := BitVec 8

/-- One location of the sample buffer: a signed 16-bit sample as a bit vector (R51, R52). -/
abbrev Sample := BitVec 16

/-- A channel number: `C = 4` ADC channels (R6), `N = 4` PWM channels (R9). -/
abbrev Ch := Fin 4

/-- Four registers of one name, one for each channel: `avg[0..3]`, `rise_ts[0..3]`, ... -/
@[ext] structure Quad (α : Type) where
  c0 : α
  c1 : α
  c2 : α
  c3 : α
deriving DecidableEq, Repr

namespace Quad

variable {α : Type}

/-- `q[ch]`. -/
def get (q : Quad α) : Ch → α
  | 0 => q.c0
  | 1 => q.c1
  | 2 => q.c2
  | 3 => q.c3

/-- The four registers given channel by channel. -/
def ofFn (f : Ch → α) : Quad α := ⟨f 0, f 1, f 2, f 3⟩

/-- The four registers all holding `x`. -/
def fill (x : α) : Quad α := ⟨x, x, x, x⟩

/-- `q[ch] <- x`. -/
def set (q : Quad α) (ch : Ch) (x : α) : Quad α :=
  ofFn fun k => if k = ch then x else q.get k

end Quad

end Sys2Proof
end

