-- ==== Sys2Proof/Config.lean ====
section
/-! DEFINITION. The implementation parameters of 00_scope.md section 3 as one plain record, and the free values the spec
leaves to the environment as constants without a body. The record is a field of the state (notes/assumptions/1.md), so a
statement about every state is a statement about every value of every OPEN parameter. -/

namespace Sys2Proof

/-- The parameters the source leaves OPEN (00_scope.md section 3). The fixed ones, `C = 4`, `N = 4` and `PIN_W = 8`, are in
the types. What a configuration has to meet is `Config.wf` (WellFormed.lean). -/
structure Config where
  /-- `n`, the base-2 logarithm of the buffer capacity (R7). -/
  log2Cap : Nat
  /-- `K`, the oversampling factor: informational, no rule reads it (R8). -/
  oversample : Nat
  /-- `W_CNT`, the width of the free-running counter (R10). -/
  wCnt : Nat
  /-- `T_LOW` (R11). -/
  tLow : Nat
  /-- `T_HIGH` (R11). -/
  tHigh : Nat
  /-- `pwm_bit(i)`, the bit of a pin-level vector that carries PWM channel `i` (R12). -/
  pwmBit : Quad Nat
  /-- `CNT_MAX`, the largest per-channel count that trips no assertion (R13). -/
  cntMax : Nat
  /-- `BUF_BASE`, an opaque token handed to the DMA collaborator (R14). -/
  bufBase : Nat
  /-- `DEBUG_ASSERT`: whether the two assertions halt the block (R166). -/
  debugAssert : Bool
deriving DecidableEq, Repr

namespace Config

/-- `CAP = 2^n` (R7). -/
def cap (c : Config) : Nat := 2 ^ c.log2Cap

/-- The modulus of the free-running counter, `2^W_CNT` (R10). -/
def cntMod (c : Config) : Nat := 2 ^ c.wCnt

/-- The test configuration `TC1` (00_scope.md section 3). DESIGN CHOICE, unsafe: the spec calls these values its own choice
and not a property of the real board; no statement may rest on them (notes/assumptions/1.md). For `K` it gives no value ("not
used"): 0 is this model's own choice (notes/assumptions/29.md). -/
def tc1 : Config where
  log2Cap := 5
  oversample := 0
  wCnt := 32
  tLow := 850
  tHigh := 2150
  pwmBit := ⟨0, 1, 2, 3⟩
  cntMax := 7
  bufBase := 0
  debugAssert := true

/-- FREE VALUE, safe: what the `d`-th `BufRead` of a run returns when the location it reads holds no sample the DMA
collaborator is known to have put there (R55, U3, U4, U7: "a draw of any signed 16-bit value"). -/
opaque freeSample (d : Nat) : Sample

/-- FREE VALUE, safe: what the port `rem` carries when the environment's script does not say, at the `d`-th instant. R40: "each
sampled value is a draw"; R57 keeps it in `0..CAP`, and after a re-arm R59 fixes it (`portRem`). -/
opaque freeRem (d : Nat) : Nat

/-- FREE VALUE, safe: what the port `pins` carries when the script does not say (R40). -/
opaque freePins (d : Nat) : Byte

/-- FREE VALUE, safe: what the port `cnt` carries when the script does not say (R40); `portCnt` reduces it to the port's width. -/
opaque freeCnt (d : Nat) : Nat

/-- FREE VALUE, safe: what the port `outcmd` carries when the script does not say (R40). -/
opaque freeOutcmd (d : Nat) : Byte

/-- FREE VALUE, safe: whether the periodic agent (rather than the edge agent) takes the next step when both have one and
the environment's script says nothing (R64, R79, R170: the order "is free"). -/
opaque freeTurn (d : Nat) : Bool

end Config

end Sys2Proof
end

