-- ==== Sys2Proof/Syntax.lean ====
section
/-! DEFINITION. The operations of `IOMON-ACQ` (R70, R76) and the three request formats that select them. -/

namespace Sys2Proof

/-- A request format: one group of request ports (R70). The three are decoded independently of each other. -/
inductive Format where
  /-- Format `R`, the port `rst` (R71). -/
  | r
  /-- Format `P`, the ports `p_req` and `p_op`, served by the periodic agent (R72). -/
  | p
  /-- Format `E`, the port `e_req`, served by the edge agent (R74). -/
  | e
deriving DecidableEq, Repr

/-- The six operations, one constructor for each row of the operation map (R76). No operation has an immediate or a
register field: every operand is the level of an input port when the sub-step that uses it executes (R75). -/
inductive Instr where
  /-- `RESET`, format `R`, pattern `1` (R190). -/
  | reset
  /-- `DRAIN`, format `P`, pattern `10` (R90). -/
  | drain
  /-- `CYCLE`, format `P`, pattern `11` (R140). -/
  | cycle
  /-- `PIDLE`, format `P`, pattern `0x` (R149). `pOp` is the level of `p_op`, the `x` of the pattern, which the operation
  ignores; it is kept so that a request word can be recovered from its operation. -/
  | pidle (pOp : Bool)
  /-- `EDGE`, format `E`, pattern `1` (R120). -/
  | edge
  /-- `EIDLE`, format `E`, pattern `0` (R128). -/
  | eidle
deriving DecidableEq, Repr

namespace Instr

/-- The format whose ports select the operation (R76). -/
def format : Instr → Format
  | .reset => .r
  | .drain => .p
  | .cycle => .p
  | .pidle _ => .p
  | .edge => .e
  | .eidle => .e

end Instr

/-- The number of ports (bits) of a format (R71, R72, R74). -/
def Format.width : Format → Nat
  | .r => 1
  | .p => 2
  | .e => 1

end Sys2Proof
end

