-- ==== Sys2Proof/WellFormed.lean ====
section
/-! DEFINITION. What a configuration, a request word and an instruction have to meet. -/

namespace Sys2Proof

/-- The configurations the spec accepts: `n >= 2` (R7, U12), `W_CNT >= 1` (R10), `T_LOW < T_HIGH < 2^W_CNT` (R11, U11),
`pwm_bit` injective with values below 8 (R12, U13). U11 to U13 say a model refuses any other. `CNT_MAX` is not asked about:
a value below R13's bound is admitted and flagged (R163, U10); see `Config.conforming`. -/
def Config.wf (c : Config) : Bool :=
  decide (2 ≤ c.log2Cap) && decide (1 ≤ c.wCnt)
    && decide (c.tLow < c.tHigh) && decide (c.tHigh < c.cntMod)
    && decide (∀ i : Ch, c.pwmBit.get i < 8)
    && decide (∀ i j : Ch, c.pwmBit.get i = c.pwmBit.get j → i = j)

/-- R13's constraint on `CNT_MAX`: `CNT_MAX >= ceil(floor(7*CAP/8) / C)`. Under it the count assertion cannot fail (R102). -/
def Config.conforming (c : Config) : Bool :=
  decide ((7 * c.cap / 8 + 3) / 4 ≤ c.cntMax)

/-- A request word carries nothing above the ports of its format: a format is its one or two wires (R71, R72, R74). -/
def requestWf (f : Format) (w : Byte) : Bool := decide (w.toNat < 2 ^ f.width)

/-- Every term of `Instr` is an operation of the block: "There is no reserved, illegal, hint or custom pattern" (R77), and
no operation has a field that could hold an ill-formed value (R75). -/
def Instr.wf : Instr → Bool
  | .reset => true
  | .drain => true
  | .cycle => true
  | .pidle _ => true
  | .edge => true
  | .eidle => true

end Sys2Proof
end

