-- ==== Sys2Proof/Decode.lean ====
section
/-! DEFINITION. The decoder of the request formats, from the operation map of R76, and the encoder after it. A request
word is carried in a byte: bit `k` of the byte is bit `k` of the format (R71, R72, R74). -/

namespace Sys2Proof

/-- Why a request word selects no operation. -/
inductive DecodeError where
  /-- The word has a bit set above the ports of its format. There is no such pattern (R78). -/
  | bitsAboveFormat
  /-- The word matches no row: only format `R` reading 0, to which R71 gives "none". -/
  | selectsNone
deriving DecidableEq, Repr

/-- One row of the operation map (R76). -/
structure Row where
  mnemonic : String
  format : Format
  mask : Byte
  pattern : Byte
deriving DecidableEq, Repr

/-- The operation map, one row per operation, in the spec's order (R76). -/
def operationMap : List Row := [
  ⟨"RESET", .r, 0b1#8, 0b1#8⟩,
  ⟨"DRAIN", .p, 0b11#8, 0b10#8⟩,
  ⟨"CYCLE", .p, 0b11#8, 0b11#8⟩,
  ⟨"PIDLE", .p, 0b10#8, 0b00#8⟩,
  ⟨"EDGE", .e, 0b1#8, 0b1#8⟩,
  ⟨"EIDLE", .e, 0b1#8, 0b0#8⟩]

/-- "A decoder takes the value of the format's bits, ANDs it with mask and compares with match" (R76). -/
def Row.matches (r : Row) (f : Format) (w : Byte) : Bool :=
  decide (r.format = f) && decide (w &&& r.mask = r.pattern)

/-- The row whose operation a word of a format selects, if one does. -/
def rowIndex (f : Format) (w : Byte) : Option Nat :=
  operationMap.findIdx? (fun r => r.matches f w)

/-- The operation of a row of the map; `PIDLE` keeps the level of `p_op`, bit 0 of the word (R72). -/
def instrOfRow (w : Byte) : Nat → Option Instr
  | 0 => some .reset
  | 1 => some .drain
  | 2 => some .cycle
  | 3 => some (.pidle (w.getLsbD 0))
  | 4 => some .edge
  | 5 => some .eidle
  | _ => none

/-- The decoder: total on every byte under every format, rejecting by name. -/
def decode (f : Format) (w : Byte) : Except DecodeError Instr :=
  if requestWf f w then
    match (rowIndex f w).bind (instrOfRow w) with
    | some i => .ok i
    | none => .error .selectsNone
  else .error .bitsAboveFormat

/-- The request word that selects an operation (R71, R72, R74). -/
def encode : Instr → Byte
  | .reset => 0b1#8
  | .drain => 0b10#8
  | .cycle => 0b11#8
  | .pidle pOp => if pOp then 0b01#8 else 0b00#8
  | .edge => 0b1#8
  | .eidle => 0b0#8

/-- The format a word of spec/opcode_table.json is read under when only its bits and their number are known. The table's
rows of different formats share patterns (`RESET` and `EDGE` are both `1`, `PIDLE` and `EIDLE` are both `0` in whole bytes),
so one choice is made here and said in notes/assumptions/3.md: two bits are format `P`; one bit set is `R` (R79: "rst == 1
overrides everything"), one bit clear is `E`; in whole bytes 1 is `R` and everything else `P`. -/
def tableFormat (nbits w : Nat) : Format :=
  if nbits = 2 then .p
  else if w = 1 then .r
  else if nbits = 1 then .e
  else .p

/-- The word as the byte that carries it; a word that does not fit is carried as 255, which no format has. -/
def tableByte (w : Nat) : Byte := BitVec.ofNat 8 (min w 255)

/-- The operation the decoder reads from a word of spec/opcode_table.json. -/
def decodeTableWord (nbits w : Nat) : Option Instr :=
  match decode (tableFormat nbits w) (tableByte w) with
  | .ok i => some i
  | .error _ => none

end Sys2Proof
end

