-- ==== Sys2Proof/Machine/State.lean ====
section
/-! DEFINITION. The state of `IOMON-ACQ` as plain data: every register of 10_state.md section 1, the outgoing trace `ctl`,
the levels at the ports and the sample buffer (environment, R44), the configuration, and what the environment is going to do
next. `State.reset` is the state right after RESET (R47, R190). -/

namespace Sys2Proof.Machine

/-- The values of the phase register `ph` (R36). The numbers are `Phase.code` (Flags.lean); 9 to 15 are "never written"
(U19) and have no name here. -/
inductive Phase where
  | idle
  | cyOut
  | cyIn
  | cyPwm (i : Ch)
  | drRun
  | pub
deriving DecidableEq, Repr

/-- The values of `drain_status` (R26); the value 3 is never written. -/
inductive DrainStatus where
  | ok
  | stall
  | overrun
deriving DecidableEq, Repr

/-- The values of `fault_code` (R39, R161); the value 3 is never written. -/
inductive FaultCode where
  | none
  | avgRange
  | countRange
deriving DecidableEq, Repr

/-- One event of the outgoing control-event trace `ctl` (R41). -/
inductive CtlEvent where
  | adcDisable
  | dmaRearm (base capacity : Nat)
  | errClear
  | adcEnable
deriving DecidableEq, Repr

/-- What an observer can read (R43, R81): the published and status registers on the output ports, and the register `ph`. -/
inductive Watch where
  | dout
  | dinState
  | pwmOut (i : Ch)
  | adcOut (ch : Ch)
  | irqMask
  | pBusy
  | halted
  | faultCode
  | faultInfo
  | rearmCount
  | drainStatus
  | ph
deriving DecidableEq, Repr

/-- One step of the environment, or a step it gives to an agent of the block: the liberties of R205 and the fine-grained
forms of R80. -/
inductive Event where
  /-- The request ports at one instant (R79): the levels of `rst`, `p_req`, `p_op`, `e_req`. -/
  | instant (rst pReq pOp eReq : Bool)
  /-- The periodic agent takes its next sub-step. If that is `PUB`, observers read inside it: the first list of `watch` before
  the first of the setter calls, the second before the second, and so on, each list in its order (R34, R64, U22). -/
  | pa (watch : List (List Watch))
  /-- The edge agent takes its step. -/
  | ea
  /-- The DMA collaborator writes the next sample at its write cursor (R51, R81). -/
  | dmaWrite (x : Sample)
  /-- The DMA collaborator carries out the re-arm it was told of, if one is due: its write cursor is 0, `rem` reads `CAP` and
  the first sample written will be channel 0's (E-REARM, R59). -/
  | dmaRearmed
  /-- The DMA collaborator's write cursor stands at `w` (its low `n` bits) and the ADC's next conversion is channel `ch`'s: what
  bring-up left (R191), or `E-REARM` broken (U6). A re-arm that was due no longer is. -/
  | dmaPlaced (w : Nat) (ch : Ch)
  /-- A location's content is in flux or not yet visible (U4, U7): its next read is a draw. -/
  | disturb (j : Nat)
  /-- The port `rem` carries a level (its low `n+1` bits) at the next step that samples ports. -/
  | driveRem (v : Nat)
  /-- The port `pins` carries a level at the next step that samples ports. -/
  | drivePins (v : Byte)
  /-- The counter shows a value (modulo `2^W_CNT`) at the next step that samples ports. -/
  | driveCnt (v : Nat)
  /-- The port `outcmd` carries a level at the next step that samples ports. -/
  | driveOutcmd (v : Byte)
  /-- An observer reads a register or output port (R81). -/
  | observe (r : Watch)
deriving DecidableEq, Repr

/-- One line of the environment's script: a request word on one format, executed as a whole operation (the coarse lines of
R80), or one event. -/
inductive Stimulus where
  | request (f : Format) (w : Byte)
  | event (e : Event)
deriving DecidableEq, Repr

/-- The sample buffer as far as it has contents: the locations the DMA collaborator has written since RESET, since the last
re-arm and since it last lapped the block, with their samples (R51, R55, U5). Canonical form: `Memory.wf` (Ops.lean). -/
abbrev Memory := List (Nat × Sample)

/-- The ADU's registers (R21 to R26) and the trace `ctl` (R41). -/
structure Adu where
  cursor : Nat
  avg : Quad Sample
  adcOut : Quad Sample
  rearmCount : BitVec 32
  drainStatus : DrainStatus
  ctl : List CtlEvent
deriving DecidableEq, Repr

/-- The PDU's registers (R27 to R30). -/
structure Pdu where
  lastLevels : Byte
  riseTs : Quad Nat
  pwmValue : Quad (BitVec 16)
deriving DecidableEq, Repr

/-- The sequencer's and the digital I/O registers (R31 to R33, R36 to R38). -/
structure Seq where
  dout : Byte
  latDin : Byte
  latPwm : Quad (BitVec 16)
  dinState : Byte
  pwmOut : Quad (BitVec 16)
  ph : Phase
  inCycle : Bool
  irqMask : Bool
  ePend : Bool
deriving DecidableEq, Repr

/-- The registers a failed assertion writes (R39, R164). -/
structure FaultRegs where
  halted : Bool
  code : FaultCode
  info : BitVec 2
deriving DecidableEq, Repr

/-- What stands at the ports (R42, R43) and in the DMA collaborator's hands (R44): no register of the block. -/
structure Env where
  rst : Bool
  /-- What the script drives on `rem` for the next step that samples ports; none: the script does not say, and a sample is a
  draw (R40: "An input port has no memory"), but see `restarted`. The same holds of `pins`, `cnt` and `outcmd`. -/
  rem : Option Nat
  pins : Option Byte
  cnt : Option Nat
  outcmd : Option Byte
  /-- The number of steps taken that sample ports: what the free values on the ports are applied to. -/
  instant : Nat
  buf : Memory
  /-- The DMA collaborator's write cursor `w` (R57, R81). The block never reads it. -/
  wCur : Nat
  /-- The channel whose sample the collaborator writes next: the ADC's place in its round-robin order (R51, R59). The block
  never reads it. -/
  nextCh : Ch
  /-- The block has emitted the events of a re-arm that the collaborator has not carried out yet (R59). The block never reads
  it. -/
  rearmDue : Bool
  /-- The collaborator has carried out a re-arm and written no sample since: `rem` reads `CAP` (R59). -/
  restarted : Bool
  /-- How many samples the collaborator has written since the last `DRAIN` or RESET: `m` of R197. The block never reads it. -/
  delivered : Nat
  /-- The level last driven on the output port `buf_idx`, if any (R43, R52). -/
  bufIdx : Option Nat
deriving DecidableEq, Repr

/-- The whole state. `cfg` is fixed (R205); `script` is what happens next at the ports; `seen` is what observers have read;
`draws` counts the free values used. -/
structure State where
  cfg : Config
  adu : Adu
  pdu : Pdu
  seq : Seq
  flt : FaultRegs
  env : Env
  script : List Stimulus
  seen : List (Watch × Nat)
  draws : Nat
deriving DecidableEq, Repr

/-- The per-channel accumulators `total` and `count` (R22): exact integers that live inside one `DR_RUN`, not state. -/
structure Acc where
  total : Quad Nat
  count : Quad Nat
deriving DecidableEq, Repr

/-- Why the machine stops. The two assertions of R161 are not here: taking one is a next state (R164). -/
inductive Fault where
  /-- Raised by `DR_RUN` when `cursor` names no location of the sample buffer, whose indices are `0..CAP-1` (R50). The n-bit
  register cannot hold such a value and no step reaches one (R46). Safe: the model stops. -/
  | noSuchLocation
deriving DecidableEq, Repr

/-- Why the model does not take a step. -/
inductive Refusal where
  /-- Answered by an arm of `exec` for an instruction that has no meaning yet. Safe. -/
  | notModelled (mnemonic : String)
  /-- Answered by `DR_RUN` when it samples `rem > CAP`: "outside the contract: the block's behaviour is not defined and a
  model refuses such a step" (R57, U1). Safe. -/
  | remOutOfContract
  /-- Answered by `step` for a configuration outside the constraints of 00_scope.md section 3 (U11 to U14: "refuse"). Safe. -/
  | configOutOfScope
  /-- Answered by `step` for a request word with a bit set above the ports of its format: no such pattern exists (R78).
  Safe. -/
  | noSuchPattern
deriving DecidableEq, Repr

/-- The outcome of a meaning or a step. -/
abbrev Result := Host.Outcome State Fault Refusal

/-- The reset column of 10_state.md section 1, ADU (R47, R190; D13, D32). -/
def Adu.reset : Adu where
  cursor := 0
  avg := Quad.fill 0
  adcOut := Quad.fill 0
  rearmCount := 0
  drainStatus := .ok
  ctl := []

/-- The reset column, PDU: "Created at init with zero/low defaults" (R47). -/
def Pdu.reset : Pdu where
  lastLevels := 0
  riseTs := Quad.fill 0
  pwmValue := Quad.fill 0

/-- The reset column, sequencer and digital I/O (R47, R190; D32). -/
def Seq.reset : Seq where
  dout := 0
  latDin := 0
  latPwm := Quad.fill 0
  dinState := 0
  pwmOut := Quad.fill 0
  ph := .idle
  inCycle := false
  irqMask := false
  ePend := false

/-- The reset column, fault registers (R47, R190). -/
def FaultRegs.reset : FaultRegs where
  halted := false
  code := .none
  info := 0

/-- Port levels beside the reset state. DESIGN CHOICE, unsafe (notes/assumptions/15.md): the spec gives an input port no
value; `rem = CAP` is R105 (a)'s. They stand until the first step that samples ports. The buffer lists nothing (R47). -/
def Env.atReset (c : Config) : Env where
  rst := false
  rem := some c.cap
  pins := some 0
  cnt := some 0
  outcmd := some 0
  instant := 0
  buf := []
  wCur := 0
  nextCh := 0
  rearmDue := false
  restarted := false
  delivered := 0
  bufIdx := none

/-- The machine right after RESET (R47, R190), under `TC1`, with nothing at the ports yet. -/
def State.reset : State where
  cfg := Config.tc1
  adu := Adu.reset
  pdu := Pdu.reset
  seq := Seq.reset
  flt := FaultRegs.reset
  env := Env.atReset Config.tc1
  script := []
  seen := []
  draws := 0

end Sys2Proof.Machine
end

