-- ==== Sys2Proof/Machine/Ops.lean ====
section
/-! DEFINITION. The operations every meaning is made of: the sample buffer (R50 to R55), the writes of each unit's registers
(R18), taking a fatal assertion (R164) and the one way out of it (R165, R190). -/

namespace Sys2Proof.Machine

/-! ### The sample buffer -/

/-- The canonical form of the buffer's contents: locations strictly rising, each one of the `CAP` locations (R50). What an
unlisted location reads as is a free value, so no entry can equal it. -/
abbrev Memory.wf (cap : Nat) (m : Memory) : Prop :=
  List.Pairwise (fun p q => p.1 < q.1) m ∧ ∀ p ∈ m, p.1 < cap

/-- The sample the collaborator has put into location `j`, as far as the buffer has contents (R55). -/
def Memory.lookup (j : Nat) : Memory → Option Sample
  | [] => none
  | (a, y) :: m => if a = j then some y else Memory.lookup j m

/-- The DMA collaborator's write of `x` to location `j`. The block itself has no memory write (R18, R51). -/
def Memory.write (j : Nat) (x : Sample) : Memory → Memory
  | [] => [(j, x)]
  | (a, y) :: m =>
    if j < a then (j, x) :: (a, y) :: m
    else if j = a then (j, x) :: m
    else (a, y) :: Memory.write j x m

/-- Location `j` loses its value: its content is in flux or not yet visible (U4, U7). -/
def Memory.disturb (j : Nat) (m : Memory) : Memory :=
  m.filter fun p => decide (p.1 ≠ j)

/-! ### Register writes, one for each unit

`x <- v` writes one register; "the write is the only effect" (R18). -/

/-- A write of ADU registers. -/
def State.modAdu (s : State) (f : Adu → Adu) : State := { s with adu := f s.adu }

/-- A write of PDU registers. -/
def State.modPdu (s : State) (f : Pdu → Pdu) : State := { s with pdu := f s.pdu }

/-- A write of sequencer registers. -/
def State.modSeq (s : State) (f : Seq → Seq) : State := { s with seq := f s.seq }

/-- A write of fault registers. -/
def State.modFlt (s : State) (f : FaultRegs → FaultRegs) : State := { s with flt := f s.flt }

/-- A change at the ports or in the DMA collaborator. -/
def State.modEnv (s : State) (f : Env → Env) : State := { s with env := f s.env }

/-- A free value has been used. -/
def State.countDraw (s : State) : State := { s with draws := s.draws + 1 }

/-- An observer has read `v` from `r`. -/
def State.record (s : State) (r : Watch) (v : Nat) : State := { s with seen := s.seen ++ [(r, v)] }

/-- `ph <- p` (R36). -/
def State.setPh (s : State) (p : Phase) : State := s.modSeq fun q => { q with ph := p }

/-- `irq_mask <- b` (R37). -/
def State.setIrqMask (s : State) (b : Bool) : State := s.modSeq fun q => { q with irqMask := b }

/-- `e_pend <- b` (R38). -/
def State.setEPend (s : State) (b : Bool) : State := s.modSeq fun q => { q with ePend := b }

/-- `emit E`: the event is appended to `ctl`, in order, never merged or dropped (R18, R41). -/
def State.emit (s : State) (e : CtlEvent) : State := s.modAdu fun a => { a with ctl := a.ctl ++ [e] }

/-! ### The fatal assertion and the way out of it -/

/-- `raise Fault(code, ch)` (R164): the code, the channel and `halted` are written, "Nothing else is saved and control goes
nowhere"; `ph` keeps its value. -/
def State.raise (s : State) (code : FaultCode) (ch : Ch) : State :=
  s.modFlt fun _ => { halted := true, code := code, info := BitVec.ofNat 2 ch.val }

/-- The effect of `rst == 1` on the block (R190): every register of 10_state.md section 1 takes its reset value and `ctl` is
empty; "the only way out of the halted state". The ports and the configuration are not touched (R191), and the locations of
the buffer have no value of their own any more (R47, R55: "has not written since RESET"), none delivered since;
what is written while `rst` stays at 1 is notes/assumptions/35.md. -/
def State.resetBlock (s : State) : State :=
  { s with
    adu := Adu.reset
    pdu := Pdu.reset
    seq := Seq.reset
    flt := FaultRegs.reset
    env := { s.env with buf := [], delivered := 0 } }

/-- The level of the port `rst`. -/
def State.setRst (s : State) (b : Bool) : State := s.modEnv fun e => { e with rst := b }

/-- Nothing is driven on an operand port any more (R40). -/
def State.undrive (s : State) : State :=
  s.modEnv fun e => { e with rem := none, pins := none, cnt := none, outcmd := none }

/-- The instant at which ports were sampled is over: "An input port has no memory" (R40). -/
def State.release (s : State) : State := s.undrive.modEnv fun e => { e with instant := e.instant + 1 }

/-! ### Sequencing -/

/-- Go on with the next state; a fault or a refusal ends the operation. -/
def andThen (o : Result) (f : State → Result) : Result :=
  match o with
  | .next s => f s
  | .fault r => .fault r
  | .refused r => .refused r

/-- A step that can sample ports, and the end of its instant. -/
def thenRelease (o : Result) : Result := andThen o fun s => .next s.release

end Sys2Proof.Machine
end

