-- ==== Sys2Proof/Machine/Operands.lean ====
section
/-! DEFINITION. The operands: the input ports as a sub-step samples them (R42, R75), `BufRead` (R52), and the arithmetic
primitives of R17 applied to them. Reading a port has no side effect (R63). -/

namespace Sys2Proof.Machine

/-- The port `rem` where the script drives nothing there: `CAP` after a re-arm "until the first new sample arrives" (R59), else a
draw (R40), within the contract of R57. -/
def undrivenRem (s : State) : Nat :=
  if s.env.restarted then s.cfg.cap else Config.freeRem s.env.instant % (s.cfg.cap + 1)

/-- The port `rem` (R92): what the script drives there, else `undrivenRem`. -/
def portRem (s : State) : Nat := s.env.rem.getD (undrivenRem s)

/-- The port `pins` (R122, R143): what the script drives there, else a draw (R40). -/
def portPins (s : State) : Byte := s.env.pins.getD (Config.freePins s.env.instant)

/-- The port `cnt` (R122): what the script drives there, else a draw (R40). -/
def portCnt (s : State) : Nat := s.env.cnt.getD (Config.freeCnt s.env.instant % s.cfg.cntMod)

/-- The port `outcmd` (R142): what the script drives there, else a draw (R40). -/
def portOutcmd (s : State) : Byte := s.env.outcmd.getD (Config.freeOutcmd s.env.instant)

/-- `sext_16(w)`, the two's-complement integer of a 16-bit vector (R17). -/
def sext16 (w : Sample) : Int := w.toInt

/-- `clamp(v, lo, hi)` (R17). -/
def clamp (v lo hi : Int) : Int := if v < lo then lo else if v > hi then hi else v

/-- A sample clamped into `[0, 2047]`, as the non-negative integer the accumulators add (R99). -/
def clampSample (s : Int) : Nat := (clamp s 0 2047).toNat

/-- `(a - b) mod m` on unsigned numbers below `m`: the wraparound-safe subtraction (R123, R131). -/
def subMod (a b m : Nat) : Nat := (a + (m - b % m)) % m

/-- Bit `b` of a pin-level vector (R16). -/
def pinBit (v : Byte) (b : Nat) : Bool := v.getLsbD b

/-- `MON_MASK`, the OR of `1 << pwm_bit(i)` (R12). -/
def monMask (c : Config) : Byte :=
  (1#8 <<< c.pwmBit.get 0) ||| (1#8 <<< c.pwmBit.get 1) ||| (1#8 <<< c.pwmBit.get 2) ||| (1#8 <<< c.pwmBit.get 3)

/-- `(j + 1) mod CAP` (R54). -/
def nextIndex (c : Config) (j : Nat) : Nat := (j + 1) % c.cap

/-- The channel of buffer location `j`, `j mod C` (R53). -/
def channelOf (j : Nat) : Ch := ⟨j % 4, Nat.mod_lt _ (by decide)⟩

/-- What stands on `buf_data` when location `j` is read as the `d`-th read of a run: the sample the collaborator has put
there, else a draw (R52, R55). After a whole lap between two `DRAIN`s no location has a sample of its own (U5; `dmaWrite`). -/
def bufData (m : Memory) (j d : Nat) : Sample :=
  match m.lookup j with
  | some x => x
  | none => Config.freeSample d

/-- `BufRead(j)` (R52): drives `buf_idx`, answers `sext_16(buf_data)`. -/
def bufRead (j : Nat) (s : State) : Int × State :=
  (sext16 (bufData s.env.buf j s.draws), (s.modEnv fun e => { e with bufIdx := some j }).countDraw)

end Sys2Proof.Machine
end

