-- ==== Sys2Proof/Machine/Flags.lean ====
section
/-! DEFINITION. The status computations: the health check of `DRAIN` (R94), the two assertions (R101), the conditions under
which an agent has a step (R71, R73, R121, R165), the numbers of the named codes, and what an observer reads on each output
port (R43). -/

namespace Sys2Proof.Machine

/-- The number of a phase (R36). -/
def Phase.code : Phase → BitVec 4
  | .idle => 0
  | .cyOut => 1
  | .cyIn => 2
  | .cyPwm i => BitVec.ofNat 4 (3 + i.val)
  | .drRun => 7
  | .pub => 8

/-- The number of a drain status (R26). -/
def DrainStatus.code : DrainStatus → BitVec 2
  | .ok => 0
  | .stall => 1
  | .overrun => 2

/-- The number of a fault code (R39, R161). -/
def FaultCode.code : FaultCode → BitVec 2
  | .none => 0
  | .avgRange => 1
  | .countRange => 2

/-- Step 2 of `DRAIN`, the number of unread samples (R93). -/
def available (cap cursor filled : Nat) : Nat :=
  if cursor ≤ filled then filled - cursor else (cap - cursor) + filled

/-- Step 3, the health check: stall at 0, overrun strictly above 7/8, compared exactly as `8*available > 7*CAP` (R94). -/
def healthCheck (cap avail : Nat) : DrainStatus :=
  if avail = 0 then .stall
  else if 8 * avail > 7 * cap then .overrun
  else .ok

/-- Step 5, the average of one channel: shift before the floor division; 0 where there is no sample (R100). -/
def average (a : Acc) (ch : Ch) : Nat :=
  if a.count.get ch ≠ 0 then (a.total.get ch * 16) / a.count.get ch else 0

/-- The two checks of one channel, count before average (R101). -/
def channelFailure (c : Config) (a : Acc) (ch : Ch) : Option (FaultCode × Ch) :=
  if a.count.get ch > c.cntMax then some (.countRange, ch)
  else if average a ch > 32768 then some (.avgRange, ch)
  else none

/-- Step 5, the assertions: the first that fails, channels ascending (R101, R170 c); none is checked unless `DEBUG_ASSERT`
(R166). -/
def firstFailure (c : Config) (a : Acc) : Option (FaultCode × Ch) :=
  if c.debugAssert then ([0, 1, 2, 3] : List Ch).findSome? (channelFailure c a) else none

/-- `p_busy` is `ph != IDLE` (R43). -/
def pBusy (s : State) : Bool := decide (s.seq.ph ≠ .idle)

/-- Format `P` is sampled only when `ph == IDLE`, `halted == 0` and `rst == 0` (R73). -/
def pSampled (s : State) : Bool := !pBusy s && !s.flt.halted && !s.env.rst

/-- The periodic agent has a sub-step to take: an operation is in progress and neither `halted` nor `rst` holds it
(R71, R165). -/
def paEnabled (s : State) : Bool := pBusy s && !s.flt.halted && !s.env.rst

/-- "The edge agent has a step exactly when `e_pend == 1`, `irq_mask == 0`, `halted == 0` and `rst == 0`" (R121). -/
def eaEnabled (s : State) : Bool := s.seq.ePend && !s.seq.irqMask && !s.flt.halted && !s.env.rst

/-- What an observer reads, as a number (R43). -/
def observed (s : State) : Watch → Nat
  | .dout => s.seq.dout.toNat
  | .dinState => s.seq.dinState.toNat
  | .pwmOut i => (s.seq.pwmOut.get i).toNat
  | .adcOut ch => (s.adu.adcOut.get ch).toNat
  | .irqMask => s.seq.irqMask.toNat
  | .pBusy => (pBusy s).toNat
  | .halted => s.flt.halted.toNat
  | .faultCode => s.flt.code.code.toNat
  | .faultInfo => s.flt.info.toNat
  | .rearmCount => s.adu.rearmCount.toNat
  | .drainStatus => s.adu.drainStatus.code.toNat
  | .ph => s.seq.ph.code.toNat

end Sys2Proof.Machine
end

