-- ==== Sys2Proof/Machine/Pwm.lean ====
section
/-! DEFINITION. The PWM Decode Unit: the operations `EDGE` (R120 to R127) and `EIDLE` (R128). -/

namespace Sys2Proof.Machine

/-- The three-region map of an interval to a 16-bit value, the tests in the order written (R124). -/
def dutyOf (c : Config) (delta : Nat) : BitVec 16 :=
  if delta ≤ c.tLow then 0
  else if delta ≥ c.tHigh then 65535
  else BitVec.ofNat 16 ((delta - c.tLow) % 65536)

/-- `cur = pins & MON_MASK` (R122). -/
def edgeLevels (s : State) : Byte := portPins s &&& monMask s.cfg

/-- `changed = cur ^ last_levels` (R122). -/
def edgeChanged (s : State) : Byte := edgeLevels s ^^^ s.pdu.lastLevels

/-- `pwm_value[i]` after the edges of one event: written on a falling edge of channel `i` only (R123, R124). -/
def edgeValue (s : State) (i : Ch) : BitVec 16 :=
  let b := s.cfg.pwmBit.get i
  if pinBit (edgeChanged s) b && pinBit s.pdu.lastLevels b then
    dutyOf s.cfg (subMod (portCnt s) (s.pdu.riseTs.get i) s.cfg.cntMod)
  else s.pdu.pwmValue.get i

/-- `rise_ts[i]` after the edges of one event: `now` for every changed channel, whatever the direction (R125). -/
def edgeStamp (s : State) (i : Ch) : Nat :=
  if pinBit (edgeChanged s) (s.cfg.pwmBit.get i) then portCnt s else s.pdu.riseTs.get i

/-- `EDGE` as the edge agent executes it (R127): the pending latch is cleared first; an event in which no monitored pin
changed writes nothing else (R122). -/
def edgeBody (s : State) : State :=
  let t := s.setEPend false
  if edgeChanged s = 0 then t
  else t.modPdu fun _ =>
    { lastLevels := edgeLevels s
      riseTs := Quad.ofFn (edgeStamp s)
      pwmValue := Quad.ofFn (edgeValue s) }

/-- The edge agent's step, where it has one (R121). -/
def eaStep (s : State) : State := if eaEnabled s then edgeBody s else s

/-- `e_req == 1` sets `e_pend <- 1` at once, whatever the state of the block, unless `rst == 1` (R74). -/
def latchEdge (s : State) : State := if s.env.rst then s else s.setEPend true

/-- `EDGE` requested and executed at once (R80). While `irq_mask` or `halted` holds the edge agent off, the request stays
pending (R121, R165, R168). -/
def execEdge (s : State) : Result := .next (eaStep (latchEdge s))

/-- `EIDLE`: nothing is requested; `e_pend` keeps its value and no register changes (R128). -/
def execEidle (s : State) : Result := .next s

end Sys2Proof.Machine
end

