-- ==== Sys2Proof/Machine/Reset.lean ====
section
/-! DEFINITION. The operation `RESET` (R190, R191). -/

namespace Sys2Proof.Machine

/-- `RESET`, "rst pulsed" (R80): every register takes its reset value, whatever the block was doing, halted or not, and
`rst` is low again afterwards. -/
def execReset (s : State) : Result := .next (s.resetBlock.setRst false)

end Sys2Proof.Machine
end

