-- ==== Sys2Proof/Machine/Adc.lean ====
section
/-! DEFINITION. The ADC Drain Unit: the sub-step `DR_RUN` (R92 to R101, R104). -/

namespace Sys2Proof.Machine

/-- The cleared accumulators (R97). -/
def Acc.zero : Acc := ⟨Quad.fill 0, Quad.fill 0⟩

/-- `total[ch] = total[ch] + v; count[ch] = count[ch] + 1` (R98). -/
def Acc.add (a : Acc) (ch : Ch) (v : Nat) : Acc where
  total := a.total.set ch (a.total.get ch + v)
  count := a.count.set ch (a.count.get ch + 1)

/-- One turn of step 4: read at `cursor`, clamp, accumulate under the channel of the buffer index, advance (R98). -/
def consumeOne (p : State × Acc) : State × Acc :=
  let cursor := p.1.adu.cursor
  let read := bufRead cursor p.1
  (read.2.modAdu fun a => { a with cursor := nextIndex p.1.cfg cursor },
   p.2.add (channelOf cursor) (clampSample read.1))

/-- Step 4: "consume exactly `available` samples starting at `cursor`" (R98). -/
def consume : Nat → State × Acc → State × Acc
  | 0, p => p
  | k + 1, p => consume k (consumeOne p)

/-- The re-arm (R96): four control events in this order inside the critical section, then the count. The locations of the
buffer have no value of their own any more (R55: "or since the last re-arm"), and the collaborator has a re-arm to carry out
(R59). -/
def rearm (s : State) : State :=
  let s := s.setIrqMask true
  let s := s.emit .adcDisable
  let s := s.emit (.dmaRearm s.cfg.bufBase s.cfg.cap)
  let s := s.emit .errClear
  let s := s.emit .adcEnable
  let s := s.setIrqMask false
  let s := s.modAdu fun a => { a with rearmCount := a.rearmCount + 1 }
  s.modEnv fun e => { e with buf := [], rearmDue := true }

/-- The averages as the 16-bit registers hold them (R100, R166: "truncated to 16 bits"). -/
def averages (a : Acc) : Quad Sample := Quad.ofFn fun ch => BitVec.ofNat 16 (average a ch)

/-- Step 5: the assertions before any `avg` is written, then the averages and `ph <- PUB` (R101). A `raise` ends the
sub-step: what steps 3 and 4 wrote stands, nothing after it happens (R164). -/
def finishRun (p : State × Acc) : State :=
  match firstFailure p.1.cfg p.2 with
  | some (code, ch) => p.1.raise code ch
  | none => (p.1.modAdu fun a => { a with avg := averages p.2 }).setPh .pub

/-- The count of what is delivered between two `DRAIN`s starts again (R197). -/
def drainTaken (s : State) : State := s.modEnv fun e => { e with delivered := 0 }

/-- Steps 3 and 4 for a health check that answered `h` with `avail` unread samples (R94, R95, R98): a desynchronized buffer
sets `cursor <- 0`, re-arms and consumes nothing. -/
def runHealth (h : DrainStatus) (avail : Nat) (s : State) : State × Acc :=
  let s := (drainTaken s).modAdu fun a => { a with drainStatus := h }
  match h with
  | .ok => consume avail (s, Acc.zero)
  | .stall => (rearm (s.modAdu fun a => { a with cursor := 0 }), Acc.zero)
  | .overrun => (rearm (s.modAdu fun a => { a with cursor := 0 }), Acc.zero)

/-- The sub-step `DR_RUN` (R104). A sample of `rem` above `CAP` is outside the collaborator's contract and refused (R57,
U1); a `cursor` that names no location is a fault (R50). -/
def drRun (s : State) : Result :=
  if portRem s > s.cfg.cap then .refused .remOutOfContract
  else if s.cfg.cap ≤ s.adu.cursor then .fault .noSuchLocation
  else
    let avail := available s.cfg.cap s.adu.cursor (s.cfg.cap - portRem s)
    .next (finishRun (runHealth (healthCheck s.cfg.cap avail) avail s))

end Sys2Proof.Machine
end

