-- ==== Sys2Proof/Machine/Publish.lean ====
section
/-! DEFINITION. The sub-step `PUB`: the setter calls toward the communications collaborator (R103, R146). -/

namespace Sys2Proof.Machine

/-- `set_input_pin_state(lat_din)` (R146). -/
def setInputPinState (s : State) : State := s.modSeq fun q => { q with dinState := q.latDin }

/-- `set_pwm_values(lat_pwm[0..3])`: one call, four registers written together (R146). -/
def setPwmValues (s : State) : State := s.modSeq fun q => { q with pwmOut := q.latPwm }

/-- `set_primary_channel(avg[0])` (R103). -/
def setPrimaryChannel (s : State) : State :=
  s.modAdu fun a => { a with adcOut := a.adcOut.set 0 (a.avg.get 0) }

/-- `set_current_voltage(avg[1], avg[2])`: one call, current first, two registers written together (R43, R103). -/
def setCurrentVoltage (s : State) : State :=
  s.modAdu fun a => { a with adcOut := (a.adcOut.set 1 (a.avg.get 1)).set 2 (a.avg.get 2) }

/-- `set_auxiliary_channel(avg[3])` (R103). -/
def setAuxiliaryChannel (s : State) : State :=
  s.modAdu fun a => { a with adcOut := a.adcOut.set 3 (a.avg.get 3) }

/-- The setter calls of a `PUB` in the order §6 lists them: three for a stand-alone `DRAIN` (R103), five for a `CYCLE`
(R146). -/
def setterCalls (inCycle : Bool) : List (State → State) :=
  let adc := [setPrimaryChannel, setCurrentVoltage, setAuxiliaryChannel]
  if inCycle then setInputPinState :: setPwmValues :: adc else adc

/-- One observer's read after another, with nothing in between (R34). -/
def readAll (rs : List Watch) (s : State) : State := rs.foldl (fun t r => t.record r (observed t r)) s

/-- Setter calls with observers reading before each of them and after the last: each call is atomic, the group is not (R34,
R146), and "every read returns the value left by the most recent earlier step" (R64). -/
def callsWatched : List (State → State) → List (List Watch) → State → State
  | calls, [], s => calls.foldl (fun t f => f t) s
  | [], rs :: watch, s => callsWatched [] watch (readAll rs s)
  | f :: calls, rs :: watch, s => callsWatched calls watch (f (readAll rs s))

/-- A `PUB` with observers reading inside it (U22): every setter call, then `in_cycle <- 0; ph <- IDLE` (R103, R146). -/
def publishWatched (watch : List (List Watch)) (s : State) : State :=
  (callsWatched (setterCalls s.seq.inCycle) watch s).modSeq fun q => { q with inCycle := false, ph := .idle }

/-- The whole sub-step with nobody reading inside it. -/
def publish (s : State) : State := publishWatched [] s

end Sys2Proof.Machine
end

