-- ==== Sys2Proof/Machine/Sequencer.lean ====
section
/-! DEFINITION. The periodic agent: acceptance of a request (R141), the sub-steps `ph` names (R91, R142 to R146), and the
operations `DRAIN`, `CYCLE` and `PIDLE` executed back to back (R80). -/

namespace Sys2Proof.Machine

/-- Acceptance of a `DRAIN`: `in_cycle <- 0; ph <- DR_RUN` (R91, R141). -/
def acceptDrain (s : State) : State := s.modSeq fun q => { q with inCycle := false, ph := .drRun }

/-- Acceptance of a `CYCLE`: `in_cycle <- 1; ph <- CY_OUT` (R141). -/
def acceptCycle (s : State) : State := s.modSeq fun q => { q with inCycle := true, ph := .cyOut }

/-- Format `P` is sampled and reads the operation `i`, if the block is sampling it at all (R73, R141). -/
def acceptP (i : Instr) (s : State) : State :=
  if pSampled s then
    match i with
    | .drain => acceptDrain s
    | .cycle => acceptCycle s
    | .reset => s
    | .pidle _ => s
    | .edge => s
    | .eidle => s
  else s

/-- `CY_OUT`: `dout <- outcmd; ph <- CY_IN` (R142). -/
def cyOut (s : State) : State := s.modSeq fun q => { q with dout := portOutcmd s, ph := .cyIn }

/-- `CY_IN`: `lat_din <- pins; ph <- CY_PWM0` (R143). -/
def cyIn (s : State) : State := s.modSeq fun q => { q with latDin := portPins s, ph := .cyPwm 0 }

/-- The phase after `CY_PWMi` (R144). -/
def phaseAfterPwm (i : Ch) : Phase := if i < 3 then .cyPwm (i + 1) else .drRun

/-- `CY_PWMi`: `lat_pwm[i] <- pwm_value[i]`, one whole 16-bit read (R61, R144). -/
def cyPwm (i : Ch) (s : State) : State :=
  s.modSeq fun q => { q with latPwm := q.latPwm.set i (s.pdu.pwmValue.get i), ph := phaseAfterPwm i }

/-- The periodic agent's next sub-step, if it has one (R71, R165); in `PUB`, observers may read between the setters. -/
def paStepWatched (watch : List (List Watch)) (s : State) : Result :=
  if paEnabled s then
    match s.seq.ph with
    | .idle => .next s
    | .cyOut => .next (cyOut s)
    | .cyIn => .next (cyIn s)
    | .cyPwm i => .next (cyPwm i s)
    | .drRun => drRun s
    | .pub => .next (publishWatched watch s)
  else .next s

/-- The periodic agent's next sub-step with nobody reading inside it. -/
def paStep (s : State) : Result := paStepWatched [] s

/-- `k` sub-steps back to back: "no step of another agent of the block or of the environment falls between" (R80). -/
def paSteps : Nat → State → Result
  | 0, s => .next s
  | k + 1, s => andThen (paStep s) (paSteps k)

/-- `DRAIN` (R90, R91): acceptance, then `DR_RUN` and `PUB`. A request the block is not sampling is dropped (R73); an
assertion that fails in `DR_RUN` leaves the block halted and nothing is published (R164). -/
def execDrain (s : State) : Result :=
  if pSampled s then paSteps 2 (acceptDrain s) else .next s

/-- `CYCLE` (R140): acceptance, then the eight sub-steps. A request the block is not sampling is dropped (R73). -/
def execCycle (s : State) : Result :=
  if pSampled s then paSteps 8 (acceptCycle s) else .next s

/-- `PIDLE`: the periodic agent does nothing, whatever the level of `p_op` (R149). -/
def execPidle (_pOp : Bool) (s : State) : Result := .next s

end Sys2Proof.Machine
end

