-- ==== Sys2Proof/Machine/Dispatch.lean ====
section
/-! DEFINITION. One arm for each operation of the operation map (R76). -/

namespace Sys2Proof.Machine

def exec (i : Instr) (s : State) : Host.Outcome State Fault Refusal :=
  match i with
  | .reset => Sys2Proof.Machine.execReset s
  | .drain => Sys2Proof.Machine.execDrain s
  | .cycle => Sys2Proof.Machine.execCycle s
  | .pidle pOp => Sys2Proof.Machine.execPidle pOp s
  | .edge => Sys2Proof.Machine.execEdge s
  | .eidle => Sys2Proof.Machine.execEidle s

end Sys2Proof.Machine
end

