-- ==== Sys2Proof/Machine/Environment.lean ====
section
/-! DEFINITION. What the environment's events do: its liberties at the ports (R205), the fine-grained steps it gives to the
agents of the block (R80), and whose step is next when it says nothing (R64). -/

namespace Sys2Proof.Machine

/-- The operation a format's ports select at one instant, with the two-bit word of format `P` made of `p_req` and `p_op`
(R72). -/
def pWord (pReq pOp : Bool) : Byte := BitVec.ofNat 8 (2 * pReq.toNat + pOp.toNat)

/-- Format `P` at one instant (R73). -/
def sampleP (pReq pOp : Bool) (s : State) : State :=
  match decode .p (pWord pReq pOp) with
  | .ok i => acceptP i s
  | .error _ => s

/-- Format `E` at one instant: an edge request is latched (R74), no request changes nothing (R128). -/
def sampleE (eReq : Bool) (s : State) : State :=
  match decode .e (BitVec.ofNat 8 eReq.toNat) with
  | .ok .edge => latchEdge s
  | _ => s

/-- The request ports at one instant (R79): `rst == 1` overrides everything and holds the block in its reset state (R71,
R190); else `P` and `E` are both taken, and neither is executed yet. DESIGN CHOICE, unsafe (notes/assumptions/35.md): the spec
does not say whether a sample written while `rst` is held at 1 counts as written "since RESET" (R55, U3). It does here: the
buffer is forgotten and `delivered` is 0 at each instant with `rst == 1`, and not when `rst` falls. -/
def instant (rst pReq pOp eReq : Bool) (s : State) : State :=
  if rst then (s.setRst true).resetBlock
  else sampleE eReq (sampleP pReq pOp (s.setRst false))

/-- The buffer after a delivery that brings the samples since the last `DRAIN` to `m`. With `m >= CAP` the next `DRAIN` consumes
a mixture of laps (R197), and "must treat the consumed samples as `any value`" as to which conversion they came from (U5): no
location has a sample of its own any more, and every read is a draw. -/
def bufferAfter (cap m : Nat) (written : Memory) : Memory := if m < cap then written else []

/-- The DMA collaborator writes `x` at its write cursor, moves the cursor on, and the ADC goes on to the next channel (R51, R54,
R81). With it the first new sample since a re-arm has arrived (R59). -/
def dmaWrite (x : Sample) (s : State) : State :=
  s.modEnv fun e =>
    { e with
      buf := bufferAfter s.cfg.cap (e.delivered + 1) (e.buf.write e.wCur x)
      wCur := nextIndex s.cfg e.wCur
      nextCh := e.nextCh + 1
      delivered := e.delivered + 1
      restarted := false }

/-- The DMA collaborator carries out the re-arm it was told of: "the DMA collaborator's write cursor is 0, `rem` reads `CAP`",
"and the first sample written is channel 0's" (R59): whatever was driven on `rem`, it reads `CAP` from here on, until the first
new sample arrives or the script drives another level. Without a re-arm due it does nothing. -/
def dmaRearmed (s : State) : State :=
  if s.env.rearmDue then
    s.modEnv fun e => { e with wCur := 0, nextCh := 0, rem := none, rearmDue := false, restarted := true }
  else s

/-- The DMA collaborator stands at location `w` (reduced to the `n` bits of an index) and channel `ch`, whatever it was told:
the bring-up of R191, and U6. -/
def dmaPlaced (w : Nat) (ch : Ch) (s : State) : State :=
  s.modEnv fun e => { e with wCur := w % s.cfg.cap, nextCh := ch, rearmDue := false, restarted := false }

/-- The event is a step of an agent of the block, which can sample ports. -/
def Event.isAgentStep : Event → Bool
  | .pa _ => true
  | .ea => true
  | .instant _ _ _ _ => false
  | .dmaWrite _ => false
  | .dmaRearmed => false
  | .dmaPlaced _ _ => false
  | .disturb _ => false
  | .driveRem _ => false
  | .drivePins _ => false
  | .driveCnt _ => false
  | .driveOutcmd _ => false
  | .observe _ => false

/-- One event of the script. -/
def envStep (e : Event) (s : State) : Result :=
  match e with
  | .instant rst pReq pOp eReq => .next (instant rst pReq pOp eReq s)
  | .pa watch => paStepWatched watch s
  | .ea => .next (eaStep s)
  | .dmaWrite x => .next (dmaWrite x s)
  | .dmaRearmed => .next (dmaRearmed s)
  | .dmaPlaced w ch => .next (dmaPlaced w ch s)
  | .disturb j => .next (s.modEnv fun v => { v with buf := v.buf.disturb j })
  | .driveRem v => .next (s.modEnv fun n => { n with rem := some (v % (2 * s.cfg.cap)) })
  | .drivePins v => .next (s.modEnv fun n => { n with pins := some v })
  | .driveCnt v => .next (s.modEnv fun n => { n with cnt := some (v % s.cfg.cntMod) })
  | .driveOutcmd v => .next (s.modEnv fun n => { n with outcmd := some v })
  | .observe r => .next (s.record r (observed s r))

/-- A step of an agent of the block, if one has a step, with the ports as they are. If both have one, "which agent takes the next
step is not determined" (R79), so a free value says. -/
def agentStep (s : State) : Result :=
  if paEnabled s && eaEnabled s then
    if Config.freeTurn s.draws then paStep s.countDraw else .next (eaStep s.countDraw)
  else if paEnabled s then paStep s
  else .next (eaStep s)

/-- The script has run out: a step the block still owes is taken (R194, R200: "every enabled step is eventually taken"). The
script says nothing of the ports, so whatever the step samples is a draw (R40), but `rem` after a re-arm (R59). A quiescent
or halted block stays as it is. -/
def owedStep (s : State) : Result :=
  if paEnabled s || eaEnabled s then thenRelease (agentStep s.undrive) else .next s

end Sys2Proof.Machine
end

