-- ==== Sys2Proof/Machine/Fetch.lean ====
section
/-! DEFINITION. What the machine does next: the head of the environment's script, a request word decoded under its format. -/

namespace Sys2Proof.Machine

/-- What `step` has to do next. -/
inductive Fetched where
  /-- A request word selects the operation `i`. -/
  | run (i : Instr) (s : State)
  /-- An event. -/
  | event (e : Event) (s : State)
  /-- Format `R` reads 0: `rst` is low and no operation is selected (R71). -/
  | none (s : State)
  /-- No such pattern (R78). -/
  | noPattern
  /-- The script has run out. -/
  | noStimulus (s : State)
  /-- The configuration is not one the spec accepts (U11 to U14). -/
  | badConfig
deriving DecidableEq, Repr

/-- The request word of a format, decoded; the state is already past it. -/
def fetchRequest (f : Format) (w : Byte) (s : State) : Fetched :=
  match decode f w with
  | .ok i => .run i s
  | .error .selectsNone => .none (s.setRst false)
  | .error .bitsAboveFormat => .noPattern

/-- The head of the script is taken off it. -/
def fetch (s : State) : Fetched :=
  if s.cfg.wf then
    match s.script with
    | [] => .noStimulus s
    | .request f w :: rest => fetchRequest f w { s with script := rest }
    | .event e :: rest => .event e { s with script := rest }
  else .badConfig

/-- A request word in front of the script. -/
def pushRequest (f : Format) (w : Byte) (s : State) : State :=
  { s with script := .request f w :: s.script }

end Sys2Proof.Machine
end

