-- ==== Sys2Proof/Machine/Step.lean ====
section
/-! DEFINITION. One step of the machine: the next thing in the script, or a step the block still owes. -/

namespace Sys2Proof.Machine

/-- One step. A request word runs the operation it decodes to; an event does what `envStep` says; when nothing is left the
block takes the steps it owes. After a step that can sample ports nothing is driven on them any more (R40). -/
def step (s : State) : Host.Outcome State Fault Refusal :=
  match fetch s with
  | .run i t => thenRelease (exec i t)
  | .event e t => if e.isAgentStep then thenRelease (envStep e t) else envStep e t
  | .none t => .next t
  | .noPattern => .refused .noSuchPattern
  | .noStimulus t => owedStep t
  | .badConfig => .refused .configOutOfScope

/-- `s` with a word of spec/opcode_table.json as the next request (notes/assumptions/2.md, notes/assumptions/3.md). -/
def State.withFetchWord (s : State) (nbits w : Nat) : State :=
  pushRequest (tableFormat nbits w) (tableByte w) s

end Sys2Proof.Machine
end

