-- ==== Sys2Proof/Machine/Trace.lean ====
section
/-! DEFINITION. The trace notation of 30_encoding.md section 4: each line of a stimulus trace (R80), each environment line (R81)
and each pseudo-operation (R82) as the stimuli it stands for. -/

namespace Sys2Proof.Machine

/-- One line of a stimulus trace. Where a fine-grained line gives a port only if the sub-step samples it, the port is an
`Option`. -/
inductive Line where
  /-- `RESET` (R80). -/
  | reset
  /-- `DRAIN rem=<int>` (R80). -/
  | drain (rem : Nat)
  /-- `CYCLE outcmd=<v> pins=<v> rem=<int>` (R80). -/
  | cycle (outcmd pins : Byte) (rem : Nat)
  /-- `EDGE pins=<v> cnt=<v>` (R80). -/
  | edge (pins : Byte) (cnt : Nat)
  /-- `NOP` (R80). -/
  | nop
  /-- `P.req DRAIN` or `P.req CYCLE` (R80): `pOp` is the level of `p_op`. -/
  | pReq (pOp : Bool)
  /-- `PA.step [outcmd=<v>] [pins=<v>] [rem=<int>]` (R80). -/
  | paStep (outcmd pins : Option Byte) (rem : Option Nat)
  /-- `E.req` (R80). -/
  | eReq
  /-- `EA.step pins=<v> cnt=<v>` (R80). -/
  | eaStep (pins : Byte) (cnt : Nat)
  /-- `DMA <s0> <s1> ...` (R81). -/
  | dma (samples : List Sample)
  /-- `OBS <register>` (R81); the value expected is the reader's business. -/
  | obs (r : Watch)
  /-- `PULSE ch=<i> t0=<v> d=<v>` (R82); `levels` is `last_levels` before it, with the channel's bit 0. -/
  | pulse (levels : Byte) (ch : Ch) (t0 d : Nat)
  /-- `FILL ch0=<a> ch1=<b> ch2=<c> ch3=<d> x<k>` (R82). -/
  | fill (q : Quad Sample) (k : Nat)
deriving DecidableEq, Repr

/-- The stimuli of an `EDGE` line: its port values, then the request. -/
def edgeStimuli (pins : Byte) (cnt : Nat) : List Stimulus :=
  [.event (.drivePins pins), .event (.driveCnt cnt), .request .e 1]

/-- The stimuli a line stands for. A line in which a `DR_RUN` can run ends with the collaborator's answer to a re-arm, if there
was one: "After a re-arm the write cursor `w` is 0" (R81). -/
def Line.stimuli (c : Config) : Line → List Stimulus
  | .reset => [.request .r 1]
  | .drain rem => [.event (.driveRem rem), .request .p 0b10, .event .dmaRearmed]
  | .cycle outcmd pins rem =>
    [.event (.driveOutcmd outcmd), .event (.drivePins pins), .event (.driveRem rem), .request .p 0b11,
      .event .dmaRearmed]
  | .edge pins cnt => edgeStimuli pins cnt
  | .nop => [.request .p 0, .request .e 0]
  | .pReq pOp => [.event (.instant false true pOp false)]
  | .paStep outcmd pins rem =>
    (outcmd.map fun v => Stimulus.event (.driveOutcmd v)).toList ++
      (pins.map fun v => Stimulus.event (.drivePins v)).toList ++
      (rem.map fun v => Stimulus.event (.driveRem v)).toList ++ [.event (.pa []), .event .dmaRearmed]
  | .eReq => [.event (.instant false false false true)]
  | .eaStep pins cnt => [.event (.drivePins pins), .event (.driveCnt cnt), .event .ea]
  | .dma samples => samples.map fun x => .event (.dmaWrite x)
  | .obs r => [.event (.observe r)]
  | .pulse levels ch t0 d =>
    edgeStimuli (levels ||| (1#8 <<< c.pwmBit.get ch)) t0 ++ edgeStimuli levels ((t0 + d) % c.cntMod)
  | .fill q k =>
    (List.replicate k [q.c0, q.c1, q.c2, q.c3]).flatten.map fun x => .event (.dmaWrite x)

/-- The script of a whole trace, its lines top to bottom (R80). -/
def traceScript (c : Config) (ls : List Line) : List Stimulus := (ls.map (Line.stimuli c)).flatten

end Sys2Proof.Machine
end

