-- ==== Sys2Proof/Safety.lean ====
section
/-! DEFINITION. What counts as a safe run, the collaborators' duties as named premises (R57 to R60, R173, R195), and the
words the statements are written in. Each word is defined from the spec's own formulas, not from the meanings' helpers. -/

namespace Sys2Proof.Machine

/-! ### Safe states -/

/-- A safe state: no assertion has failed; "every claim about outputs takes `halted == 0` as a premise" (R165). -/
def State.Safe (s : State) : Prop := s.flt.halted = false

/-- Nothing is owed: `ph == IDLE`, `e_pend == 0` and `irq_mask == 0` (R194). -/
def State.Quiescent (s : State) : Prop :=
  s.seq.ph = .idle ∧ s.seq.ePend = false ∧ s.seq.irqMask = false

/-- An agent of the block has a step (R71, R121, R165, R194). -/
def State.Owes (s : State) : Prop :=
  (s.seq.ph ≠ .idle ∨ s.seq.ePend = true ∧ s.seq.irqMask = false) ∧ s.flt.halted = false ∧ s.env.rst = false

/-- The phase is one of the sub-steps that only a `CYCLE` has (R36). -/
def Phase.cycleOnly : Phase → Bool
  | .idle => false
  | .cyOut => true
  | .cyIn => true
  | .cyPwm _ => true
  | .drRun => false
  | .pub => false

/-- Every register of 10_state.md section 1 at its reset value (R47). -/
abbrev State.RegistersReset (s : State) : Prop :=
  s.adu = Adu.reset ∧ s.pdu = Pdu.reset ∧ s.seq = Seq.reset ∧ s.flt = FaultRegs.reset

/-- The invariants of R46 and the widths of the registers and ports whose width is a parameter (R21, R28, R42). -/
abbrev State.InRange (s : State) : Prop :=
  s.adu.cursor < s.cfg.cap
    ∧ s.pdu.lastLevels &&& ~~~ monMask s.cfg = 0
    ∧ (∀ ch, (s.adu.avg.get ch).toNat ≤ 32752)
    ∧ (∀ ch, (s.adu.adcOut.get ch).toNat ≤ 32752)
    ∧ (∀ i, s.pdu.riseTs.get i < s.cfg.cntMod)
    ∧ (∀ v ∈ s.env.cnt, v < s.cfg.cntMod)
    ∧ (∀ v ∈ s.env.rem, v < 2 * s.cfg.cap)
    ∧ s.env.wCur < s.cfg.cap
    ∧ Memory.wf s.cfg.cap s.env.buf

/-- How the control registers go together: `irq_mask` is 0 between steps (R37, R46), `in_cycle` says whose sub-steps are
running (R36), a fault is recorded exactly when the block is halted, and only in `DR_RUN` (R164, R165), and `rst == 1` holds
every register at its reset value (R190). -/
abbrev State.ControlConsistent (s : State) : Prop :=
  s.seq.irqMask = false
    ∧ (s.seq.ph = .idle → s.seq.inCycle = false)
    ∧ (s.seq.ph.cycleOnly = true → s.seq.inCycle = true)
    ∧ (s.flt.halted = true → s.seq.ph = .drRun ∧ s.flt.code = .countRange)
    ∧ (s.flt.halted = false → s.flt.code = .none ∧ s.flt.info = 0)
    ∧ (s.env.rst = true → s.RegistersReset)

/-- The invariant of the machine. -/
abbrev State.Inv (s : State) : Prop := s.cfg.wf = true ∧ s.InRange ∧ s.ControlConsistent

/-- Format `P` is being sampled: `ph == IDLE`, `halted == 0`, `rst == 0` (R73). -/
abbrev Accepting (s : State) : Prop := s.seq.ph = .idle ∧ s.flt.halted = false ∧ s.env.rst = false

/-! ### The control trace -/

/-- The control events of one re-arm, in order (R96). -/
def rearmEvents (c : Config) : List CtlEvent :=
  [.adcDisable, .dmaRearm c.bufBase c.cap, .errClear, .adcEnable]

/-- The trace holds `k` whole re-arms and nothing else, and `rearm_count` is `k mod 2^32` (R25, R41). -/
def State.TraceOfRearms (s : State) (k : Nat) : Prop :=
  s.adu.ctl = (List.replicate k (rearmEvents s.cfg)).flatten ∧ s.adu.rearmCount = BitVec.ofNat 32 k

/-! ### The ports as the next step samples them

What the script drives, else a draw (R40): a level within the port's width, for `rem` within the contract of R57. -/

/-- The level of `rem`: after a re-arm, where nothing else is driven there, `CAP` until the first new sample arrives (R59). -/
def remSeen (s : State) : Nat :=
  match s.env.rem with
  | some r => r
  | none => if s.env.restarted = true then s.cfg.cap else Config.freeRem s.env.instant % (s.cfg.cap + 1)

/-- The level of `pins`. -/
def pinsSeen (s : State) : Byte :=
  match s.env.pins with
  | some p => p
  | none => Config.freePins s.env.instant

/-- The level of `cnt`. -/
def cntSeen (s : State) : Nat :=
  match s.env.cnt with
  | some t => t
  | none => Config.freeCnt s.env.instant % 2 ^ s.cfg.wCnt

/-- The level of `outcmd`. -/
def outcmdSeen (s : State) : Byte :=
  match s.env.outcmd with
  | some v => v
  | none => Config.freeOutcmd s.env.instant

/-- Nothing is driven on an operand port. -/
def State.Undriven (s : State) : Prop :=
  s.env.rem = none ∧ s.env.pins = none ∧ s.env.cnt = none ∧ s.env.outcmd = none

/-! ### A `DRAIN` in the spec's own formulas -/

/-- `filled`, the hardware write cursor as one `DRAIN` sees it (R92). -/
def filledOf (s : State) : Nat := s.cfg.cap - remSeen s

/-- The number of unread samples (R93). -/
def unread (s : State) : Nat :=
  if s.adu.cursor ≤ filledOf s then filledOf s - s.adu.cursor
  else (s.cfg.cap - s.adu.cursor) + filledOf s

/-- The `DRAIN` about to run consumes samples: `0 < available` and `8*available <= 7*CAP` (R94). -/
abbrev Healthy (s : State) : Prop := 0 < unread s ∧ 8 * unread s ≤ 7 * s.cfg.cap

/-- Outside this no `DR_RUN` has a meaning: `rem <= CAP` (R57) and a cursor that names a location (R21). -/
abbrev DrainReady (s : State) : Prop := remSeen s ≤ s.cfg.cap ∧ s.adu.cursor < s.cfg.cap

/-- The buffer index of the `k`-th sample a `DRAIN` reads (R55, R98). -/
def sampleIndex (s : State) (k : Nat) : Nat := (s.adu.cursor + k) % s.cfg.cap

/-- The `k`-th sample a `DRAIN` reads: what the collaborator has put there, else a draw (R52, R55). -/
def sampleRead (s : State) (k : Nat) : Sample :=
  (Memory.lookup (sampleIndex s k) s.env.buf).getD (Config.freeSample (s.draws + k))

/-- A sample saturated to `[0, 2047]` (R99). -/
def saturated (x : Sample) : Nat := (max 0 (min 2047 x.toInt)).toNat

/-- The sum of the clamped samples of channel `ch` among the first `n` samples read (R98). -/
def totalOver (s : State) (n : Nat) (ch : Ch) : Nat :=
  ∑ k ∈ Finset.range n, if sampleIndex s k % 4 = ch.val then saturated (sampleRead s k) else 0

/-- The number of samples of channel `ch` among the first `n` samples read (R98). -/
def countOver (s : State) (n : Nat) (ch : Ch) : Nat :=
  ∑ k ∈ Finset.range n, if sampleIndex s k % 4 = ch.val then 1 else 0

/-- The sum of the clamped samples of channel `ch` over the unread samples (R98). -/
def channelTotal (s : State) (ch : Ch) : Nat := totalOver s (unread s) ch

/-- The number of unread samples of channel `ch` (R98). -/
def channelCount (s : State) (ch : Ch) : Nat := countOver s (unread s) ch

/-- The average of channel `ch` with four fractional bits, floor; 0 without samples (R100). -/
def channelAverage (s : State) (ch : Ch) : Nat :=
  if channelCount s ch = 0 then 0 else (channelTotal s ch * 16) / channelCount s ch

/-- The four averages as the registers hold them. -/
def channelAverages (s : State) : Quad Sample := Quad.ofFn fun ch => BitVec.ofNat 16 (channelAverage s ch)

/-- No assertion fails in the `DRAIN` about to run: checks off, or every count within `CNT_MAX` (R101, R166). -/
abbrev CountsAllowed (s : State) : Prop :=
  s.cfg.debugAssert = true → ∀ ch, channelCount s ch ≤ s.cfg.cntMax

/-- The ADU after a `DRAIN` that consumed its samples (R98, R100, R103). -/
def drainedAdu (s : State) : Adu :=
  { s.adu with
    cursor := filledOf s % s.cfg.cap
    avg := channelAverages s
    adcOut := channelAverages s
    drainStatus := .ok }

/-- The ADU after a `DRAIN` that re-armed: outputs 0, cursor 0, one more re-arm (R94 to R96, R103). -/
def rearmedAdu (s : State) : Adu where
  cursor := 0
  avg := Quad.fill 0
  adcOut := Quad.fill 0
  rearmCount := s.adu.rearmCount + 1
  drainStatus := if unread s = 0 then .stall else .overrun
  ctl := s.adu.ctl ++ rearmEvents s.cfg

/-- The ports after a `DRAIN` that consumed its samples: `buf_idx` shows the last index read, the count of
what is delivered between two `DRAIN`s starts again (R197), nothing else moved. -/
def drainedEnv (s : State) : Env := { s.env with bufIdx := some (sampleIndex s (unread s - 1)), delivered := 0 }

/-- The state in which a failed count assertion of channel `ch` leaves the block (R101, R164): what came before the `raise`
has taken effect, nothing after it has. `q` is what the sub-steps before `DR_RUN` made of the sequencer registers. -/
def countFaulted (s : State) (q : Seq) (ch : Ch) : State :=
  { s with
    adu := { s.adu with cursor := filledOf s % s.cfg.cap, drainStatus := .ok }
    seq := q
    flt := { halted := true, code := .countRange, info := BitVec.ofNat 2 ch.val }
    env := drainedEnv s
    draws := s.draws + unread s }

/-- The first channel whose count exceeds `CNT_MAX` (R101, R170 c). -/
abbrev FirstOverCount (s : State) (ch : Ch) : Prop :=
  s.cfg.cntMax < channelCount s ch ∧ ∀ i < ch, channelCount s i ≤ s.cfg.cntMax

/-- The ports after a re-arm: no location of the buffer has a value of its own any more (R55), and the collaborator has the
re-arm to carry out (R59). -/
def rearmedEnv (s : State) : Env := { s.env with buf := [], rearmDue := true, delivered := 0 }

/-- The sequencer registers after a stand-alone `DRAIN` (R103). -/
def drainedSeq (s : State) : Seq := { s.seq with ph := .idle, inCycle := false }

/-- The sequencer registers after a whole `CYCLE`: output command applied, inputs and PWM values latched and published
(R142 to R146). -/
def cycledSeq (s : State) : Seq :=
  { s.seq with
    dout := outcmdSeen s
    latDin := pinsSeen s
    latPwm := s.pdu.pwmValue
    dinState := pinsSeen s
    pwmOut := s.pdu.pwmValue
    ph := .idle
    inCycle := false }

/-- The sequencer registers of a `CYCLE` that has come to its `DR_RUN`: output command applied, inputs and PWM values latched,
nothing published (R140 to R145). -/
def latchedSeq (s : State) : Seq :=
  { s.seq with
    dout := outcmdSeen s
    latDin := pinsSeen s
    latPwm := s.pdu.pwmValue
    ph := .drRun
    inCycle := true }

/-! ### The same state with other levels at the ports -/

/-- `rem` at another level. -/
def State.withRem (s : State) (r : Nat) : State := { s with env := { s.env with rem := some r } }

/-- Other contents in the sample buffer. -/
def State.withBuf (s : State) (m : Memory) : State := { s with env := { s.env with buf := m } }

/-- Other levels at `pins` and `cnt`. -/
def State.withPins (s : State) (p : Byte) (now : Nat) : State := { s with env := { s.env with pins := some p, cnt := some now } }

/-- The levels a `CYCLE` line gives the ports. -/
def State.withCyclePorts (s : State) (outcmd pins : Byte) (r : Nat) : State :=
  { s with env := { s.env with outcmd := some outcmd, pins := some pins, rem := some r } }

/-- Another setting of `DEBUG_ASSERT`. -/
def State.withDebugAssert (s : State) (b : Bool) : State := { s with cfg := { s.cfg with debugAssert := b } }

/-- The buffer with every sample replaced by its clamped value (R107 c). -/
def clampedBuf (m : Memory) : Memory := m.map fun p => (p.1, BitVec.ofNat 16 (saturated p.2))

/-! ### An `EDGE` in the spec's own formulas -/

/-- Channel `i`'s pin differs from the level last seen (R122, R123). -/
abbrev edged (s : State) (i : Ch) : Prop :=
  (pinsSeen s).getLsbD (s.cfg.pwmBit.get i) ≠ s.pdu.lastLevels.getLsbD (s.cfg.pwmBit.get i)

/-- Channel `i`'s pin has fallen: the level last seen was high (R123). -/
abbrev fell (s : State) (i : Ch) : Prop :=
  s.pdu.lastLevels.getLsbD (s.cfg.pwmBit.get i) = true ∧ (pinsSeen s).getLsbD (s.cfg.pwmBit.get i) = false

/-- `(now - rise_ts[i]) mod 2^W_CNT` on mathematical integers (R17, R123). -/
def interval (s : State) (i : Ch) : Nat :=
  ((((cntSeen s : Nat) : Int) - (s.pdu.riseTs.get i : Int)) % ((2 ^ s.cfg.wCnt : Nat) : Int)).toNat

/-- The three-region map as a number (R124). -/
def dutyNumber (c : Config) (delta : Nat) : Nat :=
  if delta ≤ c.tLow then 0 else if c.tHigh ≤ delta then 65535 else (delta - c.tLow) % 65536

/-- The PDU after an `EDGE` (R123 to R127). -/
def edgedPdu (s : State) : Pdu where
  lastLevels := pinsSeen s &&& monMask s.cfg
  riseTs := Quad.ofFn fun i => if edged s i then cntSeen s else s.pdu.riseTs.get i
  pwmValue := Quad.ofFn fun i =>
    if fell s i then BitVec.ofNat 16 (dutyNumber s.cfg (interval s i)) else s.pdu.pwmValue.get i

/-- The edge agent is not held off: neither `rst`, nor `halted`, nor `irq_mask` (R121). -/
abbrev EdgeOpen (s : State) : Prop :=
  s.env.rst = false ∧ s.flt.halted = false ∧ s.seq.irqMask = false

/-- An `EDGE` is asked for: the next thing in the script is a request word that reads `E = 1`, or one is pending (R74, R121). -/
def EdgeWanted (s : State) : Prop := (∃ rest, s.script = .request .e 1 :: rest) ∨ s.seq.ePend = true

/-- The sequencer registers after an `EDGE` that ran: the pending latch is clear (R121). -/
def servedSeq (s : State) : Seq := { s.seq with ePend := false }

/-! ### The collaborators' duties: premises of claims, never behaviour of the block -/

/-- `E-REM` (R57): `rem` is in range and names the collaborator's write cursor. -/
def ERem (s : State) : Prop := remSeen s ≤ s.cfg.cap ∧ (s.cfg.cap - remSeen s) % s.cfg.cap = s.env.wCur

/-- `E-VIS` (R58): every sample `rem` reports unread is in the buffer, and no whole lap has overtaken it (U5). -/
def EVis (s : State) : Prop := ∀ k < unread s, Memory.lookup (sampleIndex s k) s.env.buf ≠ none

/-- `E-REARM` (R59): what the collaborator shows once it has carried out a re-arm: its write cursor is 0, `rem` reads `CAP`, and
the first sample written will be channel 0's. -/
def ERearm (s : State) : Prop :=
  s.env.wCur = 0 ∧ remSeen s = s.cfg.cap ∧ s.env.nextCh = 0 ∧ s.env.rearmDue = false

/-- `E-REARM` as it lasts (R59): the collaborator stands where a re-arm has put it and has written no sample since. -/
def State.AtRestart (s : State) : Prop := s.env.restarted = true ∧ s.env.wCur = 0 ∧ s.env.nextCh = 0

/-- `E-REARM`, the gate (R59, R66 b): a re-arm that is due is carried out before the next sample is written. -/
def EGate (s : State) (e : Event) : Prop := s.env.rearmDue = true → ∀ x, e ≠ .dmaWrite x

/-- Location and channel agree at the write cursor (R53): what every claim about a channel takes from `E-REARM` (U6). -/
def ChannelAligned (s : State) : Prop := s.env.nextCh.val = s.env.wCur % 4

/-- `E-PACE` (R60) for `m` samples that arrive while a `DR_RUN` runs. -/
def EPace (s : State) (m : Nat) : Prop := m < s.cfg.cap - unread s

/-- `E-CNT` (R173): between two samples of `cnt` the counter has advanced by the elapsed ticks. -/
def ECnt (c : Config) (before after ticks : Nat) : Prop := after = (before + ticks) % c.cntMod

/-- Drain pacing (R195): between two `DRAIN`s at least 1 and at most `floor(7*CAP/8)` samples arrive. -/
def DrainPacing (c : Config) (m : Nat) : Prop := 1 ≤ m ∧ m ≤ 7 * c.cap / 8

/-- A buffer that a whole lap has overtaken since the last `DRAIN` has no contents of its own (R197, U5). -/
def State.LapForgotten (s : State) : Prop := s.cfg.cap ≤ s.env.delivered → s.env.buf = []

/-- The sum of the clamped samples of channel `ch` in a delivery `xs` whose first sample is channel `first`'s, the others
following round-robin (R51). -/
def deliveredTotal (xs : List Sample) (first ch : Ch) : Nat :=
  ∑ k ∈ Finset.range xs.length, if (first.val + k) % 4 = ch.val then saturated (xs.getD k 0) else 0

/-- The number of samples of channel `ch` in such a delivery. -/
def deliveredCount (xs : List Sample) (first ch : Ch) : Nat :=
  ∑ k ∈ Finset.range xs.length, if (first.val + k) % 4 = ch.val then 1 else 0

/-- The buffer as a delivery `xs` into an empty one from location 0 on leaves it, channel 0 first (R51, R59, R81): those samples
and no others have values, unless a whole lap of them has arrived (U5), and write cursor and next channel have gone on by their
number. -/
def State.FilledFromZero (s : State) (xs : List Sample) : Prop :=
  (∀ j, Memory.lookup j s.env.buf = if xs.length < s.cfg.cap then xs[j]? else none) ∧
    s.env.wCur = xs.length % s.cfg.cap ∧ s.env.nextCh.val = xs.length % 4

/-! ### What an observer reads -/

/-- The number of a phase (R36). -/
def phaseNumber : Phase → Nat
  | .idle => 0
  | .cyOut => 1
  | .cyIn => 2
  | .cyPwm i => 3 + i.val
  | .drRun => 7
  | .pub => 8

/-- What stands on the output port, or in the status register, that `r` names (R43, R81), with the numbers of R26, R36 and
R39. -/
def portReads (s : State) : Watch → Nat
  | .dout => s.seq.dout.toNat
  | .dinState => s.seq.dinState.toNat
  | .pwmOut i => (s.seq.pwmOut.get i).toNat
  | .adcOut ch => (s.adu.adcOut.get ch).toNat
  | .irqMask => if s.seq.irqMask then 1 else 0
  | .pBusy => if s.seq.ph = .idle then 0 else 1
  | .halted => if s.flt.halted then 1 else 0
  | .faultCode =>
    match s.flt.code with
    | .none => 0
    | .avgRange => 1
    | .countRange => 2
  | .faultInfo => s.flt.info.toNat
  | .rearmCount => s.adu.rearmCount.toNat
  | .drainStatus =>
    match s.adu.drainStatus with
    | .ok => 0
    | .stall => 1
    | .overrun => 2
  | .ph => phaseNumber s.seq.ph

/-- What register `r` reads after `k` of the setter calls of a `PUB`, in the order of §6 (R103, R146). No other register changes
inside it. -/
def readInsidePub (s : State) (k : Nat) : Watch → Nat
  | .dinState => (if s.seq.inCycle = true ∧ 1 ≤ k then s.seq.latDin else s.seq.dinState).toNat
  | .pwmOut i => ((if s.seq.inCycle = true ∧ 2 ≤ k then s.seq.latPwm else s.seq.pwmOut).get i).toNat
  | .adcOut ch =>
    ((if (if s.seq.inCycle then 2 else 0) + (if ch = 0 then 1 else if ch = 3 then 3 else 2) ≤ k then s.adu.avg
      else s.adu.adcOut).get ch).toNat
  | r => portReads s r

/-- What observers read in a `PUB` of which `k` setter calls have been made: one list of reads before each further call, one
after the other (R64). -/
def readsInsidePub (s : State) : Nat → List (List Watch) → List (Watch × Nat)
  | _, [] => []
  | k, rs :: watch => rs.map (fun r => (r, readInsidePub s k r)) ++ readsInsidePub s (k + 1) watch

/-! ### What the script does next -/

/-- The next thing in the script asserts `rst`: a request of format `R`, or an instant with `rst == 1` (R71). -/
def State.ResetNext (s : State) : Prop :=
  (∃ w rest, s.script = .request .r w :: rest ∧ w = 1) ∨
    ∃ p o e rest, s.script = .event (.instant true p o e) :: rest

/-- The state a line of the script is executed in: the script without that line. -/
def State.past (s : State) (rest : List Stimulus) : State := { s with script := rest }

/-- `k` steps of the machine, ending at the first fault or refusal. -/
def State.runFor (s : State) (k : Nat) : Result := Sys2Proof.core.run k s

end Sys2Proof.Machine
end

