-- ==== Sys2Proof/Certificates/Slice0/Obligations.lean ====
section
/-! DEFINITION. The statements. Each says what the spec's rules say an operation or the machine does; a next state written
out in full is result and frame in one: every register, port and buffer location it does not name is as it was. -/

open Sys2Proof Sys2Proof.Machine

/-! ### Requests, decoding, the step -/

/-- The patterns of the operation map (R71, R72, R74, R76), each as its bits, decode to the operations they stand for. That
`PIDLE` keeps the level of `p_op` (notes/assumptions/28.md) and that format `R` reading 0 is a word that selects nothing
(notes/assumptions/25.md) are the model's own choice. -/
def Obligations.RequestPatternsDecodeToTheirOperations : Prop :=
  decode .r 0b1#8 = .ok .reset ∧ decode .p 0b10#8 = .ok .drain ∧ decode .p 0b11#8 = .ok .cycle ∧
    decode .p 0b00#8 = .ok (.pidle false) ∧ decode .p 0b01#8 = .ok (.pidle true) ∧
    decode .e 0b1#8 = .ok .edge ∧ decode .e 0b0#8 = .ok .eidle ∧ decode .r 0b0#8 = .error .selectsNone

/-- Decoding and encoding agree in both directions: a word decodes to an operation exactly when it is that operation's word
under that operation's format (R76: the rows of a format are exhaustive and mutually exclusive; R78). That `PIDLE` keeps the
level of `p_op` is the model's own choice (notes/assumptions/28.md). -/
def Obligations.DecodeAnswersExactlyTheEncodedWord : Prop :=
  ∀ (f : Format) (w : Byte) (i : Instr), decode f w = .ok i ↔ f = i.format ∧ w = encode i

/-- A step runs the decoded operation: when the next thing in the script is a request word that decodes to `i`, the step is
`exec i` of the state past that word, after which the operand ports are released. An event is carried out past itself, and if
it is a step of an agent the ports are released after it (R40), a word with bits above its format is refused, and format `R`
reading 0 leaves everything but the level of `rst`. Five things here are the model's own choice: the release as the form of "An
input port has no memory" (notes/assumptions/32.md), the script as the form of a stimulus trace (notes/assumptions/2.md), the
refusal of a word with bits above its format (notes/assumptions/30.md), format `R` reading 0 as a word that selects nothing
(notes/assumptions/25.md), and that it lowers `rst` and nothing more (notes/assumptions/24.md), so that samples written while
`rst` was held keep their values (notes/assumptions/35.md). -/
def Obligations.StepRunsTheDecodedRequest : Prop :=
  (∀ (s : State) (f : Format) (w : Byte) (rest : List Stimulus) (i : Instr),
      s.cfg.wf = true → s.script = .request f w :: rest → decode f w = .ok i →
        step s = andThen (exec i (s.past rest)) fun t => .next t.release) ∧
    (∀ (s : State) (e : Event) (rest : List Stimulus),
      s.cfg.wf = true → s.script = .event e :: rest →
        ((∃ watch, e = .pa watch) ∨ e = .ea →
            step s = andThen (envStep e (s.past rest)) fun t => .next t.release) ∧
          (¬ ((∃ watch, e = .pa watch) ∨ e = .ea) → step s = envStep e (s.past rest))) ∧
    (∀ (s : State) (f : Format) (w : Byte) (rest : List Stimulus),
      s.cfg.wf = true → s.script = .request f w :: rest → 2 ^ f.width ≤ w.toNat →
        step s = .refused .noSuchPattern) ∧
    (∀ (s : State) (rest : List Stimulus),
      s.cfg.wf = true → s.script = .request .r 0 :: rest →
        step s = .next { s with script := rest, env := { s.env with rst := false } })

/-- A configuration outside the constraints of 00_scope.md section 3 is refused (U11, U12, U13), whatever the rest of the
state. That every step refuses it, whether or not it would read the parameter, is the model's own reading
(notes/assumptions/10.md). -/
def Obligations.ConfigurationOutsideTheConstraintsIsRefused : Prop :=
  ∀ s : State,
    (s.cfg.log2Cap < 2 ∨ s.cfg.wCnt < 1 ∨ s.cfg.tHigh ≤ s.cfg.tLow ∨ 2 ^ s.cfg.wCnt ≤ s.cfg.tHigh ∨
        (∃ i, 8 ≤ s.cfg.pwmBit.get i) ∨ ∃ i j, i ≠ j ∧ s.cfg.pwmBit.get i = s.cfg.pwmBit.get j) →
      step s = .refused .configOutOfScope

/-- A `P` request at an instant with `rst` low is accepted, the plain line `P.req` of R80, and an `E` request beside it is taken
too; neither is executed, and no operand port is sampled (R74, R79, R141): the accepted operation's first phase is in `ph`,
`e_pend` is set if `e_req` is high and kept if it is low (R128), nothing else moves. That the buffer keeps what was written
while `rst` was held, where this instant lowers it, is the model's own choice (notes/assumptions/35.md). -/
def Obligations.SimultaneousRequestsAreBothTaken : Prop :=
  ∀ (s : State) (pOp eReq : Bool), s.seq.ph = .idle → s.flt.halted = false →
    envStep (.instant false true pOp eReq) s = .next
      { s with
        seq :=
          { s.seq with
            ph := if pOp then .cyOut else .drRun
            inCycle := pOp
            ePend := if eReq then true else s.seq.ePend }
        env := { s.env with rst := false } }

/-- `e_req` sets `e_pend` at once, whatever the state of the block (idle, busy, masked, halted) and whatever format `P` reads
(R74). Where no `P` request is sampled, because `p_req` is low or the block is busy or halted (R73), that is all that happens;
`SimultaneousRequestsAreBothTaken` says what happens where one is. That the buffer keeps what was written while `rst` was held,
where this instant lowers it, is the model's own choice (notes/assumptions/35.md). -/
def Obligations.EdgeRequestIsLatchedInEveryState : Prop :=
  ∀ (s : State) (pReq pOp : Bool),
    (∃ t, envStep (.instant false pReq pOp true) s = .next t ∧ t.seq.ePend = true) ∧
      ((pReq = false ∨ s.seq.ph ≠ .idle ∨ s.flt.halted = true) →
        envStep (.instant false pReq pOp true) s = .next
          { s with seq := { s.seq with ePend := true }, env := { s.env with rst := false } })

/-- `rst == 1` at an instant overrides every other format: the registers take their reset values and nothing is latched or
accepted (R71, R79, R170 a). Neither agent has a step then (R71); that a step offered to one all the same is passed over, and
does not stop the machine, is the model's own choice (notes/assumptions/13.md). -/
def Obligations.ResetLevelOverridesEveryOtherRequest : Prop :=
  ∀ (s : State) (pReq pOp eReq : Bool),
    ∃ t, envStep (.instant true pReq pOp eReq) s = .next t ∧ t.RegistersReset ∧ t.env.rst = true ∧
      (∀ watch, envStep (.pa watch) t = .next t) ∧ envStep .ea t = .next t ∧ exec .drain t = .next t ∧
      exec .cycle t = .next t ∧ exec .edge t = .next t

/-! ### RESET, PIDLE, EIDLE -/

/-- `RESET` completes in every state and gives every register its reset value, empties `ctl`, and leaves the configuration, the
ports other than `rst`, and the collaborator's write cursor alone. Four clauses are the model's own choice: that no location of
the buffer has a value of its own afterwards, for R47's and R55's "unspecified" (notes/assumptions/7.md), that the output port
`buf_idx` keeps its level (notes/assumptions/16.md), the count of what is delivered (notes/assumptions/33.md), and that `rst`
is low again when the operation is over (notes/assumptions/24.md). -/
def Obligations.ResetGivesEveryRegisterItsResetValue : Prop :=
  ∀ s : State, exec .reset s = .next
    { cfg := s.cfg
      adu :=
        { cursor := 0, avg := ⟨0, 0, 0, 0⟩, adcOut := ⟨0, 0, 0, 0⟩, rearmCount := 0, drainStatus := .ok, ctl := [] }
      pdu := { lastLevels := 0, riseTs := ⟨0, 0, 0, 0⟩, pwmValue := ⟨0, 0, 0, 0⟩ }
      seq :=
        { dout := 0, latDin := 0, latPwm := ⟨0, 0, 0, 0⟩, dinState := 0, pwmOut := ⟨0, 0, 0, 0⟩, ph := .idle,
          inCycle := false, irqMask := false, ePend := false }
      flt := { halted := false, code := .none, info := 0 }
      env := { s.env with rst := false, buf := [], delivered := 0 }
      script := s.script
      seen := s.seen
      draws := s.draws }

/-- `PIDLE` completes in every state and changes nothing, whatever the level of `p_op` (R149). -/
def Obligations.PidleChangesNothing : Prop :=
  decode .p 0b00#8 = .ok (.pidle false) ∧ decode .p 0b01#8 = .ok (.pidle true) ∧
    ∀ (pOp : Bool) (s : State), exec (.pidle pOp) s = .next s

/-- `EIDLE` completes in every state and changes nothing (R128). -/
def Obligations.EidleChangesNothing : Prop :=
  decode .e 0b0#8 = .ok .eidle ∧ ∀ s : State, exec .eidle s = .next s

/-! ### DRAIN -/

/-- A healthy `DRAIN` completes: the floor of sixteen times the mean of the clamped samples of each channel, in `avg` and
published in `adc_out`; the cursor at `filled mod CAP`; status OK; nothing re-armed. The model's own choice are the counter of
free values (notes/assumptions/6.md), the count of what is delivered, which starts again (notes/assumptions/33.md), and that
`buf_idx` shows the last index read after the `DRAIN` has ended (notes/assumptions/16.md). -/
def Obligations.HealthyDrainPublishesTheChannelAverages : Prop :=
  ∀ s : State, Accepting s → DrainReady s → Healthy s → CountsAllowed s →
    exec .drain s = .next
      { s with
        adu := drainedAdu s
        seq := drainedSeq s
        env := drainedEnv s
        draws := s.draws + unread s }

/-- A `DRAIN` that finds the buffer stalled or overrun completes: cursor 0, four zeros published, one re-arm with its four
control events in order, `irq_mask` released. The model's own choice are that the buffer has no contents of its own afterwards,
for R55's "unspecified" (notes/assumptions/7.md), the count of what is delivered, which starts again (notes/assumptions/33.md),
and the note that the collaborator has a re-arm to carry out (notes/assumptions/34.md). -/
def Obligations.DesynchronizedDrainRearmsAndPublishesZeros : Prop :=
  ∀ s : State, Accepting s → DrainReady s → ¬ Healthy s →
    exec .drain s = .next
      { s with
        adu := rearmedAdu s
        seq := { drainedSeq s with irqMask := false }
        env := rearmedEnv s }

/-- A `DRAIN` in which a channel received more than `CNT_MAX` samples halts the block with the first such channel recorded: the
writes before the `raise` stand, no average is written and nothing is published. The counter of free values
(notes/assumptions/6.md), the count of what is delivered, which starts again (notes/assumptions/33.md), and the level `buf_idx`
keeps (notes/assumptions/16.md) are the model's own choice. -/
def Obligations.OverfullDrainHaltsPrecisely : Prop :=
  ∀ (s : State) (ch : Ch), Accepting s → DrainReady s → Healthy s → s.cfg.debugAssert = true → FirstOverCount s ch →
    exec .drain s = .next (countFaulted s { s.seq with ph := .drRun, inCycle := false } ch)

/-- A `DRAIN` or `CYCLE` that samples `rem > CAP` is refused (R57, U1); with `rem` in range, a cursor that names no location
stops it, which is the model's own stop (notes/assumptions/11.md): the n-bit register cannot hold such a cursor. That a `CYCLE`
run as one operation is refused as a whole is the model's own reading (notes/assumptions/9.md). -/
def Obligations.DrainOutsideTheContractStops : Prop :=
  ∀ s : State, Accepting s →
    (s.cfg.cap < remSeen s →
        exec .drain s = .refused .remOutOfContract ∧ exec .cycle s = .refused .remOutOfContract) ∧
      (remSeen s ≤ s.cfg.cap → s.cfg.cap ≤ s.adu.cursor →
        exec .drain s = .fault .noSuchLocation ∧ exec .cycle s = .fault .noSuchLocation)

/-- A `P` request while the block is not sampling format `P` is dropped: it starts nothing and changes no state (R73). -/
def Obligations.UnsampledRequestsAreDropped : Prop :=
  ∀ (s : State) (pOp : Bool), (s.seq.ph ≠ .idle ∨ s.flt.halted = true ∨ s.env.rst = true) →
    exec .drain s = .next s ∧ exec .cycle s = .next s ∧
      (s.env.rst = false → envStep (.instant false true pOp false) s = .next s)

/-- Every `DR_RUN` writes `drain_status` by the health check, the second test strict and exact, and treats the buffer as
desynchronized (it re-arms) exactly when that status is not OK (R94). The sub-step taken on its own (R91, R104, R145), of a
stand-alone `DRAIN` and inside a `CYCLE` alike: a healthy one leaves the cursor at `filled mod CAP` (R46), the averages in
`avg` and `ph` at `PUB` (R101); a failed count assertion halts the block before any of the averages is written (R101, R164); a
desynchronized one leaves cursor 0, zeros in `avg`, one re-arm and `ph` at `PUB`. Nothing is published yet and `in_cycle`
stays. It stops where `rem > CAP` is sampled (R57, U1). The model's own choice are the stop at a cursor that names no location
(notes/assumptions/11.md), the counter of free values (notes/assumptions/6.md), the level `buf_idx` keeps
(notes/assumptions/16.md), the count of what is delivered, which starts again (notes/assumptions/33.md), that the buffer has no
contents of its own after a re-arm (notes/assumptions/7.md), the note that the collaborator has one to carry out
(notes/assumptions/34.md), and that reads listed with the step are passed over (notes/assumptions/18.md). -/
def Obligations.HealthCheckSetsDrainStatus : Prop :=
  (∀ s t : State, drRun s = .next t →
    (t.adu.drainStatus =
        if unread s = 0 then .stall else if 8 * unread s > 7 * s.cfg.cap then .overrun else .ok) ∧
      t.adu.ctl = if t.adu.drainStatus = .ok then s.adu.ctl else s.adu.ctl ++ rearmEvents s.cfg) ∧
    ∀ (s : State) (watch : List (List Watch)), s.seq.ph = .drRun → s.flt.halted = false → s.env.rst = false →
      (DrainReady s → Healthy s → CountsAllowed s →
          envStep (.pa watch) s = .next
            { s with
              adu := { drainedAdu s with adcOut := s.adu.adcOut }
              seq := { s.seq with ph := .pub }
              env := drainedEnv s
              draws := s.draws + unread s }) ∧
        (∀ ch, DrainReady s → Healthy s → s.cfg.debugAssert = true → FirstOverCount s ch →
          envStep (.pa watch) s = .next (countFaulted s s.seq ch)) ∧
        (DrainReady s → ¬ Healthy s →
          envStep (.pa watch) s = .next
            { s with
              adu := { rearmedAdu s with adcOut := s.adu.adcOut }
              seq := { s.seq with ph := .pub, irqMask := false }
              env := rearmedEnv s }) ∧
        (s.cfg.cap < remSeen s → envStep (.pa watch) s = .refused .remOutOfContract) ∧
        (remSeen s ≤ s.cfg.cap → s.cfg.cap ≤ s.adu.cursor → envStep (.pa watch) s = .fault .noSuchLocation)

/-- Bounds of one healthy `DRAIN` (R102): samples, counts, totals, averages, outputs; under R13's constraint no count exceeds
`CNT_MAX`. -/
def Obligations.HealthyDrainStaysInRange : Prop :=
  ∀ s : State, s.cfg.wf = true → DrainReady s → Healthy s →
    unread s ≤ 7 * s.cfg.cap / 8 ∧
      ∀ ch, channelCount s ch ≤ (unread s + 3) / 4 ∧ channelCount s ch ≤ (7 * s.cfg.cap / 8 + 3) / 4 ∧
        (s.cfg.conforming = true → channelCount s ch ≤ s.cfg.cntMax) ∧
        channelTotal s ch ≤ 2047 * channelCount s ch ∧ channelAverage s ch ≤ 32752 ∧
        (Accepting s → ∀ t, exec .drain s = .next t → t.flt.halted = false →
          t.adu.avg.get ch = t.adu.adcOut.get ch ∧ (t.adu.adcOut.get ch).toNat ≤ 32752)

/-- A channel without a sample in a `DRAIN` publishes exactly 0 (R107 a). -/
def Obligations.ChannelWithoutSamplesPublishesZero : Prop :=
  ∀ (s t : State) (ch : Ch), Accepting s → exec .drain s = .next t → t.flt.halted = false →
    (¬ Healthy s ∨ ∀ k < unread s, sampleIndex s k % 4 ≠ ch.val) → t.adu.adcOut.get ch = 0

/-- If every sample a `DRAIN` consumes of channel `ch` is `v`, with `0 <= v <= 2047`, and there is one, the channel publishes
`v << 4` exactly (R107 b). -/
def Obligations.ConstantInputPublishesSixteenTimesTheInput : Prop :=
  ∀ (s t : State) (ch : Ch) (v : Nat), Accepting s → exec .drain s = .next t → t.flt.halted = false → Healthy s →
    v ≤ 2047 → (∃ k < unread s, sampleIndex s k % 4 = ch.val) →
    (∀ k < unread s, sampleIndex s k % 4 = ch.val → (sampleRead s k).toInt = v) →
    (t.adu.adcOut.get ch).toNat = v * 16

/-- Replacing every sample in the buffer by its clamped value changes no output (R107 c). A location without a sample reads as
the same free value in both runs, which is the model's own form of a draw (notes/assumptions/6.md). -/
def Obligations.ClampingTheBufferChangesNoOutput : Prop :=
  ∀ s t : State, exec .drain s = .next t →
    ∃ u, exec .drain (s.withBuf (clampedBuf s.env.buf)) = .next u ∧ u.adu = t.adu ∧ u.flt = t.flt ∧ u.seq = t.seq

/-- Raising samples never lowers an output (R107 e). A location without a sample reads as the same free value in both runs,
which is the model's own form of a draw (notes/assumptions/6.md). -/
def Obligations.OutputsAreMonotoneInTheSamples : Prop :=
  ∀ (s t u : State) (m : Memory),
    (∀ k < unread s, (sampleRead s k).toInt ≤ (sampleRead (s.withBuf m) k).toInt) →
    exec .drain s = .next t → exec .drain (s.withBuf m) = .next u →
    ∀ ch, (t.adu.adcOut.get ch).toNat ≤ (u.adu.adcOut.get ch).toNat

/-- Two `DRAIN`s with no new sample between them: each stalls, re-arms exactly once and publishes the same four zeros (R106).
The second one sees `rem == CAP`, as E-REARM has it. -/
def Obligations.RepeatedStallPublishesZerosAndRearmsOncePerCall : Prop :=
  ∀ s : State, Accepting s → DrainReady s → unread s = 0 →
    ∃ t, exec .drain s = .next t ∧ t.adu.adcOut = Quad.fill 0 ∧ t.adu.cursor = 0 ∧
      t.adu.rearmCount = s.adu.rearmCount + 1 ∧
      ∃ u, exec .drain (t.withRem t.cfg.cap) = .next u ∧ u.adu.adcOut = Quad.fill 0 ∧ u.adu.cursor = 0 ∧
        u.adu.drainStatus = .stall ∧ u.adu.rearmCount = s.adu.rearmCount + 2 ∧
        u.adu.ctl = s.adu.ctl ++ rearmEvents s.cfg ++ rearmEvents s.cfg

/-- With a nonzero cursor `rem == CAP` and `rem == 0` name the same write cursor and give the same `DRAIN` (R105 c, d). -/
def Obligations.BothFormsOfWriteCursorZeroDrainAlike : Prop :=
  ∀ (s t : State), 0 < s.adu.cursor → s.adu.cursor < s.cfg.cap →
    exec .drain (s.withRem s.cfg.cap) = .next t → exec .drain (s.withRem 0) = .next (t.withRem 0)

/-- Under R13's constraint the two settings of `DEBUG_ASSERT` behave alike (R166, U8). -/
def Obligations.ConformingConfigurationsIgnoreDebugAssert : Prop :=
  ∀ (s t : State) (b : Bool) (i : Instr), s.cfg.wf = true → s.cfg.conforming = true → exec i s = .next t →
    exec i (s.withDebugAssert b) = .next (t.withDebugAssert b)

/-! ### CYCLE and its sub-steps -/

/-- A `CYCLE` with a healthy drain completes: output command applied, inputs and PWM values latched and published together with
the averages. The counter of free values (notes/assumptions/6.md), the count of what is delivered, which starts again
(notes/assumptions/33.md), and the level `buf_idx` keeps (notes/assumptions/16.md) are the model's own choice. -/
def Obligations.HealthyCyclePublishesEverything : Prop :=
  ∀ s : State, Accepting s → DrainReady s → Healthy s → CountsAllowed s →
    exec .cycle s = .next
      { s with
        adu := drainedAdu s
        seq := cycledSeq s
        env := drainedEnv s
        draws := s.draws + unread s }

/-- A `CYCLE` whose drain re-arms completes: the digital I/O and the PWM values are published as ever, the four ADC outputs
fall to 0 (R150 a). As after every re-arm it is the model's own choice that the buffer has no contents of its own
(notes/assumptions/7.md), that the count of what is delivered (notes/assumptions/33.md) starts again, and that the collaborator
has a re-arm to carry out (notes/assumptions/34.md). -/
def Obligations.DesynchronizedCycleStillPublishesDigitalAndPwm : Prop :=
  ∀ s : State, Accepting s → DrainReady s → ¬ Healthy s →
    exec .cycle s = .next
      { s with
        adu := rearmedAdu s
        seq := { cycledSeq s with irqMask := false }
        env := rearmedEnv s }

/-- A `CYCLE` whose drain halts the block has applied the command and latched its inputs, and publishes nothing (R150 b). The
counter of free values (notes/assumptions/6.md), the count of what is delivered, which starts again (notes/assumptions/33.md),
and the level `buf_idx` keeps (notes/assumptions/16.md) are the model's own choice. -/
def Obligations.OverfullCycleHaltsAndPublishesNothing : Prop :=
  ∀ (s : State) (ch : Ch), Accepting s → DrainReady s → Healthy s → s.cfg.debugAssert = true → FirstOverCount s ch →
    exec .cycle s = .next (countFaulted s (latchedSeq s) ch)

/-- The sub-steps before `DR_RUN`, one at a time (R142, R143, R144): each writes its register and `ph`, and nothing else. -/
def Obligations.CycleSubStepsLatchOneRegisterEach : Prop :=
  ∀ (s : State) (watch : List (List Watch)), s.flt.halted = false → s.env.rst = false →
    (s.seq.ph = .cyOut →
        envStep (.pa watch) s = .next { s with seq := { s.seq with dout := outcmdSeen s, ph := .cyIn } }) ∧
      (s.seq.ph = .cyIn →
        envStep (.pa watch) s = .next { s with seq := { s.seq with latDin := pinsSeen s, ph := .cyPwm 0 } }) ∧
      ∀ i, s.seq.ph = .cyPwm i →
        ∃ q : Quad (BitVec 16), q.get i = s.pdu.pwmValue.get i ∧ (∀ j ≠ i, q.get j = s.seq.latPwm.get j) ∧
          envStep (.pa watch) s = .next
            { s with
              seq :=
                { s.seq with
                  latPwm := q
                  ph := if i = 0 then .cyPwm 1 else if i = 1 then .cyPwm 2 else if i = 2 then .cyPwm 3 else .drRun } }

/-- The setter calls of a `PUB` come in the order of §6, `set_current_voltage` and `set_pwm_values` each writing its registers
together: a `CYCLE` makes five (R146) and a stand-alone `DRAIN` the last three, leaving `din_state` and `pwm_out` as they were
(R103). Whatever observers read inside the `PUB`, before, between and after the calls (U22), each read gives what the calls made
so far have left, and the reads come in the order of the calls: none after it reads an older value (R64). Then `ph` is `IDLE` and
`in_cycle` 0, and nothing else has moved. The list of what has been read is the model's own (notes/assumptions/18.md). -/
def Obligations.ObserverInsidePublicationSeesSettersInOrder : Prop :=
  ∀ (s : State) (watch : List (List Watch)), s.flt.halted = false → s.env.rst = false → s.seq.ph = .pub →
    envStep (.pa watch) s = .next
      { s with
        adu := { s.adu with adcOut := s.adu.avg }
        seq :=
          { s.seq with
            dinState := if s.seq.inCycle then s.seq.latDin else s.seq.dinState
            pwmOut := if s.seq.inCycle then s.seq.latPwm else s.seq.pwmOut
            ph := .idle
            inCycle := false }
        seen := s.seen ++ readsInsidePub s 0 watch }

/-- The coarse line of a `DRAIN` is its fine-grained form: one step on the request ends as three steps on acceptance and two
sub-steps (R80, R91), whatever `rem` carries when it is sampled, but that the ports have been released once more. The scripts
(notes/assumptions/2.md) and the release of the ports (notes/assumptions/32.md) are the model's own form. -/
def Obligations.CoarseDrainIsItsSubSteps : Prop :=
  ∀ (s : State) (rest : List Stimulus), s.cfg.wf = true → Accepting s →
    (s.past (.event (.instant false true false false) :: .event (.pa []) :: .event (.pa []) :: rest)).runFor 3 =
      andThen ((s.past (.request .p 0b10 :: rest)).runFor 1) fun t => .next t.release

/-- The coarse line of a `CYCLE` is its fine-grained form: acceptance and eight sub-steps, each of the three that sample a port
given its level (R80, R140), but that the ports have been released once for each sub-step. The scripts (notes/assumptions/2.md)
and the release of the ports (notes/assumptions/32.md) are the model's own form. -/
def Obligations.CoarseCycleIsItsSubSteps : Prop :=
  ∀ (s : State) (o p : Byte) (r : Nat) (rest : List Stimulus), s.cfg.wf = true → Accepting s → r < 2 * s.cfg.cap →
    (s.past (.event (.instant false true true false) :: .event (.driveOutcmd o) :: .event (.pa []) ::
        .event (.drivePins p) :: .event (.pa []) ::
          (List.replicate 4 (.event (.pa [])) ++
            .event (.driveRem r) :: .event (.pa []) :: .event (.pa []) :: rest))).runFor 12 =
      andThen (((s.withCyclePorts o p r).past (.request .p 0b11 :: rest)).runFor 1) fun t =>
        .next { t with env := { t.env with instant := t.env.instant + 7 } }

/-- The coarse lines of a trace, port values and all, run as the operations they name (R80): the line's stimuli end in the
operation executed with those levels at the ports, after which they are released, the model's own form of R40
(notes/assumptions/32.md). That a `DRAIN` or `CYCLE` line then goes on with the event `dmaRearmed`, the collaborator's answer
to a re-arm if one is due, is the model's own choice (notes/assumptions/19.md, notes/assumptions/34.md): R81 says only where
the write cursor is after a re-arm. -/
def Obligations.TraceLinesRunTheOperationsTheyName : Prop :=
  ∀ (s : State) (rest : List Stimulus), s.cfg.wf = true →
    (s.script = Line.stimuli s.cfg .reset ++ rest → 
        s.runFor 1 = andThen (exec .reset (s.past rest)) fun t => .next t.release) ∧
      (∀ r, r ≤ s.cfg.cap → s.script = Line.stimuli s.cfg (.drain r) ++ rest →
        s.runFor 3 = andThen (exec .drain ((s.withRem r).past rest)) fun t => envStep .dmaRearmed t.release) ∧
      (∀ o p r, r ≤ s.cfg.cap → s.script = Line.stimuli s.cfg (.cycle o p r) ++ rest →
        s.runFor 5 =
          andThen (exec .cycle ((s.withCyclePorts o p r).past rest)) fun t => envStep .dmaRearmed t.release) ∧
      (∀ p t, t < 2 ^ s.cfg.wCnt → s.script = Line.stimuli s.cfg (.edge p t) ++ rest →
        s.runFor 3 = andThen (exec .edge ((s.withPins p t).past rest)) fun u => .next u.release) ∧
      (s.script = Line.stimuli s.cfg .nop ++ rest → s.runFor 2 = .next (s.past rest).release.release)

/-! ### EDGE -/

/-- `EDGE`, where neither `rst`, `halted` nor `irq_mask` holds the edge agent off, completes: levels updated, every changed
channel stamped with the one `now`, every fallen channel's interval mapped by the three regions (R123 to R127). -/
def Obligations.EdgeStampsAndDecodesEveryChangedChannel : Prop :=
  ∀ s : State, s.cfg.wf = true → EdgeOpen s →
    exec .edge s = .next { s with seq := servedSeq s, pdu := edgedPdu s }

/-- `EDGE` while `irq_mask` or `halted` holds the edge agent off stays pending and changes nothing else (R165, R168); under
`rst` it is not even latched (R74). That the operation, run as one, ends with the request pending is read from these rules
together (notes/assumptions/23.md). -/
def Obligations.HeldOffEdgeStaysPending : Prop :=
  ∀ s : State,
    (s.env.rst = false → (s.seq.irqMask = true ∨ s.flt.halted = true) →
        exec .edge s = .next { s with seq := { s.seq with ePend := true } }) ∧
      (s.env.rst = true → exec .edge s = .next s)

/-- An event in which no monitored pin differs from the levels last seen writes nothing but the pending latch, in any
configuration (R122). -/
def Obligations.EdgeWithoutMonitoredChangeWritesNothing : Prop :=
  ∀ s : State, EdgeOpen s → pinsSeen s &&& monMask s.cfg = s.pdu.lastLevels →
    exec .edge s = .next { s with seq := servedSeq s }

/-- A rising edge at `t0` followed by a falling edge at `t0 + d` decodes to the three-region map of `d`, for every `t0` and
`d` below `2^W_CNT`, `t0 + d` taken modulo `2^W_CNT`, and whatever the channel's registers held before (R130 a, b). -/
def Obligations.PulseDecodesToItsMappedWidth : Prop :=
  ∀ (s : State) (i : Ch) (p q : Byte) (t0 d : Nat), s.cfg.wf = true → EdgeOpen s →
    t0 < 2 ^ s.cfg.wCnt → d < 2 ^ s.cfg.wCnt →
    s.pdu.lastLevels.getLsbD (s.cfg.pwmBit.get i) = false →
    p.getLsbD (s.cfg.pwmBit.get i) = true → q.getLsbD (s.cfg.pwmBit.get i) = false →
    ∃ u v, exec .edge (s.withPins p t0) = .next u ∧
      exec .edge (u.withPins q ((t0 + d) % 2 ^ s.cfg.wCnt)) = .next v ∧
      (v.pdu.pwmValue.get i).toNat =
        if d ≤ s.cfg.tLow then 0 else if s.cfg.tHigh ≤ d then 65535 else (d - s.cfg.tLow) % 65536

/-- The pseudo-operation `PULSE` (R82) does what it is for: from any state in which the edge agent is not held off and the
channel was last seen low, its six stimuli leave the channel at the three-region map of `d` and `last_levels` as it was. -/
def Obligations.PulseLineDecodesItsWidth : Prop :=
  ∀ (s : State) (i : Ch) (t0 d : Nat) (rest : List Stimulus), s.Inv → EdgeOpen s →
    t0 < 2 ^ s.cfg.wCnt → d < 2 ^ s.cfg.wCnt →
    s.pdu.lastLevels.getLsbD (s.cfg.pwmBit.get i) = false →
    s.script = Line.stimuli s.cfg (.pulse s.pdu.lastLevels i t0 d) ++ rest →
    ∃ t, s.runFor 6 = .next t ∧ t.script = rest ∧ t.pdu.lastLevels = s.pdu.lastLevels ∧
      (t.pdu.pwmValue.get i).toNat =
        if d ≤ s.cfg.tLow then 0 else if s.cfg.tHigh ≤ d then 65535 else (d - s.cfg.tLow) % 65536

/-- A channel whose pin did not change keeps its timestamp and its value (R130 c), and a value changes at a falling edge of
its own channel only (R130 d). -/
def Obligations.EdgeLeavesOtherChannelsAlone : Prop :=
  ∀ (s t : State) (i : Ch), s.cfg.wf = true → exec .edge s = .next t →
    (¬ edged s i → t.pdu.riseTs.get i = s.pdu.riseTs.get i ∧ t.pdu.pwmValue.get i = s.pdu.pwmValue.get i) ∧
      (t.pdu.pwmValue.get i ≠ s.pdu.pwmValue.get i → fell s i)

/-- An `EDGE` between two sub-steps commutes with the sub-step, unless that is a `CY_PWMi` read or halts the block (R79,
R148). Where an agent has no step, its event is passed over, which is the model's own choice (notes/assumptions/13.md). -/
def Obligations.EdgeCommutesWithSubStepsThatReadNoPwmValue : Prop :=
  ∀ s t : State, (∀ i, s.seq.ph ≠ .cyPwm i) → s.seq.irqMask = false → envStep (.pa []) s = .next t →
    t.flt.halted = false →
    ∃ u, envStep .ea s = .next u ∧ ∃ v, envStep (.pa []) u = .next v ∧ envStep .ea t = .next v

/-- What an `EDGE` between two `CY_PWMi` reads does to the published set: channels read before it keep the old value, those
read after it get the new one (R144, R198). -/
def Obligations.EdgeBetweenPwmReadsGivesAMixedSnapshot : Prop :=
  ∀ (s : State) (i j : Ch), s.cfg.wf = true → s.flt.halted = false → s.env.rst = false → s.seq.irqMask = false →
    s.seq.ePend = true → s.seq.ph = .cyPwm i → i < 3 → j.val = i.val + 1 →
    ∃ a b c, envStep (.pa []) s = .next a ∧ envStep .ea a = .next b ∧ envStep (.pa []) b = .next c ∧
      c.seq.latPwm.get i = s.pdu.pwmValue.get i ∧ c.seq.latPwm.get j = (edgedPdu s).pwmValue.get j

/-! ### Whole-machine rules -/

/-- The state after reset meets the invariants, is quiescent and safe, and its trace is empty. Its configuration
(notes/assumptions/1.md), the levels at its ports, its buffer and its collaborator (notes/assumptions/15.md,
notes/assumptions/33.md, notes/assumptions/34.md) are the model's own choice. -/
def Obligations.ResetStateMeetsTheInvariant : Prop :=
  State.reset.Inv ∧ State.reset.TraceOfRearms 0 ∧ State.reset.Quiescent ∧ State.reset.Safe ∧
    ChannelAligned State.reset ∧ State.reset.LapForgotten

/-- Every step keeps the invariant (R46, and the consistency of the control registers). The widths as bounds on numbers
(notes/assumptions/4.md) and the canonical form of the buffer (notes/assumptions/26.md) are the model's own form. -/
def Obligations.StepKeepsTheInvariant : Prop :=
  ∀ s t : State, s.Inv → step s = .next t → t.Inv

/-- Under R13's constraint no step halts the block: neither assertion can fail (R102, R162, R163). -/
def Obligations.ConformingBlockNeverHalts : Prop :=
  ∀ s t : State, s.Inv → s.cfg.conforming = true → s.flt.halted = false → step s = .next t →
    t.flt.halted = false ∧ t.cfg.conforming = true

/-- `ctl` is always a whole number of re-arms in order, and `rearm_count` is that number modulo `2^32` (R25, R41, R96). -/
def Obligations.StepKeepsTheTraceAWholeNumberOfRearms : Prop :=
  ∀ (s t : State) (k : Nat), s.TraceOfRearms k → step s = .next t →
    t.TraceOfRearms k ∨ t.TraceOfRearms (k + 1) ∨ (t.TraceOfRearms 0 ∧ s.ResetNext)

/-- `rearm_count` and `ctl` move together and only at a re-arm, which sets the cursor to 0 and records its cause; nothing but
`RESET` clears them (R25, R95, R96). -/
def Obligations.OnlyRearmAndResetTouchRearmCount : Prop :=
  ∀ s t : State, step s = .next t →
    (t.adu.rearmCount = s.adu.rearmCount ∧ t.adu.ctl = s.adu.ctl) ∨
      (t.adu.rearmCount = s.adu.rearmCount + 1 ∧ t.adu.ctl = s.adu.ctl ++ rearmEvents s.cfg ∧ t.adu.cursor = 0 ∧
        t.adu.drainStatus ≠ .ok) ∨
      (s.ResetNext ∧ t.adu.rearmCount = 0 ∧ t.adu.ctl = [])

/-- A halted block: no step but `RESET` changes a register, an output port or the trace, save that `e_req` still sets `e_pend`,
which no step then serves; `RESET` clears the halt with everything else (R165). That a step offered to an agent without one is
passed over (notes/assumptions/13.md), and that lowering `rst` forgets nothing of the buffer (notes/assumptions/35.md), are the
model's own choice. -/
def Obligations.HaltedBlockIsFrozenUntilReset : Prop :=
  ∀ s : State, s.flt.halted = true →
    (∀ t, step s = .next t →
        (¬ s.ResetNext → t.adu = s.adu ∧ t.pdu = s.pdu ∧ t.flt = s.flt ∧ t.env.bufIdx = s.env.bufIdx ∧
            (t.seq = s.seq ∨ t.seq = { s.seq with ePend := true })) ∧
          (s.ResetNext → t.RegistersReset)) ∧
      ∀ pReq pOp, envStep (.instant false pReq pOp true) s = .next
        { s with seq := { s.seq with ePend := true }, env := { s.env with rst := false } }

/-- Only an `EDGE` that is asked for, of an edge agent that is not held off, or `RESET`, ever changes a PDU register (R120,
R121, R172). The edge agent has a step exactly when `e_pend == 1` and nothing holds it off (R121), and that step is an
`EDGE`. At any other time it has no step and nothing changes. Three clauses are the model's own choice: that the event `ea`
is then passed over and does not stop the machine (notes/assumptions/13.md); that a step the block owes is taken once the
stimulus has run out (notes/assumptions/12.md, after R194 and R200); and that an `EDGE` owed so samples draws, whatever was
driven on the ports before (notes/assumptions/32.md, after R40). -/
def Obligations.OnlyEdgeAndResetChangeThePdu : Prop :=
  (∀ s t : State, step s = .next t →
      s.ResetNext ∨ t.pdu = s.pdu ∨
        (EdgeOpen s ∧ EdgeWanted s ∧ t.pdu = edgedPdu (if s.script = [] then s.undrive else s))) ∧
    ∀ s : State,
      (s.cfg.wf = true → EdgeOpen s → s.seq.ePend = true →
          envStep .ea s = .next { s with seq := servedSeq s, pdu := edgedPdu s }) ∧
        (s.seq.ePend = false ∨ ¬ EdgeOpen s → envStep .ea s = .next s)

/-- The edge agent writes no register of the periodic agent's, nor any port, the buffer or the trace: at most the PDU's
registers and `e_pend` (R120, R172). -/
def Obligations.EdgeAgentWritesOnlyItsOwnRegisters : Prop :=
  ∀ s t : State, (exec .edge s = .next t ∨ envStep .ea s = .next t) →
    ∃ (p : Pdu) (b : Bool), t = { s with pdu := p, seq := { s.seq with ePend := b } }

/-- No step changes a configuration parameter (R205). -/
def Obligations.NoStepChangesTheConfiguration : Prop :=
  ∀ s t : State, step s = .next t → t.cfg = s.cfg

/-- With no stimulus a quiescent block stays as it is. R194 says that no agent of the block has a step; that the machine then
answers the same state, where a trace has ended, is the model's own choice (notes/assumptions/2.md, notes/assumptions/12.md). -/
def Obligations.QuiescentBlockWithoutStimulusStays : Prop :=
  ∀ s : State, s.cfg.wf = true → s.script = [] → s.Quiescent → step s = .next s

/-- Every operation ends: with no further stimulus a block that no assertion can halt is quiescent after at most nine steps,
whichever agent the free value of notes/assumptions/12.md lets go first (R147, R194), and whatever the ports carry when these
steps sample them: the script says nothing of it, so each level is a free value (R40), that of `rem` within its contract (R57),
or `CAP` where no sample has arrived since a re-arm (R59; notes/assumptions/32.md, notes/assumptions/34.md). -/
def Obligations.OwedStepsReachQuiescence : Prop :=
  ∀ s : State, s.Inv → s.cfg.conforming = true → s.flt.halted = false → s.env.rst = false → s.script = [] →
    ∃ k ≤ 9, ∃ t, s.runFor k = .next t ∧ t.Quiescent ∧ t.flt.halted = false

/-! ### The sample buffer and its collaborator -/

/-- The DMA collaborator's write puts the sample at its write cursor, moves the cursor on round the buffer and the ADC on to
the next channel, and leaves every other location and every register alone (R51, R54); the write that makes a whole lap since
the last `DRAIN`, and every one after it, leaves no location a sample of its own (U5). The model's own choice are that the
write leaves a level driven on `rem` as it was, R205's "change rem accordingly" being an event of its own
(notes/assumptions/19.md), the canonical form of the buffer (notes/assumptions/26.md), the count of what is delivered, and that
a lap takes the contents of every location (notes/assumptions/33.md), the channel counter, and the note that a sample has
arrived since the last re-arm, so that `rem` need not read `CAP` any more (R59; notes/assumptions/34.md). -/
def Obligations.DmaWriteFillsOneLocation : Prop :=
  ∀ (s : State) (x : Sample), s.env.wCur < s.cfg.cap → Memory.wf s.cfg.cap s.env.buf →
    ∃ m, envStep (.dmaWrite x) s = .next
        { s with
          env :=
            { s.env with
              buf := m
              wCur := (s.env.wCur + 1) % s.cfg.cap
              nextCh := s.env.nextCh + 1
              delivered := s.env.delivered + 1
              restarted := false } } ∧
      Memory.wf s.cfg.cap m ∧
      (s.env.delivered + 1 < s.cfg.cap →
        Memory.lookup s.env.wCur m = some x ∧ ∀ j ≠ s.env.wCur, Memory.lookup j m = Memory.lookup j s.env.buf) ∧
      (s.cfg.cap ≤ s.env.delivered + 1 → ∀ j, Memory.lookup j m = none)

/-- From a block in step with its collaborator, wherever the cursor stands and also across the wrap: a delivery of `m` samples
within drain pacing, a `rem` that reports it in either form (R57, U2), and a `DRAIN`, publish for each channel the average of
exactly the samples that channel's conversions delivered (R51, R53, R98, R100, R195). That location and channel go together is
the premise of U6, `ChannelAligned`, which E-REARM gives. The order of the channels and the count of what is delivered are the
model's own fields `nextCh` (notes/assumptions/34.md) and `delivered` (notes/assumptions/33.md); the latter is 0 since a `DRAIN`
has run, and is again at the end. -/
def Obligations.DrainAveragesWhatTheCollaboratorDelivered : Prop :=
  ∀ (s : State) (xs : List Sample) (r : Nat) (rest : List Stimulus), s.Inv → Accepting s → s.cfg.conforming = true →
    ChannelAligned s → s.adu.cursor = s.env.wCur → s.env.delivered = 0 → DrainPacing s.cfg xs.length →
    r ≤ s.cfg.cap → (s.cfg.cap - r) % s.cfg.cap = (s.env.wCur + xs.length) % s.cfg.cap →
    s.script = xs.map (fun x => Stimulus.event (.dmaWrite x)) ++
      .event (.driveRem r) :: .request .p 0b10 :: rest →
    ∃ t, s.runFor (xs.length + 2) = .next t ∧ t.script = rest ∧ t.adu.drainStatus = .ok ∧
      t.adu.cursor = t.env.wCur ∧ t.env.delivered = 0 ∧ t.adu.rearmCount = s.adu.rearmCount ∧
      ∀ ch, (t.adu.adcOut.get ch).toNat =
        if deliveredCount xs s.env.nextCh ch = 0 then 0
        else deliveredTotal xs s.env.nextCh ch * 16 / deliveredCount xs s.env.nextCh ch

/-- What each event of the environment does, and that it does nothing else: a level driven on a port stands there until the
port is released (`PortsHaveNoMemory`); an observer's read is recorded with what stands on the port it names (R34, R43, R81)
and changes nothing (R63 says so of input ports); a location in flux has no value of its own and every other location keeps its
value (U4, U7); a re-arm that is due puts the collaborator where E-REARM has it, with nothing driven on `rem`, which reads
`CAP`, and none that is not due moves it (R59); the collaborator can also stand anywhere (R191, U6). The fields `seen`,
`nextCh`, `rearmDue` and `restarted`, the canonical form and the events themselves are the model's own
(notes/assumptions/18.md, notes/assumptions/34.md, notes/assumptions/26.md, notes/assumptions/8.md). -/
def Obligations.EnvironmentEventsChangeOnlyWhatTheyName : Prop :=
  ∀ s : State,
    (∀ r < 2 * s.cfg.cap, envStep (.driveRem r) s = .next (s.withRem r)) ∧
      (∀ p, envStep (.drivePins p) s = .next { s with env := { s.env with pins := some p } }) ∧
      (∀ t < 2 ^ s.cfg.wCnt, envStep (.driveCnt t) s = .next { s with env := { s.env with cnt := some t } }) ∧
      (∀ v, envStep (.driveOutcmd v) s = .next { s with env := { s.env with outcmd := some v } }) ∧
      (∀ r, envStep (.observe r) s = .next { s with seen := s.seen ++ [(r, portReads s r)] }) ∧
      (∀ j, ∃ m, envStep (.disturb j) s = .next (s.withBuf m) ∧ Memory.lookup j m = none ∧
        (∀ k ≠ j, Memory.lookup k m = Memory.lookup k s.env.buf) ∧
        (Memory.wf s.cfg.cap s.env.buf → Memory.wf s.cfg.cap m)) ∧
      (s.env.rearmDue = true → ∃ t, envStep .dmaRearmed s = .next t ∧ ERearm t ∧
        t = { s with
          env := { s.env with wCur := 0, nextCh := 0, rem := none, rearmDue := false, restarted := true } }) ∧
      (s.env.rearmDue = false → envStep .dmaRearmed s = .next s) ∧
      ∀ w < s.cfg.cap, ∀ ch, envStep (.dmaPlaced w ch) s = .next
        { s with env := { s.env with wCur := w, nextCh := ch, rearmDue := false, restarted := false } }

/-- A `DRAIN` or `CYCLE` that re-arms, and the collaborator's answer to it, leave both at the start of the buffer: the cursor
and the write cursor at 0, `rem` reading `CAP`, no location with a value, channel 0 next (R59, R95); one that does not re-arm,
with none due from before, leaves the collaborator where it was. The restart lasts "until the first new sample arrives" (R59):
through every step but a sample written and a collaborator the script places elsewhere (U6), and `rem` reads `CAP` as long,
where the script drives no other level. Three clauses are the model's own choice: that no location has a value, for R55's
"unspecified" (notes/assumptions/7.md), the answer as the event `dmaRearmed` (notes/assumptions/19.md), and the fields `nextCh`,
`rearmDue` and `restarted` (notes/assumptions/34.md). -/
def Obligations.RearmRestartsTheCollaborator : Prop :=
  (∀ s t : State, (exec .drain s = .next t ∨ exec .cycle s = .next t) →
      ∃ u, envStep .dmaRearmed t = .next u ∧
        (Accepting s → ¬ Healthy s →
          ERearm u ∧ u.AtRestart ∧ u.env.rem = none ∧ ChannelAligned u ∧ u.env.buf = [] ∧ u.adu = rearmedAdu s ∧
            unread u = 0) ∧
        (¬ Accepting s ∨ Healthy s → s.env.rearmDue = false →
          u = t ∧ t.env.wCur = s.env.wCur ∧ t.env.nextCh = s.env.nextCh ∧ t.env.rem = s.env.rem ∧
            t.env.buf = s.env.buf ∧ t.env.restarted = s.env.restarted)) ∧
    (∀ s t : State, s.AtRestart → step s = .next t → (∀ x rest, s.script ≠ .event (.dmaWrite x) :: rest) →
      (∀ w ch rest, s.script ≠ .event (.dmaPlaced w ch) :: rest) → t.AtRestart) ∧
    ∀ s : State, s.AtRestart → s.env.rem = none → remSeen s = s.cfg.cap

/-- Location and channel stay together at the write cursor, round every wrap, through every re-arm and through `RESET`, whatever
step is taken (R53, R59), unless the script places the collaborator somewhere itself (U6). The channel is the model's own field
`nextCh`, which `RESET` leaves, by its own choice (notes/assumptions/34.md), and so is the event `dmaRearmed` that puts it back
to channel 0 (notes/assumptions/19.md). -/
def Obligations.StepKeepsLocationsAndChannelsTogether : Prop :=
  ∀ s t : State, (∀ w ch rest, s.script ≠ .event (.dmaPlaced w ch) :: rest) → ChannelAligned s → step s = .next t →
    ChannelAligned t

/-- "After a re-arm the write cursor `w` is 0" (R81): the `DMA` line after a `DRAIN` line, a `CYCLE` line or a `PA.step` line
whose `DR_RUN` re-arms fills the buffer from location 0 on, wherever the collaborator stood before, channel 0 first. Four
clauses are the model's own choice: that no other location has a value, for R55's "unspecified" (notes/assumptions/7.md), that
these lines end with the collaborator's answer (notes/assumptions/19.md), the field `nextCh` (notes/assumptions/34.md), and
that no location has a value once a whole lap has arrived (U5, notes/assumptions/33.md). -/
def Obligations.DmaLineAfterARearmFillsFromLocationZero : Prop :=
  ∀ (s : State) (r : Nat) (xs : List Sample) (rest : List Stimulus), s.cfg.wf = true → s.adu.cursor < s.cfg.cap →
    r ≤ s.cfg.cap → ¬ Healthy (s.withRem r) →
    (Accepting s → s.script = Line.stimuli s.cfg (.drain r) ++ (Line.stimuli s.cfg (.dma xs) ++ rest) →
        ∃ t, s.runFor (3 + xs.length) = .next t ∧ t.script = rest ∧ t.adu = rearmedAdu (s.withRem r) ∧
          t.FilledFromZero xs) ∧
      (∀ o p, Accepting s → s.script = Line.stimuli s.cfg (.cycle o p r) ++ (Line.stimuli s.cfg (.dma xs) ++ rest) →
        ∃ t, s.runFor (5 + xs.length) = .next t ∧ t.script = rest ∧ t.adu = rearmedAdu (s.withRem r) ∧
          t.FilledFromZero xs) ∧
      (s.seq.ph = .drRun → s.flt.halted = false → s.env.rst = false →
        s.script = Line.stimuli s.cfg (.paStep none none (some r)) ++ (Line.stimuli s.cfg (.dma xs) ++ rest) →
        ∃ t, s.runFor (3 + xs.length) = .next t ∧ t.script = rest ∧ t.seq.ph = .pub ∧
          t.adu = { rearmedAdu (s.withRem r) with adcOut := s.adu.adcOut } ∧ t.FilledFromZero xs)

/-- The undetected overrun (R197): with `CAP` or more samples delivered since the last `DRAIN` the block computes `available` as
the number delivered modulo `CAP`; if that passes the health check, the `DRAIN` consumes so many samples, finds nothing wrong,
and the cursors are in step again. Each sample consumed is a free value, as U5 asks of a model that allows such a delivery: the
outputs are the averages of an empty buffer's reads. The count of what is delivered and the buffer without contents are the
model's own form of that (notes/assumptions/33.md, notes/assumptions/6.md). -/
def Obligations.UndetectedOverrunConsumesAnyValues : Prop :=
  ∀ (s : State) (xs : List Sample) (r : Nat) (rest : List Stimulus), s.Inv → Accepting s → s.cfg.conforming = true →
    s.adu.cursor = s.env.wCur → s.cfg.cap ≤ s.env.delivered + xs.length →
    r ≤ s.cfg.cap → (s.cfg.cap - r) % s.cfg.cap = (s.env.wCur + xs.length) % s.cfg.cap →
    Healthy (s.withRem r) →
    s.script = xs.map (fun x => Stimulus.event (.dmaWrite x)) ++
      .event (.driveRem r) :: .request .p 0b10 :: rest →
    unread (s.withRem r) = xs.length % s.cfg.cap ∧
      ∃ t, s.runFor (xs.length + 2) = .next t ∧ t.script = rest ∧ t.adu.drainStatus = .ok ∧
        t.adu.cursor = t.env.wCur ∧ t.env.delivered = 0 ∧ t.adu.rearmCount = s.adu.rearmCount ∧
        t.draws = s.draws + xs.length % s.cfg.cap ∧
        ∀ ch, (t.adu.adcOut.get ch).toNat = channelAverage ((s.withRem r).withBuf []) ch

/-- Every step keeps a lapped buffer without contents: while `CAP` or more samples have been delivered since the last `DRAIN`,
no location has a value a claim could name (R197, U5). The count, which includes what is written while `rst` is held
(notes/assumptions/35.md), and the forgetting are the model's own form (notes/assumptions/33.md). -/
def Obligations.StepKeepsALappedBufferWithoutContents : Prop :=
  ∀ s t : State, s.LapForgotten → step s = .next t → t.LapForgotten

/-- "An input port has no memory" (R40). Every step that can sample ports, a request's, an agent's, or one owed after the
stimulus, ends with nothing driven on them and the next instant begun; the release touches nothing else. A sample of a port on
which the script drives nothing, and every sample of an owed step, is the port's free value at its instant, so no two samples
of a port have to agree; but `rem` reads `CAP` after a re-arm until the first new sample arrives (R59). The form, by release and
by a count of instants, and `rem` kept within R57's contract, are the model's own choice (notes/assumptions/32.md,
notes/assumptions/34.md). -/
def Obligations.PortsHaveNoMemory : Prop :=
  (∀ s : State, s.release =
      { s with
        env := { s.env with rem := none, pins := none, cnt := none, outcmd := none, instant := s.env.instant + 1 } }) ∧
    (∀ s t : State, step s = .next t →
      ((∃ f w rest i, s.script = .request f w :: rest ∧ decode f w = .ok i) ∨
          (∃ watch rest, s.script = .event (.pa watch) :: rest) ∨ (∃ rest, s.script = .event .ea :: rest) ∨
          (s.script = [] ∧ s.Owes)) →
      t.Undriven ∧ t.env.instant = s.env.instant + 1) ∧
    (∀ s : State, s.Undriven →
      remSeen s =
          (if s.env.restarted = true then s.cfg.cap else Config.freeRem s.env.instant % (s.cfg.cap + 1)) ∧
        pinsSeen s = Config.freePins s.env.instant ∧
        cntSeen s = Config.freeCnt s.env.instant % 2 ^ s.cfg.wCnt ∧ outcmdSeen s = Config.freeOutcmd s.env.instant) ∧
    (∀ s : State, s.script = [] → s.Owes → step s = step s.undrive) ∧
    ∀ s t : State, s.script = [] → s.seq.ePend = false → s.flt.halted = false → s.env.rst = false → step s = .next t →
      (s.seq.ph = .cyOut → t.seq.dout = Config.freeOutcmd s.env.instant) ∧
        (s.seq.ph = .cyIn → t.seq.latDin = Config.freePins s.env.instant)
end

