-- ==== Sys2Proof/Laws/Memory.lean ====
section
/-! SUPPORT. The sample buffer: read after write, and that every operation on it keeps the canonical form. -/

namespace Sys2Proof.Machine.Memory

@[simp] theorem lookup_nil (j : Nat) : lookup j [] = none := rfl

@[simp] theorem lookup_cons (j a : Nat) (y : Sample) (m : Memory) :
    lookup j ((a, y) :: m) = if a = j then some y else lookup j m := rfl

/-- A read after the collaborator's write gives the sample written there, and every other location reads as before. -/
theorem lookup_write (m : Memory) (i j : Nat) (x : Sample) :
    lookup j (m.write i x) = if i = j then some x else lookup j m := by
  induction m with
  | nil => rfl
  | cons p m ih =>
    obtain ⟨a, y⟩ := p
    simp only [write]
    split
    · rfl
    · split
      · next h => subst h; simp only [lookup_cons]; split <;> rfl
      · next h => simp only [lookup_cons, ih]; split_ifs <;> first | rfl | omega

theorem lookup_disturb (m : Memory) (i j : Nat) :
    lookup j (m.disturb i) = if i = j then none else lookup j m := by
  induction m with
  | nil => simp [disturb]
  | cons p m ih =>
    obtain ⟨a, y⟩ := p
    by_cases h : a = i
    · subst h
      have : disturb a ((a, y) :: m) = disturb a m := by simp [disturb]
      rw [this, ih, lookup_cons]
      split <;> rfl
    · have : disturb i ((a, y) :: m) = (a, y) :: disturb i m := by simp [disturb, h]
      rw [this, lookup_cons, ih, lookup_cons]
      split_ifs <;> first | rfl | omega

theorem mem_write {m : Memory} {i : Nat} {x : Sample} {p : Nat × Sample} (h : p ∈ m.write i x) :
    p = (i, x) ∨ p ∈ m := by
  induction m with
  | nil => simpa [write] using h
  | cons q m ih =>
    obtain ⟨a, y⟩ := q
    simp only [write] at h
    split at h
    · simpa using h
    · split at h
      · simp only [List.mem_cons] at h ⊢
        tauto
      · simp only [List.mem_cons] at h ⊢
        rcases h with h | h
        · exact .inr (.inl h)
        · rcases ih h with h | h
          · exact .inl h
          · exact .inr (.inr h)

theorem wf_nil (cap : Nat) : wf cap [] := by simp [wf]

/-- The collaborator's write keeps the canonical form. -/
theorem wf_write {cap i : Nat} {m : Memory} (x : Sample) (hi : i < cap) (h : wf cap m) : wf cap (m.write i x) := by
  refine ⟨?_, fun p hp => ?_⟩
  · have hm := h.1
    clear h
    induction m with
    | nil => simp [write]
    | cons q m ih =>
      obtain ⟨a, y⟩ := q
      obtain ⟨hq, htail⟩ := List.pairwise_cons.1 hm
      simp only [write]
      split
      · next h =>
        refine List.pairwise_cons.2 ⟨fun p hp => ?_, List.pairwise_cons.2 ⟨hq, htail⟩⟩
        rcases List.mem_cons.1 hp with rfl | hp
        · exact h
        · exact Nat.lt_trans h (hq p hp)
      · split
        · next h => subst h; exact List.pairwise_cons.2 ⟨hq, htail⟩
        · next h₁ h₂ =>
          refine List.pairwise_cons.2 ⟨fun p hp => ?_, ih htail⟩
          rcases mem_write hp with rfl | hp
          · show a < i; omega
          · exact hq p hp
  · rcases mem_write hp with rfl | hp
    · exact hi
    · exact h.2 p hp

/-- Losing one location's value keeps the canonical form. -/
theorem wf_disturb {cap : Nat} {m : Memory} (i : Nat) (h : wf cap m) : wf cap (m.disturb i) :=
  ⟨h.1.filter _, fun p hp => h.2 p (List.mem_filter.1 hp).1⟩

end Sys2Proof.Machine.Memory
end

