-- ==== Sys2Proof/Laws/Quad.lean ====
section
/-! SUPPORT. Reading and writing one of four like registers. -/

namespace Sys2Proof.Quad

variable {α : Type}

@[simp] theorem get_ofFn (f : Ch → α) (ch : Ch) : (ofFn f).get ch = f ch := by
  fin_cases ch <;> rfl

@[simp] theorem get_fill (x : α) (ch : Ch) : (fill x).get ch = x := by
  fin_cases ch <;> rfl

theorem ext_get {p q : Quad α} (h : ∀ ch, p.get ch = q.get ch) : p = q :=
  Quad.ext (h 0) (h 1) (h 2) (h 3)

@[simp] theorem ofFn_get (q : Quad α) : ofFn q.get = q := rfl

theorem get_set (q : Quad α) (i ch : Ch) (x : α) :
    (q.set i x).get ch = if ch = i then x else q.get ch := by
  simp [set]

@[simp] theorem get_set_same (q : Quad α) (i : Ch) (x : α) : (q.set i x).get i = x := by
  simp [get_set]

theorem get_set_other (q : Quad α) {i ch : Ch} (x : α) (h : ch ≠ i) :
    (q.set i x).get ch = q.get ch := by
  simp [get_set, h]

end Sys2Proof.Quad
end

