-- ==== Sys2Proof/Laws/State.lean ====
section
/-! SUPPORT. One lemma for each field of the state under each update, so that no later proof unfolds a record update. -/

namespace Sys2Proof.Machine

/-! The ports as the meanings sample them and as the statements speak of them. -/

theorem portRem_eq (s : State) : portRem s = remSeen s := by
  unfold portRem undrivenRem remSeen
  cases s.env.rem <;> rfl

theorem portPins_eq (s : State) : portPins s = pinsSeen s := by
  unfold portPins pinsSeen
  cases s.env.pins <;> rfl

theorem portCnt_eq (s : State) : portCnt s = cntSeen s := by
  unfold portCnt cntSeen Config.cntMod
  cases s.env.cnt <;> rfl

theorem portOutcmd_eq (s : State) : portOutcmd s = outcmdSeen s := by
  unfold portOutcmd outcmdSeen
  cases s.env.outcmd <;> rfl

/-! What a port carries where the script drives it, and where it does not. -/

@[simp] theorem remSeen_withRem (s : State) (r : Nat) : remSeen (s.withRem r) = r := rfl
@[simp] theorem remSeen_withCyclePorts (s : State) (o p : Byte) (r : Nat) : remSeen (s.withCyclePorts o p r) = r := rfl
@[simp] theorem pinsSeen_withCyclePorts (s : State) (o p : Byte) (r : Nat) : pinsSeen (s.withCyclePorts o p r) = p := rfl
@[simp] theorem outcmdSeen_withCyclePorts (s : State) (o p : Byte) (r : Nat) :
    outcmdSeen (s.withCyclePorts o p r) = o := rfl
@[simp] theorem pinsSeen_withPins (s : State) (p : Byte) (t : Nat) : pinsSeen (s.withPins p t) = p := rfl
@[simp] theorem cntSeen_withPins (s : State) (p : Byte) (t : Nat) : cntSeen (s.withPins p t) = t := rfl

@[simp] theorem remSeen_undrive (s : State) :
    remSeen s.undrive =
      if s.env.restarted = true then s.cfg.cap else Config.freeRem s.env.instant % (s.cfg.cap + 1) := rfl
@[simp] theorem pinsSeen_undrive (s : State) : pinsSeen s.undrive = Config.freePins s.env.instant := rfl
@[simp] theorem cntSeen_undrive (s : State) :
    cntSeen s.undrive = Config.freeCnt s.env.instant % 2 ^ s.cfg.wCnt := rfl
@[simp] theorem outcmdSeen_undrive (s : State) : outcmdSeen s.undrive = Config.freeOutcmd s.env.instant := rfl

/-- Where nothing is driven on `rem` it is within the collaborator's contract (R57). -/
theorem remSeen_undrive_le (s : State) : remSeen s.undrive ≤ s.cfg.cap := by
  rw [remSeen_undrive]
  split
  · exact Nat.le_refl _
  · exact Nat.lt_succ_iff.1 (Nat.mod_lt _ (Nat.succ_pos _))

/-- After a re-arm `rem` reads `CAP` (R59). -/
theorem remSeen_restarted {s : State} (h : s.env.restarted = true) (hr : s.env.rem = none) : remSeen s = s.cfg.cap := by
  rw [remSeen, hr]
  exact if_pos h

end Sys2Proof.Machine

namespace Sys2Proof.Machine.State

variable (s : State)

@[simp] theorem cfg_modAdu (f : Adu → Adu) : (s.modAdu f).cfg = s.cfg := rfl
@[simp] theorem adu_modAdu (f : Adu → Adu) : (s.modAdu f).adu = f s.adu := rfl
@[simp] theorem pdu_modAdu (f : Adu → Adu) : (s.modAdu f).pdu = s.pdu := rfl
@[simp] theorem seq_modAdu (f : Adu → Adu) : (s.modAdu f).seq = s.seq := rfl
@[simp] theorem flt_modAdu (f : Adu → Adu) : (s.modAdu f).flt = s.flt := rfl
@[simp] theorem env_modAdu (f : Adu → Adu) : (s.modAdu f).env = s.env := rfl
@[simp] theorem script_modAdu (f : Adu → Adu) : (s.modAdu f).script = s.script := rfl
@[simp] theorem seen_modAdu (f : Adu → Adu) : (s.modAdu f).seen = s.seen := rfl
@[simp] theorem draws_modAdu (f : Adu → Adu) : (s.modAdu f).draws = s.draws := rfl

@[simp] theorem cfg_modPdu (f : Pdu → Pdu) : (s.modPdu f).cfg = s.cfg := rfl
@[simp] theorem adu_modPdu (f : Pdu → Pdu) : (s.modPdu f).adu = s.adu := rfl
@[simp] theorem pdu_modPdu (f : Pdu → Pdu) : (s.modPdu f).pdu = f s.pdu := rfl
@[simp] theorem seq_modPdu (f : Pdu → Pdu) : (s.modPdu f).seq = s.seq := rfl
@[simp] theorem flt_modPdu (f : Pdu → Pdu) : (s.modPdu f).flt = s.flt := rfl
@[simp] theorem env_modPdu (f : Pdu → Pdu) : (s.modPdu f).env = s.env := rfl
@[simp] theorem script_modPdu (f : Pdu → Pdu) : (s.modPdu f).script = s.script := rfl
@[simp] theorem seen_modPdu (f : Pdu → Pdu) : (s.modPdu f).seen = s.seen := rfl
@[simp] theorem draws_modPdu (f : Pdu → Pdu) : (s.modPdu f).draws = s.draws := rfl

@[simp] theorem cfg_modSeq (f : Seq → Seq) : (s.modSeq f).cfg = s.cfg := rfl
@[simp] theorem adu_modSeq (f : Seq → Seq) : (s.modSeq f).adu = s.adu := rfl
@[simp] theorem pdu_modSeq (f : Seq → Seq) : (s.modSeq f).pdu = s.pdu := rfl
@[simp] theorem seq_modSeq (f : Seq → Seq) : (s.modSeq f).seq = f s.seq := rfl
@[simp] theorem flt_modSeq (f : Seq → Seq) : (s.modSeq f).flt = s.flt := rfl
@[simp] theorem env_modSeq (f : Seq → Seq) : (s.modSeq f).env = s.env := rfl
@[simp] theorem script_modSeq (f : Seq → Seq) : (s.modSeq f).script = s.script := rfl
@[simp] theorem seen_modSeq (f : Seq → Seq) : (s.modSeq f).seen = s.seen := rfl
@[simp] theorem draws_modSeq (f : Seq → Seq) : (s.modSeq f).draws = s.draws := rfl

@[simp] theorem cfg_modFlt (f : FaultRegs → FaultRegs) : (s.modFlt f).cfg = s.cfg := rfl
@[simp] theorem adu_modFlt (f : FaultRegs → FaultRegs) : (s.modFlt f).adu = s.adu := rfl
@[simp] theorem pdu_modFlt (f : FaultRegs → FaultRegs) : (s.modFlt f).pdu = s.pdu := rfl
@[simp] theorem seq_modFlt (f : FaultRegs → FaultRegs) : (s.modFlt f).seq = s.seq := rfl
@[simp] theorem flt_modFlt (f : FaultRegs → FaultRegs) : (s.modFlt f).flt = f s.flt := rfl
@[simp] theorem env_modFlt (f : FaultRegs → FaultRegs) : (s.modFlt f).env = s.env := rfl
@[simp] theorem script_modFlt (f : FaultRegs → FaultRegs) : (s.modFlt f).script = s.script := rfl
@[simp] theorem seen_modFlt (f : FaultRegs → FaultRegs) : (s.modFlt f).seen = s.seen := rfl
@[simp] theorem draws_modFlt (f : FaultRegs → FaultRegs) : (s.modFlt f).draws = s.draws := rfl

@[simp] theorem cfg_modEnv (f : Env → Env) : (s.modEnv f).cfg = s.cfg := rfl
@[simp] theorem adu_modEnv (f : Env → Env) : (s.modEnv f).adu = s.adu := rfl
@[simp] theorem pdu_modEnv (f : Env → Env) : (s.modEnv f).pdu = s.pdu := rfl
@[simp] theorem seq_modEnv (f : Env → Env) : (s.modEnv f).seq = s.seq := rfl
@[simp] theorem flt_modEnv (f : Env → Env) : (s.modEnv f).flt = s.flt := rfl
@[simp] theorem env_modEnv (f : Env → Env) : (s.modEnv f).env = f s.env := rfl
@[simp] theorem script_modEnv (f : Env → Env) : (s.modEnv f).script = s.script := rfl
@[simp] theorem seen_modEnv (f : Env → Env) : (s.modEnv f).seen = s.seen := rfl
@[simp] theorem draws_modEnv (f : Env → Env) : (s.modEnv f).draws = s.draws := rfl

@[simp] theorem cfg_countDraw : (s.countDraw).cfg = s.cfg := rfl
@[simp] theorem adu_countDraw : (s.countDraw).adu = s.adu := rfl
@[simp] theorem pdu_countDraw : (s.countDraw).pdu = s.pdu := rfl
@[simp] theorem seq_countDraw : (s.countDraw).seq = s.seq := rfl
@[simp] theorem flt_countDraw : (s.countDraw).flt = s.flt := rfl
@[simp] theorem env_countDraw : (s.countDraw).env = s.env := rfl
@[simp] theorem script_countDraw : (s.countDraw).script = s.script := rfl
@[simp] theorem seen_countDraw : (s.countDraw).seen = s.seen := rfl
@[simp] theorem draws_countDraw : (s.countDraw).draws = s.draws + 1 := rfl

@[simp] theorem cfg_record (r : Watch) (v : Nat) : (s.record r v).cfg = s.cfg := rfl
@[simp] theorem adu_record (r : Watch) (v : Nat) : (s.record r v).adu = s.adu := rfl
@[simp] theorem pdu_record (r : Watch) (v : Nat) : (s.record r v).pdu = s.pdu := rfl
@[simp] theorem seq_record (r : Watch) (v : Nat) : (s.record r v).seq = s.seq := rfl
@[simp] theorem flt_record (r : Watch) (v : Nat) : (s.record r v).flt = s.flt := rfl
@[simp] theorem env_record (r : Watch) (v : Nat) : (s.record r v).env = s.env := rfl
@[simp] theorem script_record (r : Watch) (v : Nat) : (s.record r v).script = s.script := rfl
@[simp] theorem seen_record (r : Watch) (v : Nat) : (s.record r v).seen = s.seen ++ [(r, v)] := rfl
@[simp] theorem draws_record (r : Watch) (v : Nat) : (s.record r v).draws = s.draws := rfl

@[simp] theorem cfg_setPh (p : Phase) : (s.setPh p).cfg = s.cfg := rfl
@[simp] theorem adu_setPh (p : Phase) : (s.setPh p).adu = s.adu := rfl
@[simp] theorem pdu_setPh (p : Phase) : (s.setPh p).pdu = s.pdu := rfl
@[simp] theorem seq_setPh (p : Phase) : (s.setPh p).seq = { s.seq with ph := p } := rfl
@[simp] theorem flt_setPh (p : Phase) : (s.setPh p).flt = s.flt := rfl
@[simp] theorem env_setPh (p : Phase) : (s.setPh p).env = s.env := rfl
@[simp] theorem script_setPh (p : Phase) : (s.setPh p).script = s.script := rfl
@[simp] theorem seen_setPh (p : Phase) : (s.setPh p).seen = s.seen := rfl
@[simp] theorem draws_setPh (p : Phase) : (s.setPh p).draws = s.draws := rfl

@[simp] theorem cfg_setIrqMask (b : Bool) : (s.setIrqMask b).cfg = s.cfg := rfl
@[simp] theorem adu_setIrqMask (b : Bool) : (s.setIrqMask b).adu = s.adu := rfl
@[simp] theorem pdu_setIrqMask (b : Bool) : (s.setIrqMask b).pdu = s.pdu := rfl
@[simp] theorem seq_setIrqMask (b : Bool) : (s.setIrqMask b).seq = { s.seq with irqMask := b } := rfl
@[simp] theorem flt_setIrqMask (b : Bool) : (s.setIrqMask b).flt = s.flt := rfl
@[simp] theorem env_setIrqMask (b : Bool) : (s.setIrqMask b).env = s.env := rfl
@[simp] theorem script_setIrqMask (b : Bool) : (s.setIrqMask b).script = s.script := rfl
@[simp] theorem seen_setIrqMask (b : Bool) : (s.setIrqMask b).seen = s.seen := rfl
@[simp] theorem draws_setIrqMask (b : Bool) : (s.setIrqMask b).draws = s.draws := rfl

@[simp] theorem cfg_setEPend (b : Bool) : (s.setEPend b).cfg = s.cfg := rfl
@[simp] theorem adu_setEPend (b : Bool) : (s.setEPend b).adu = s.adu := rfl
@[simp] theorem pdu_setEPend (b : Bool) : (s.setEPend b).pdu = s.pdu := rfl
@[simp] theorem seq_setEPend (b : Bool) : (s.setEPend b).seq = { s.seq with ePend := b } := rfl
@[simp] theorem flt_setEPend (b : Bool) : (s.setEPend b).flt = s.flt := rfl
@[simp] theorem env_setEPend (b : Bool) : (s.setEPend b).env = s.env := rfl
@[simp] theorem script_setEPend (b : Bool) : (s.setEPend b).script = s.script := rfl
@[simp] theorem seen_setEPend (b : Bool) : (s.setEPend b).seen = s.seen := rfl
@[simp] theorem draws_setEPend (b : Bool) : (s.setEPend b).draws = s.draws := rfl

@[simp] theorem cfg_emit (e : CtlEvent) : (s.emit e).cfg = s.cfg := rfl
@[simp] theorem adu_emit (e : CtlEvent) : (s.emit e).adu = { s.adu with ctl := s.adu.ctl ++ [e] } := rfl
@[simp] theorem pdu_emit (e : CtlEvent) : (s.emit e).pdu = s.pdu := rfl
@[simp] theorem seq_emit (e : CtlEvent) : (s.emit e).seq = s.seq := rfl
@[simp] theorem flt_emit (e : CtlEvent) : (s.emit e).flt = s.flt := rfl
@[simp] theorem env_emit (e : CtlEvent) : (s.emit e).env = s.env := rfl
@[simp] theorem script_emit (e : CtlEvent) : (s.emit e).script = s.script := rfl
@[simp] theorem seen_emit (e : CtlEvent) : (s.emit e).seen = s.seen := rfl
@[simp] theorem draws_emit (e : CtlEvent) : (s.emit e).draws = s.draws := rfl

@[simp] theorem cfg_raise (c : FaultCode) (ch : Ch) : (s.raise c ch).cfg = s.cfg := rfl
@[simp] theorem adu_raise (c : FaultCode) (ch : Ch) : (s.raise c ch).adu = s.adu := rfl
@[simp] theorem pdu_raise (c : FaultCode) (ch : Ch) : (s.raise c ch).pdu = s.pdu := rfl
@[simp] theorem seq_raise (c : FaultCode) (ch : Ch) : (s.raise c ch).seq = s.seq := rfl
@[simp] theorem flt_raise (c : FaultCode) (ch : Ch) : (s.raise c ch).flt = ⟨true, c, BitVec.ofNat 2 ch.val⟩ := rfl
@[simp] theorem env_raise (c : FaultCode) (ch : Ch) : (s.raise c ch).env = s.env := rfl
@[simp] theorem script_raise (c : FaultCode) (ch : Ch) : (s.raise c ch).script = s.script := rfl
@[simp] theorem seen_raise (c : FaultCode) (ch : Ch) : (s.raise c ch).seen = s.seen := rfl
@[simp] theorem draws_raise (c : FaultCode) (ch : Ch) : (s.raise c ch).draws = s.draws := rfl

@[simp] theorem cfg_resetBlock : (s.resetBlock).cfg = s.cfg := rfl
@[simp] theorem adu_resetBlock : (s.resetBlock).adu = Adu.reset := rfl
@[simp] theorem pdu_resetBlock : (s.resetBlock).pdu = Pdu.reset := rfl
@[simp] theorem seq_resetBlock : (s.resetBlock).seq = Seq.reset := rfl
@[simp] theorem flt_resetBlock : (s.resetBlock).flt = FaultRegs.reset := rfl
@[simp] theorem env_resetBlock : (s.resetBlock).env = { s.env with buf := [], delivered := 0 } := rfl
@[simp] theorem script_resetBlock : (s.resetBlock).script = s.script := rfl
@[simp] theorem seen_resetBlock : (s.resetBlock).seen = s.seen := rfl
@[simp] theorem draws_resetBlock : (s.resetBlock).draws = s.draws := rfl

@[simp] theorem cfg_setRst (b : Bool) : (s.setRst b).cfg = s.cfg := rfl
@[simp] theorem adu_setRst (b : Bool) : (s.setRst b).adu = s.adu := rfl
@[simp] theorem pdu_setRst (b : Bool) : (s.setRst b).pdu = s.pdu := rfl
@[simp] theorem seq_setRst (b : Bool) : (s.setRst b).seq = s.seq := rfl
@[simp] theorem flt_setRst (b : Bool) : (s.setRst b).flt = s.flt := rfl
@[simp] theorem env_setRst (b : Bool) : (s.setRst b).env = { s.env with rst := b } := rfl
@[simp] theorem script_setRst (b : Bool) : (s.setRst b).script = s.script := rfl
@[simp] theorem seen_setRst (b : Bool) : (s.setRst b).seen = s.seen := rfl
@[simp] theorem draws_setRst (b : Bool) : (s.setRst b).draws = s.draws := rfl

@[simp] theorem cfg_past (r : List Stimulus) : (s.past r).cfg = s.cfg := rfl
@[simp] theorem adu_past (r : List Stimulus) : (s.past r).adu = s.adu := rfl
@[simp] theorem pdu_past (r : List Stimulus) : (s.past r).pdu = s.pdu := rfl
@[simp] theorem seq_past (r : List Stimulus) : (s.past r).seq = s.seq := rfl
@[simp] theorem flt_past (r : List Stimulus) : (s.past r).flt = s.flt := rfl
@[simp] theorem env_past (r : List Stimulus) : (s.past r).env = s.env := rfl
@[simp] theorem script_past (r : List Stimulus) : (s.past r).script = r := rfl
@[simp] theorem seen_past (r : List Stimulus) : (s.past r).seen = s.seen := rfl
@[simp] theorem draws_past (r : List Stimulus) : (s.past r).draws = s.draws := rfl

@[simp] theorem env_undrive : s.undrive.env = { s.env with rem := none, pins := none, cnt := none, outcmd := none } := rfl
@[simp] theorem cfg_undrive : s.undrive.cfg = s.cfg := rfl
@[simp] theorem adu_undrive : s.undrive.adu = s.adu := rfl
@[simp] theorem pdu_undrive : s.undrive.pdu = s.pdu := rfl
@[simp] theorem seq_undrive : s.undrive.seq = s.seq := rfl
@[simp] theorem flt_undrive : s.undrive.flt = s.flt := rfl
@[simp] theorem script_undrive : s.undrive.script = s.script := rfl
@[simp] theorem seen_undrive : s.undrive.seen = s.seen := rfl
@[simp] theorem draws_undrive : s.undrive.draws = s.draws := rfl
@[simp] theorem undrive_undrive : s.undrive.undrive = s.undrive := rfl

@[simp] theorem env_release : s.release.env =
    { s.env with rem := none, pins := none, cnt := none, outcmd := none, instant := s.env.instant + 1 } := rfl
@[simp] theorem cfg_release : s.release.cfg = s.cfg := rfl
@[simp] theorem adu_release : s.release.adu = s.adu := rfl
@[simp] theorem pdu_release : s.release.pdu = s.pdu := rfl
@[simp] theorem seq_release : s.release.seq = s.seq := rfl
@[simp] theorem flt_release : s.release.flt = s.flt := rfl
@[simp] theorem script_release : s.release.script = s.script := rfl
@[simp] theorem seen_release : s.release.seen = s.seen := rfl
@[simp] theorem draws_release : s.release.draws = s.draws := rfl

end Sys2Proof.Machine.State
end

