-- ==== Sys2Proof/Laws/Adc.lean ====
section
/-! SUPPORT. What the pieces of `DR_RUN` do, said once: the clamp, the read, the consuming loop, the re-arm, the assertions,
the sub-step as a whole. -/

namespace Sys2Proof.Machine

/-! ### Arithmetic -/

/-- The clamp of R99 is saturation to `[0, 2047]`. -/
theorem clampSample_eq (x : Sample) : clampSample (sext16 x) = saturated x := by
  simp only [clampSample, clamp, sext16, saturated]
  split_ifs <;> omega

theorem saturated_le (x : Sample) : saturated x ≤ 2047 := by
  simp only [saturated]; omega

theorem available_eq_unread (s : State) :
    available s.cfg.cap s.adu.cursor (s.cfg.cap - portRem s) = unread s := by
  rw [portRem_eq]; rfl

theorem cap_pos (c : Config) : 0 < c.cap := Nat.two_pow_pos _

theorem bufData_eq (m : Memory) (j d : Nat) : bufData m j d = (Memory.lookup j m).getD (Config.freeSample d) := by
  unfold bufData
  cases Memory.lookup j m <;> rfl

/-! ### The laws of R107, of the pieces they speak of -/

/-- R107 a: no sample, output 0. -/
theorem average_of_no_sample {a : Acc} {ch : Ch} (h : a.count.get ch = 0) : average a ch = 0 := by
  simp [average, h]

/-- R107 b: samples that are all `v` average to `v << 4`, however many there are. -/
theorem average_of_constant {a : Acc} {ch : Ch} {v : Nat} (h : a.count.get ch ≠ 0)
    (ht : a.total.get ch = v * a.count.get ch) : average a ch = v * 16 := by
  rw [average, if_pos h, ht, Nat.mul_right_comm, Nat.mul_div_cancel _ (Nat.pos_of_ne_zero h)]

/-- R107 c: a clamped sample in place of the sample clamps to the same number. -/
theorem clampSample_of_clamped (x : Sample) : clampSample (sext16 (BitVec.ofNat 16 (clampSample (sext16 x)))) =
    clampSample (sext16 x) := by
  rw [clampSample_eq x]
  have h := saturated_le x
  have ht : (BitVec.ofNat 16 (saturated x)).toInt = saturated x := by
    rw [BitVec.toInt_eq_toNat_of_lt] <;> rw [BitVec.toNat_ofNat] <;> omega
  rw [clampSample_eq, saturated, ht]
  omega

/-- R107 e: a greater sample clamps to no smaller number. -/
theorem clampSample_mono {x y : Int} (h : x ≤ y) : clampSample x ≤ clampSample y := by
  simp only [clampSample, clamp]
  split_ifs <;> omega

/-- R107 e: of as many samples, a greater total has no smaller average. -/
theorem average_mono {a b : Acc} {ch : Ch} (hc : a.count.get ch = b.count.get ch) (ht : a.total.get ch ≤ b.total.get ch) :
    average a ch ≤ average b ch := by
  simp only [average, hc]
  split_ifs
  · exact Nat.div_le_div_right (Nat.mul_le_mul_right 16 ht)
  · exact le_refl 0

/-! ### The consuming loop (R98) -/

theorem consume_succ (k : Nat) (p : State × Acc) : consume (k + 1) p = consumeOne (consume k p) := by
  induction k generalizing p with
  | zero => rfl
  | succ k ih => exact ih (consumeOne p)

@[simp] theorem channelOf_val (j : Nat) : (channelOf j).val = j % 4 := rfl

theorem channelOf_eq_iff (j : Nat) (ch : Ch) : ch = channelOf j ↔ j % 4 = ch.val := by
  rw [Fin.ext_iff, channelOf_val]; exact eq_comm

theorem add_total (a : Acc) (j v : Nat) (ch : Ch) :
    (a.add (channelOf j) v).total.get ch = a.total.get ch + if j % 4 = ch.val then v else 0 := by
  simp only [Acc.add, Quad.get_set, ← channelOf_eq_iff]
  split_ifs with h
  · rw [h]
  · rfl

theorem add_count (a : Acc) (j v : Nat) (ch : Ch) :
    (a.add (channelOf j) v).count.get ch = a.count.get ch + if j % 4 = ch.val then 1 else 0 := by
  simp only [Acc.add, Quad.get_set, ← channelOf_eq_iff]
  split_ifs with h
  · rw [h]
  · rfl

/-- The state after `k` turns of the loop: only `cursor`, `buf_idx` and the draw counter have moved. -/
def consumed (s : State) (k : Nat) : State :=
  { s with
    adu := { s.adu with cursor := sampleIndex s k }
    env := { s.env with bufIdx := if k = 0 then s.env.bufIdx else some (sampleIndex s (k - 1)) }
    draws := s.draws + k }

theorem consumed_zero {s : State} (h : s.adu.cursor < s.cfg.cap) : consumed s 0 = s := by
  have : s.adu.cursor % s.cfg.cap = s.adu.cursor := Nat.mod_eq_of_lt h
  simp [consumed, sampleIndex, this]

/-- One turn from the state after `k` turns: the accumulators gain the `k`-th sample, clamped, under the channel of its
buffer index. -/
theorem consumeOne_consumed (s : State) (k : Nat) (a : Acc) :
    consumeOne (consumed s k, a) =
      (consumed s (k + 1), a.add (channelOf (sampleIndex s k)) (saturated (sampleRead s k))) := by
  have hidx : nextIndex s.cfg (sampleIndex s k) = sampleIndex s (k + 1) := by
    simp only [nextIndex, sampleIndex, ← Nat.add_assoc, Nat.mod_add_mod]
  simp only [consumeOne, bufRead, consumed, State.modEnv, State.modAdu, State.countDraw, clampSample_eq, bufData_eq]
  rw [hidx]
  rfl

/-- Step 4 as a whole: the loop reads the `k` samples from `cursor` on, and each accumulator ends with the sum and the count
of its channel. -/
theorem consume_eq {s : State} (h : s.adu.cursor < s.cfg.cap) (k : Nat) :
    ∃ a : Acc, consume k (s, Acc.zero) = (consumed s k, a) ∧
      (∀ ch, a.total.get ch = totalOver s k ch) ∧ ∀ ch, a.count.get ch = countOver s k ch := by
  induction k with
  | zero =>
    refine ⟨Acc.zero, by simp [consume, consumed_zero h], fun ch => ?_, fun ch => ?_⟩ <;>
      simp [Acc.zero, totalOver, countOver]
  | succ k ih =>
    obtain ⟨a, hk, ht, hc⟩ := ih
    refine ⟨_, by rw [consume_succ, hk, consumeOne_consumed], fun ch => ?_, fun ch => ?_⟩
    · rw [add_total, ht, totalOver, totalOver, Finset.sum_range_succ]
    · rw [add_count, hc, countOver, countOver, Finset.sum_range_succ]

/-! ### Bounds (R102) -/

theorem totalOver_le (s : State) (n : Nat) (ch : Ch) : totalOver s n ch ≤ 2047 * countOver s n ch := by
  rw [totalOver, countOver, Finset.mul_sum]
  refine Finset.sum_le_sum fun k _ => ?_
  split_ifs
  · simpa using saturated_le _
  · simp

theorem average_le {t c : Nat} (h : t ≤ 2047 * c) : t * 16 / c ≤ 32752 := by
  rcases Nat.eq_zero_or_pos c with rfl | hc
  · simp
  · exact Nat.div_le_of_le_mul (by nlinarith)

theorem channelAverage_le (s : State) (ch : Ch) : channelAverage s ch ≤ 32752 := by
  unfold channelAverage
  split_ifs
  · omega
  · exact average_le (totalOver_le _ _ _)

theorem channelAverages_toNat (s : State) (ch : Ch) : ((channelAverages s).get ch).toNat = channelAverage s ch := by
  have := channelAverage_le s ch
  rw [channelAverages, Quad.get_ofFn, BitVec.toNat_ofNat]
  omega

/-! ### The re-arm (R96) -/

/-- What a re-arm changes, and nothing else. -/
theorem rearm_eq (s : State) :
    rearm s =
      { s with
        adu := { s.adu with ctl := s.adu.ctl ++ rearmEvents s.cfg, rearmCount := s.adu.rearmCount + 1 }
        seq := { s.seq with irqMask := false }
        env := { s.env with buf := [], rearmDue := true } } := by
  simp [rearm, rearmEvents, State.setIrqMask, State.emit, State.modAdu, State.modSeq, State.modEnv]

/-- R107 d: a run that found an overrun has re-armed once, has the cursor at 0 and has consumed nothing. -/
theorem runHealth_overrun (avail : Nat) (s : State) :
    (runHealth .overrun avail s).2 = Acc.zero ∧ (runHealth .overrun avail s).1.adu.cursor = 0 ∧
      (runHealth .overrun avail s).1.adu.rearmCount = s.adu.rearmCount + 1 ∧
      (runHealth .overrun avail s).1.adu.ctl = s.adu.ctl ++ rearmEvents s.cfg ∧
      (runHealth .overrun avail s).1.draws = s.draws := by
  have h : (runHealth .overrun avail s).1 = _ := rearm_eq _
  rw [h]
  exact ⟨rfl, rfl, rfl, rfl, rfl⟩

/-! ### The assertions (R101) -/

theorem average_zero (ch : Ch) : average Acc.zero ch = 0 := by
  simp [average, Acc.zero]

theorem firstFailure_zero (c : Config) : firstFailure c Acc.zero = none := by
  have : ∀ ch, channelFailure c Acc.zero ch = none := fun ch => by
    rw [channelFailure, average_zero]
    simp [Acc.zero]
  unfold firstFailure
  split_ifs <;> simp [this]

theorem averages_zero : averages Acc.zero = Quad.fill 0 := by decide

/-- Where no average exceeds its bound the assertions look at the counts only. -/
theorem channelFailure_of_le {c : Config} {a : Acc} {ch : Ch} (h : average a ch ≤ 32768) :
    channelFailure c a ch = if c.cntMax < a.count.get ch then some (.countRange, ch) else none := by
  unfold channelFailure
  split_ifs <;> first | rfl | omega

theorem firstFailure_eq_none {c : Config} {a : Acc} (havg : ∀ ch, average a ch ≤ 32768)
    (h : c.debugAssert = true → ∀ ch, a.count.get ch ≤ c.cntMax) : firstFailure c a = none := by
  unfold firstFailure
  split_ifs with hd
  · simp only [List.findSome?_eq_none_iff]
    intro ch _
    rw [channelFailure_of_le (havg ch), if_neg (by have := h hd ch; omega)]
  · rfl

/-- The failure reported is the first in channel order (R170 c). -/
theorem firstFailure_eq_some {c : Config} {a : Acc} {ch : Ch} (havg : ∀ ch, average a ch ≤ 32768)
    (hd : c.debugAssert = true) (hch : c.cntMax < a.count.get ch) (hlt : ∀ i < ch, a.count.get i ≤ c.cntMax) :
    firstFailure c a = some (.countRange, ch) := by
  have hf : ∀ i, channelFailure c a i = if c.cntMax < a.count.get i then some (.countRange, i) else none :=
    fun i => channelFailure_of_le (havg i)
  unfold firstFailure
  rw [if_pos hd]
  have h : ∀ i < ch, channelFailure c a i = none := fun i hi => by
    rw [hf, if_neg (by have := hlt i hi; omega)]
  have hc : channelFailure c a ch = some (.countRange, ch) := by rw [hf, if_pos hch]
  fin_cases ch
  · simp_all
  · have h0 := h 0 (by decide)
    simp_all
  · have h0 := h 0 (by decide)
    have h1 := h 1 (by decide)
    simp_all
  · have h0 := h 0 (by decide)
    have h1 := h 1 (by decide)
    have h2 := h 2 (by decide)
    simp_all

theorem firstFailure_countRange {c : Config} {a : Acc} {code : FaultCode} {ch : Ch}
    (havg : ∀ ch, average a ch ≤ 32768) (h : firstFailure c a = some (code, ch)) :
    code = .countRange ∧ c.debugAssert = true ∧ c.cntMax < a.count.get ch := by
  unfold firstFailure at h
  split_ifs at h with hd
  obtain ⟨i, -, hi⟩ := List.exists_of_findSome?_eq_some h
  rw [channelFailure_of_le (havg i)] at hi
  split_ifs at hi with hc
  cases hi
  exact ⟨rfl, hd, hc⟩

/-! ### The sub-step as a whole (R104) -/

/-- `filled mod CAP` is where a healthy run leaves the cursor (R98, R46). -/
theorem sampleIndex_unread {s : State} (hc : s.adu.cursor < s.cfg.cap) :
    sampleIndex s (unread s) = filledOf s % s.cfg.cap := by
  unfold sampleIndex unread
  split_ifs with h
  · congr 1; omega
  · have : s.adu.cursor + (s.cfg.cap - s.adu.cursor + filledOf s) = filledOf s + s.cfg.cap := by omega
    rw [this, Nat.add_mod_right]

theorem healthCheck_ok {s : State} (h : Healthy s) : healthCheck s.cfg.cap (unread s) = .ok := by
  have := h.1
  have := h.2
  unfold healthCheck
  rw [if_neg (by omega), if_neg (by omega)]

/-- What a healthy `DR_RUN` has done when it comes to the assertions. -/
def ranOk (s : State) : State :=
  { s with
    adu := { s.adu with cursor := filledOf s % s.cfg.cap, drainStatus := .ok }
    env := drainedEnv s
    draws := s.draws + unread s }

theorem runHealth_ok {s : State} (hr : DrainReady s) (h : Healthy s) :
    ∃ a : Acc, runHealth .ok (unread s) s = (ranOk s, a) ∧
      (∀ ch, average a ch = channelAverage s ch) ∧ ∀ ch, a.count.get ch = channelCount s ch := by
  obtain ⟨a, he, ht, hc⟩ :=
    consume_eq (s := (drainTaken s).modAdu fun a => { a with drainStatus := .ok }) hr.2 (unread s)
  refine ⟨a, ?_, fun ch => ?_, hc⟩
  · simp only [runHealth, he]
    have hpos := h.1
    simp only [consumed, ranOk, drainedEnv, drainTaken, State.modEnv, State.modAdu, Prod.mk.injEq, and_true]
    rw [if_neg (by omega), ← sampleIndex_unread hr.2]
    rfl
  · simp only [average, ht, hc]
    unfold channelAverage channelTotal channelCount
    have e1 : totalOver ((drainTaken s).modAdu fun a => { a with drainStatus := .ok }) (unread s) ch = totalOver s (unread s) ch := rfl
    have e2 : countOver ((drainTaken s).modAdu fun a => { a with drainStatus := .ok }) (unread s) ch = countOver s (unread s) ch := rfl
    rw [e1, e2]
    split_ifs <;> first | rfl | contradiction

theorem average_bound {s : State} {a : Acc} (h : ∀ ch, average a ch = channelAverage s ch) (ch : Ch) :
    average a ch ≤ 32768 := by
  have := channelAverage_le s ch
  rw [h]; omega

theorem drRun_ready {s : State} (hr : DrainReady s) :
    drRun s = .next (finishRun (runHealth (healthCheck s.cfg.cap (unread s)) (unread s) s)) := by
  unfold drRun
  rw [if_neg (by have := hr.1; rw [portRem_eq]; omega), if_neg (by have := hr.2; omega)]
  simp only [available_eq_unread]

/-- A healthy `DR_RUN` whose assertions hold: the averages are in `avg`, `ph` is `PUB`. -/
theorem drRun_healthy {s : State} (hr : DrainReady s) (h : Healthy s) (hc : CountsAllowed s) :
    drRun s = .next (((ranOk s).modAdu fun a => { a with avg := channelAverages s }).setPh .pub) := by
  obtain ⟨a, he, havg, hcount⟩ := runHealth_ok hr h
  rw [drRun_ready hr, healthCheck_ok h, he, finishRun]
  rw [firstFailure_eq_none (average_bound havg) (fun hd ch => by rw [hcount]; exact hc hd ch)]
  have : averages a = channelAverages s := by simp [averages, channelAverages, havg]
  rw [this]

/-- A healthy `DR_RUN` whose first failing assertion is channel `ch`'s: the block is halted, no average is written. -/
theorem drRun_countFault {s : State} {ch : Ch} (hr : DrainReady s) (h : Healthy s) (hd : s.cfg.debugAssert = true)
    (hch : s.cfg.cntMax < channelCount s ch) (hlt : ∀ i < ch, channelCount s i ≤ s.cfg.cntMax) :
    drRun s = .next ((ranOk s).raise .countRange ch) := by
  obtain ⟨a, he, havg, hcount⟩ := runHealth_ok hr h
  rw [drRun_ready hr, healthCheck_ok h, he, finishRun]
  have := firstFailure_eq_some (c := s.cfg) (average_bound havg) hd (by rw [hcount]; exact hch)
    (fun i hi => by rw [hcount]; exact hlt i hi)
  have hcfg : (ranOk s).cfg = s.cfg := rfl
  simp only [hcfg, this]

/-- The state after a `DR_RUN` that re-armed. -/
def ranRearm (s : State) : State :=
  { s with
    adu := { rearmedAdu s with adcOut := s.adu.adcOut }
    seq := { s.seq with irqMask := false, ph := .pub }
    env := rearmedEnv s }

/-- A `DR_RUN` that finds the buffer desynchronized re-arms, consumes nothing and averages nothing. -/
theorem drRun_rearm {s : State} (hr : DrainReady s) (h : ¬ Healthy s) : drRun s = .next (ranRearm s) := by
  rw [drRun_ready hr]
  have key : ∀ d : DrainStatus,
      finishRun (rearm (((drainTaken s).modAdu fun a => { a with drainStatus := d }).modAdu fun a => { a with cursor := 0 }), Acc.zero)
        = { ranRearm s with adu := { (ranRearm s).adu with drainStatus := d } } := fun d => by
    simp [finishRun, firstFailure_zero, averages_zero, rearm_eq, ranRearm, rearmedAdu, rearmedEnv, drainTaken, State.modAdu,
      State.setPh, State.modSeq, State.modEnv]
  unfold healthCheck
  by_cases h0 : unread s = 0
  · rw [if_pos h0]
    simp only [runHealth, key]
    simp [ranRearm, rearmedAdu, h0]
  · have : 8 * unread s > 7 * s.cfg.cap := by
      by_contra hcon
      exact h ⟨by omega, by omega⟩
    rw [if_neg h0, if_pos this]
    simp only [runHealth, key]
    simp [ranRearm, rearmedAdu, h0]

/-- Everything a `DR_RUN` can do when it answers a next state. -/
theorem drRun_cases {s t : State} (h : drRun s = .next t) :
    DrainReady s ∧
      ((Healthy s ∧ CountsAllowed s ∧
          t = ((ranOk s).modAdu fun a => { a with avg := channelAverages s }).setPh .pub) ∨
        (Healthy s ∧ s.cfg.debugAssert = true ∧ ∃ ch, s.cfg.cntMax < channelCount s ch ∧
          (∀ i < ch, channelCount s i ≤ s.cfg.cntMax) ∧ t = (ranOk s).raise .countRange ch) ∨
        (¬ Healthy s ∧ t = ranRearm s)) := by
  have hr : DrainReady s := by
    unfold drRun at h
    rw [portRem_eq] at h
    split_ifs at h with h1 h2
    exact ⟨by omega, by omega⟩
  refine ⟨hr, ?_⟩
  by_cases hh : Healthy s
  · by_cases hc : CountsAllowed s
    · rw [drRun_healthy hr hh hc] at h
      exact .inl ⟨hh, hc, by injection h with h; exact h.symm⟩
    · have hd : s.cfg.debugAssert = true := by
        by_contra hd
        exact hc fun hd' => absurd hd' hd
      have hex : ∃ ch, s.cfg.cntMax < channelCount s ch := by
        by_contra hno
        push Not at hno
        exact hc fun _ => hno
      obtain ⟨ch, hch, hmin⟩ := WellFounded.has_min (r := fun (a b : Ch) => a < b) wellFounded_lt
        {ch | s.cfg.cntMax < channelCount s ch} hex
      have hlt : ∀ i < ch, channelCount s i ≤ s.cfg.cntMax := fun i hi => by
        by_contra hcon
        exact hmin i (by simpa using hcon) hi
      rw [drRun_countFault hr hh hd hch hlt] at h
      exact .inr (.inl ⟨hh, hd, ch, hch, hlt, by injection h with h; exact h.symm⟩)
  · rw [drRun_rearm hr hh] at h
    exact .inr (.inr ⟨hh, by injection h with h; exact h.symm⟩)

/-- A sample of `rem` above `CAP` is refused, whatever else (R57, U1). -/
theorem drRun_rem {s : State} (h : s.cfg.cap < remSeen s) : drRun s = .refused .remOutOfContract :=
  if_pos (by rw [portRem_eq]; exact h)

/-- A cursor that names no location is a fault. -/
theorem drRun_cursor {s : State} (hr : remSeen s ≤ s.cfg.cap) (h : s.cfg.cap ≤ s.adu.cursor) :
    drRun s = .fault .noSuchLocation := by
  unfold drRun
  rw [if_neg (by rw [portRem_eq]; omega), if_pos h]

end Sys2Proof.Machine
end

