-- ==== Sys2Proof/Laws/Pwm.lean ====
section
/-! SUPPORT. What the pieces of `EDGE` do, said once in the spec's own formulas. -/

namespace Sys2Proof.Machine

/-- The wraparound-safe subtraction is subtraction modulo `m` on mathematical integers (R17, R123). -/
theorem subMod_eq (a b m : Nat) (hm : 0 < m) : subMod a b m = (((a : Int) - (b : Int)) % (m : Int)).toNat := by
  have hb : b % m < m := Nat.mod_lt b hm
  have h1 : ((subMod a b m : Nat) : Int) = ((a : Int) - (b : Int)) % (m : Int) := by
    unfold subMod
    have hb' : (b : Int) = (m : Int) * ((b / m : Nat) : Int) + ((b % m : Nat) : Int) := by
      exact_mod_cast (Nat.div_add_mod b m).symm
    have : ((a + (m - b % m) : Nat) : Int) = ((a : Int) - (b : Int)) + (m : Int) * (1 + ((b / m : Nat) : Int)) := by
      push_cast [Nat.le_of_lt hb]
      rw [mul_add]
      push_cast at hb'
      linarith
    rw [Int.natCast_mod, this, Int.add_mul_emod_self_left]
  rw [← h1, Int.toNat_natCast]

theorem dutyOf_eq (c : Config) (d : Nat) : dutyOf c d = BitVec.ofNat 16 (dutyNumber c d) := by
  unfold dutyOf dutyNumber
  split_ifs <;> rfl

theorem dutyNumber_lt (c : Config) (d : Nat) : dutyNumber c d < 65536 := by
  unfold dutyNumber
  split_ifs <;> omega

theorem wf_pwmBit_lt {c : Config} (h : c.wf = true) (i : Ch) : c.pwmBit.get i < 8 := by
  simp only [Config.wf, Bool.and_eq_true, decide_eq_true_eq] at h
  exact h.1.2 i

theorem wf_pwmBit_inj {c : Config} (h : c.wf = true) {i j : Ch} (hij : c.pwmBit.get i = c.pwmBit.get j) : i = j := by
  simp only [Config.wf, Bool.and_eq_true, decide_eq_true_eq] at h
  exact h.2 i j hij

theorem wf_tHigh_lt {c : Config} (h : c.wf = true) : c.tHigh < c.cntMod := by
  simp only [Config.wf, Bool.and_eq_true, decide_eq_true_eq] at h
  exact h.1.1.2

theorem wf_log2Cap {c : Config} (h : c.wf = true) : 2 ≤ c.log2Cap := by
  simp only [Config.wf, Bool.and_eq_true, decide_eq_true_eq] at h
  exact h.1.1.1.1.1

/-- Every PWM pin is monitored (R12). -/
theorem monMask_getLsbD {c : Config} (h : c.wf = true) (i : Ch) : (monMask c).getLsbD (c.pwmBit.get i) = true := by
  have hb := wf_pwmBit_lt h i
  have key : ∀ b, b < 8 → (1#8 <<< b).getLsbD b = true := by decide
  unfold monMask
  simp only [BitVec.getLsbD_or, Bool.or_eq_true]
  fin_cases i
  · exact .inl (.inl (.inl (key _ hb)))
  · exact .inl (.inl (.inr (key _ hb)))
  · exact .inl (.inr (key _ hb))
  · exact .inr (key _ hb)

theorem edgeChanged_bit {s : State} (h : s.cfg.wf = true) (i : Ch) :
    pinBit (edgeChanged s) (s.cfg.pwmBit.get i) = decide (edged s i) := by
  simp only [pinBit, edgeChanged, edgeLevels, portPins_eq, BitVec.getLsbD_xor, BitVec.getLsbD_and, monMask_getLsbD h,
    Bool.and_true, edged]
  cases (pinsSeen s).getLsbD (s.cfg.pwmBit.get i) <;> cases s.pdu.lastLevels.getLsbD (s.cfg.pwmBit.get i) <;> rfl

theorem cntMod_pos (c : Config) : 0 < c.cntMod := Nat.two_pow_pos _

theorem edgeStamp_eq {s : State} (h : s.cfg.wf = true) (i : Ch) :
    edgeStamp s i = if edged s i then cntSeen s else s.pdu.riseTs.get i := by
  simp only [edgeStamp, edgeChanged_bit h, decide_eq_true_eq, portCnt_eq]

theorem edgeValue_eq {s : State} (h : s.cfg.wf = true) (i : Ch) :
    edgeValue s i =
      if fell s i then BitVec.ofNat 16 (dutyNumber s.cfg (interval s i)) else s.pdu.pwmValue.get i := by
  have hiff : (pinBit (edgeChanged s) (s.cfg.pwmBit.get i) && pinBit s.pdu.lastLevels (s.cfg.pwmBit.get i)) =
      decide (fell s i) := by
    rw [edgeChanged_bit h]
    simp only [edged, fell, pinBit]
    cases (pinsSeen s).getLsbD (s.cfg.pwmBit.get i) <;> cases s.pdu.lastLevels.getLsbD (s.cfg.pwmBit.get i) <;> rfl
  have hint : subMod (portCnt s) (s.pdu.riseTs.get i) s.cfg.cntMod = interval s i := by
    rw [portCnt_eq]; exact subMod_eq _ _ _ (cntMod_pos _)
  simp only [edgeValue, hiff, decide_eq_true_eq, dutyOf_eq, hint]

/-- `EDGE` as the edge agent executes it, in one piece: also where no monitored pin changed, for then the levels it would
write are the ones already there (R122). -/
theorem edgeBody_eq {s : State} (h : s.cfg.wf = true) :
    edgeBody s = { s with seq := servedSeq s, pdu := edgedPdu s } := by
  have hst : edgeStamp s = fun i => if edged s i then cntSeen s else s.pdu.riseTs.get i :=
    funext fun i => edgeStamp_eq h i
  have hval : edgeValue s =
      fun i => if fell s i then BitVec.ofNat 16 (dutyNumber s.cfg (interval s i)) else s.pdu.pwmValue.get i :=
    funext fun i => edgeValue_eq h i
  have hcur : edgeLevels s = pinsSeen s &&& monMask s.cfg := by rw [edgeLevels, portPins_eq]
  by_cases hc : edgeChanged s = 0
  · have hlev : pinsSeen s &&& monMask s.cfg = s.pdu.lastLevels := by
      rw [← hcur]; exact BitVec.xor_eq_zero_iff.1 hc
    have hno : ∀ i, ¬ edged s i := fun i => by
      have := edgeChanged_bit h i
      rw [hc] at this
      simpa [pinBit] using this
    have hnf : ∀ i, ¬ fell s i := fun i hf => hno i (by simp [edged, hf.1, hf.2])
    have hpdu : edgedPdu s = s.pdu := by
      simp only [edgedPdu, hno, hnf, if_false, hlev]
      rfl
    simp only [edgeBody, if_pos hc, hpdu]
    rfl
  · simp only [edgeBody, if_neg hc, hst, hval, hcur]
    rfl

/-- The edge agent's step: `EDGE` where it has one, nothing else ever. -/
theorem eaStep_open {s : State} (h : s.cfg.wf = true) (he : EdgeOpen s) (hp : s.seq.ePend = true) :
    eaStep s = { s with seq := servedSeq s, pdu := edgedPdu s } := by
  have : eaEnabled s = true := by simp [eaEnabled, he.1, he.2.1, he.2.2, hp]
  rw [eaStep, if_pos this, edgeBody_eq h]

theorem eaStep_closed {s : State} (h : eaEnabled s = false) : eaStep s = s := by
  simp [eaStep, h]

end Sys2Proof.Machine
end

