-- ==== Sys2Proof/Laws/Sequencer.lean ====
section
/-! SUPPORT. The periodic agent's sub-steps, said once: publication, what each sub-step can do, and that the sub-steps do not
depend on the script. -/

namespace Sys2Proof.Machine

/-! ### Publication (R103, R146) -/

theorem setAll_eq (p q : Quad Sample) :
    (((p.set 0 (q.get 0)).set 1 (q.get 1)).set 2 (q.get 2)).set 3 (q.get 3) = q := by
  apply Quad.ext_get
  intro ch
  fin_cases ch <;> simp [Quad.get_set]

/-- The digital I/O registers after a `PUB`: written by that of a `CYCLE` only. -/
def publishedSeq (q : Seq) : Seq :=
  { q with
    dinState := if q.inCycle then q.latDin else q.dinState
    pwmOut := if q.inCycle then q.latPwm else q.pwmOut
    inCycle := false
    ph := .idle }

/-- A whole `PUB`. -/
theorem publish_eq (s : State) :
    publish s = { s with adu := { s.adu with adcOut := s.adu.avg }, seq := publishedSeq s.seq } := by
  cases h : s.seq.inCycle <;>
    simp [publish, publishWatched, callsWatched, setterCalls, h, setPrimaryChannel, setCurrentVoltage, setAuxiliaryChannel,
      setInputPinState, setPwmValues, State.modAdu, State.modSeq, setAll_eq, publishedSeq]

/-- Other reads on record. -/
def State.withSeen (s : State) (l : List (Watch × Nat)) : State := { s with seen := l }

/-- A run of reads changes nothing but the list of what has been read. -/
theorem readAll_eq (rs : List Watch) (s : State) :
    readAll rs s = s.withSeen (s.seen ++ rs.map fun r => (r, observed s r)) := by
  have key : ∀ (rs : List Watch) (l : List (Watch × Nat)),
      readAll rs (s.withSeen l) = s.withSeen (l ++ rs.map fun r => (r, observed s r)) := by
    intro rs
    induction rs with
    | nil => intro l; simp [readAll]
    | cons r rs ih =>
      intro l
      rw [readAll, List.foldl_cons]
      exact (ih (l ++ [(r, observed s r)])).trans (by simp)
  exact key rs s.seen

/-- What is read among setter calls, in the order of the reads. -/
def readings : List (State → State) → List (List Watch) → State → List (Watch × Nat)
  | _, [], _ => []
  | [], rs :: watch, s => rs.map (fun r => (r, observed s r)) ++ readings [] watch s
  | f :: calls, rs :: watch, s => rs.map (fun r => (r, observed s r)) ++ readings calls watch (f s)

/-- A setter call neither reads nor writes the list of what has been read. -/
theorem setterCalls_withSeen {b : Bool} {f : State → State} (hf : f ∈ setterCalls b) (s : State) (l : List (Watch × Nat)) :
    f (s.withSeen l) = (f s).withSeen l ∧ (f s).seen = s.seen := by
  cases b <;> simp only [setterCalls, Bool.false_eq_true, if_false, if_true, List.mem_cons, List.not_mem_nil, or_false] at hf
  · obtain rfl | rfl | rfl := hf <;> exact ⟨rfl, rfl⟩
  · obtain rfl | rfl | rfl | rfl | rfl := hf <;> exact ⟨rfl, rfl⟩

/-- Calls that leave the list of what has been read alone: watching them only adds to that list. -/
theorem callsWatched_eq {calls : List (State → State)}
    (h : ∀ f ∈ calls, ∀ (s : State) l, f (s.withSeen l) = (f s).withSeen l ∧ (f s).seen = s.seen)
    (watch : List (List Watch)) (s : State) (l : List (Watch × Nat)) :
    callsWatched calls watch (s.withSeen l) =
      (calls.foldl (fun t f => f t) s).withSeen (l ++ readings calls watch s) := by
  have fold : ∀ calls : List (State → State),
      (∀ f ∈ calls, ∀ (s : State) l, f (s.withSeen l) = (f s).withSeen l ∧ (f s).seen = s.seen) →
      ∀ (s : State) l, calls.foldl (fun t f => f t) (s.withSeen l) = (calls.foldl (fun t f => f t) s).withSeen l := by
    intro calls h
    induction calls with
    | nil => intro s l; rfl
    | cons f calls ih =>
      intro s l
      rw [List.foldl_cons, (h f (List.mem_cons_self ..) s l).1]
      exact ih (fun g hg => h g (List.mem_cons_of_mem _ hg)) (f s) l
  induction watch generalizing calls s l with
  | nil => cases calls <;> simp [callsWatched, readings, fold _ h]
  | cons rs watch ih =>
    have hr : readAll rs (s.withSeen l) = s.withSeen (l ++ rs.map fun r => (r, observed s r)) := readAll_eq rs (s.withSeen l)
    cases calls with
    | nil => rw [callsWatched, hr, ih h, readings, List.append_assoc]
    | cons f calls =>
      rw [callsWatched, hr, (h f (List.mem_cons_self ..) s _).1, ih (fun g hg => h g (List.mem_cons_of_mem _ hg)),
        readings, List.append_assoc, List.foldl_cons]

/-- Observers reading inside a `PUB` change nothing but the list of what has been read (R63). -/
theorem publishWatched_eq (watch : List (List Watch)) (s : State) :
    publishWatched watch s =
      { publish s with seen := s.seen ++ readings (setterCalls s.seq.inCycle) watch s } := by
  have h := fun w => callsWatched_eq (calls := setterCalls s.seq.inCycle) (fun _ hf => setterCalls_withSeen hf) w s s.seen
  unfold publish publishWatched
  rw [show callsWatched _ watch s = _ from h watch, show callsWatched _ [] s = _ from h []]
  rfl

theorem publishWatched_nil (s : State) : publishWatched [] s = publish s := rfl

/-! ### Which agent has a step -/

theorem pSampled_iff (s : State) :
    pSampled s = true ↔ s.seq.ph = .idle ∧ s.flt.halted = false ∧ s.env.rst = false := by
  simp [pSampled, pBusy, and_assoc]

theorem paEnabled_iff (s : State) :
    paEnabled s = true ↔ s.seq.ph ≠ .idle ∧ s.flt.halted = false ∧ s.env.rst = false := by
  simp [paEnabled, pBusy, and_assoc]

theorem eaEnabled_iff (s : State) :
    eaEnabled s = true ↔
      s.seq.ePend = true ∧ s.seq.irqMask = false ∧ s.flt.halted = false ∧ s.env.rst = false := by
  simp [eaEnabled, and_assoc]

/-! ### The sub-steps (R142 to R146) -/

/-- Everything a sub-step of the periodic agent can do when it answers a next state. -/
theorem paStepWatched_cases {watch : List (List Watch)} {s t : State} (h : paStepWatched watch s = .next t) :
    (paEnabled s = false ∧ t = s) ∨
      (paEnabled s = true ∧
        ((s.seq.ph = .cyOut ∧ t = cyOut s) ∨ (s.seq.ph = .cyIn ∧ t = cyIn s) ∨
          (∃ i, s.seq.ph = .cyPwm i ∧ t = cyPwm i s) ∨ (s.seq.ph = .drRun ∧ drRun s = .next t) ∨
            (s.seq.ph = .pub ∧ t = publishWatched watch s))) := by
  unfold paStepWatched at h
  split_ifs at h with he
  · refine .inr ⟨he, ?_⟩
    cases hp : s.seq.ph with
    | idle => exact absurd hp ((paEnabled_iff s).1 he).1
    | cyOut => rw [hp] at h; injection h with h; exact .inl ⟨rfl, h.symm⟩
    | cyIn => rw [hp] at h; injection h with h; exact .inr (.inl ⟨rfl, h.symm⟩)
    | cyPwm i => rw [hp] at h; injection h with h; exact .inr (.inr (.inl ⟨i, rfl, h.symm⟩))
    | drRun => rw [hp] at h; exact .inr (.inr (.inr (.inl ⟨rfl, h⟩)))
    | pub => rw [hp] at h; injection h with h; exact .inr (.inr (.inr (.inr ⟨rfl, h.symm⟩)))
  · injection h with h
    exact .inl ⟨by simpa using he, h.symm⟩

theorem paStep_cyOut {s : State} (he : paEnabled s = true) (hp : s.seq.ph = .cyOut) : paStep s = .next (cyOut s) := by
  simp [paStep, paStepWatched, he, hp]

theorem paStep_cyIn {s : State} (he : paEnabled s = true) (hp : s.seq.ph = .cyIn) : paStep s = .next (cyIn s) := by
  simp [paStep, paStepWatched, he, hp]

theorem paStep_cyPwm {s : State} {i : Ch} (he : paEnabled s = true) (hp : s.seq.ph = .cyPwm i) :
    paStep s = .next (cyPwm i s) := by
  simp [paStep, paStepWatched, he, hp]

theorem paStep_drRun {s : State} (he : paEnabled s = true) (hp : s.seq.ph = .drRun) : paStep s = drRun s := by
  simp [paStep, paStepWatched, he, hp]

theorem paStep_pub {s : State} (he : paEnabled s = true) (hp : s.seq.ph = .pub) : paStep s = .next (publish s) := by
  simp [paStep, paStepWatched, he, hp, publishWatched_nil]

theorem paStep_off {s : State} (he : paEnabled s = false) : paStep s = .next s := by
  simp [paStep, paStepWatched, he]

/-! ### Several sub-steps -/

@[simp] theorem andThen_next (s : State) (f : State → Result) : andThen (.next s) f = f s := rfl

theorem andThen_eq_next {o : Result} {f : State → Result} {t : State} (h : andThen o f = .next t) :
    ∃ s, o = .next s ∧ f s = .next t := by
  cases o with
  | next s => exact ⟨s, rfl, h⟩
  | fault r => cases h
  | refused r => cases h

theorem paSteps_zero (s : State) : paSteps 0 s = .next s := rfl

theorem paSteps_succ (k : Nat) (s : State) : paSteps (k + 1) s = andThen (paStep s) (paSteps k) := rfl

/-- Steps of the periodic agent keep what every one of them keeps. -/
theorem paSteps_keeps {P : State → Prop} (hP : ∀ s t, paStep s = .next t → P s → P t) (k : Nat) {s t : State}
    (h : paSteps k s = .next t) (hs : P s) : P t := by
  induction k generalizing s with
  | zero => rw [paSteps_zero] at h; injection h with h; exact h ▸ hs
  | succ k ih =>
    rw [paSteps_succ] at h
    obtain ⟨u, hu, hk⟩ := andThen_eq_next h
    exact ih hk (hP s u hu hs)

theorem paSteps_off {s : State} (he : paEnabled s = false) (k : Nat) : paSteps k s = .next s := by
  induction k with
  | zero => rfl
  | succ k ih => rw [paSteps_succ, paStep_off he, andThen_next, ih]

/-! ### The script plays no part in a sub-step -/

/-- The same outcome with another script. -/
def withScript (r : List Stimulus) (o : Result) : Result :=
  match o with
  | .next s => .next (s.past r)
  | .fault f => .fault f
  | .refused f => .refused f

theorem drRun_past (r : List Stimulus) (s : State) : drRun (s.past r) = withScript r (drRun s) := by
  by_cases hr : DrainReady s
  · by_cases hh : Healthy s
    · by_cases hc : CountsAllowed s
      · rw [drRun_healthy (s := s.past r) hr hh hc, drRun_healthy hr hh hc]; rfl
      · have hno : ¬ CountsAllowed (s.past r) := hc
        have h1 := drRun_ready (s := s.past r) hr
        cases h2 : drRun s with
        | next t =>
          obtain ⟨-, ⟨-, hc', -⟩ | ⟨-, hd, ch, hch, hlt, rfl⟩ | ⟨hn, -⟩⟩ := drRun_cases h2
          · exact absurd hc' hc
          · rw [drRun_countFault (s := s.past r) hr hh hd hch hlt]; rfl
          · exact absurd hh hn
        | fault f => rw [drRun_ready hr] at h2; cases h2
        | refused f => rw [drRun_ready hr] at h2; cases h2
    · rw [drRun_rearm (s := s.past r) hr hh, drRun_rearm hr hh]; rfl
  · unfold drRun
    have h1 : (s.past r).cfg = s.cfg := rfl
    have h2 : (s.past r).adu = s.adu := rfl
    have h3 : portRem (s.past r) = portRem s := rfl
    rw [h1, h2, h3]
    split_ifs with ha hb
    · rfl
    · rfl
    · exact absurd ⟨by rw [portRem_eq] at ha; omega, by omega⟩ hr

/-- A sub-step neither reads nor changes the script. -/
theorem paStep_past (r : List Stimulus) (s : State) : paStep (s.past r) = withScript r (paStep s) := by
  have hen : paEnabled (s.past r) = paEnabled s := rfl
  by_cases he : paEnabled s = true
  · have hph : (s.past r).seq = s.seq := rfl
    cases hp : s.seq.ph with
    | idle => exact absurd hp ((paEnabled_iff s).1 he).1
    | cyOut => rw [paStep_cyOut (hen.trans he) (hph ▸ hp), paStep_cyOut he hp]; rfl
    | cyIn => rw [paStep_cyIn (hen.trans he) (hph ▸ hp), paStep_cyIn he hp]; rfl
    | cyPwm i => rw [paStep_cyPwm (hen.trans he) (hph ▸ hp), paStep_cyPwm he hp]; rfl
    | drRun => rw [paStep_drRun (hen.trans he) (hph ▸ hp), paStep_drRun he hp, drRun_past]
    | pub =>
      rw [paStep_pub (hen.trans he) (hph ▸ hp), paStep_pub he hp, publish_eq, publish_eq]; rfl
  · have he' : paEnabled s = false := by simpa using he
    rw [paStep_off (hen.trans he'), paStep_off he']; rfl

theorem paStep_script {s t : State} (h : paStep s = .next t) : t.script = s.script := by
  have hs : paStep (s.past s.script) = paStep s := rfl
  rw [paStep_past, h] at hs
  injection hs with hs
  rw [← hs]; rfl

end Sys2Proof.Machine
end

