-- ==== Sys2Proof/Laws/Step.lean ====
section
/-! SUPPORT. What one step of the machine can do, said once. -/

namespace Sys2Proof.Machine

/-- The end of the instant in which ports were sampled: a next state is released, a stop stands. -/
theorem thenRelease_eq_next {o : Result} {t : State} (h : thenRelease o = .next t) : ∃ u, o = .next u ∧ t = u.release := by
  obtain ⟨u, hu, ht⟩ := andThen_eq_next h
  exact ⟨u, hu, by injection ht with ht; exact ht.symm⟩

theorem thenRelease_next (s : State) : thenRelease (.next s) = .next s.release := rfl

theorem isAgentStep_iff (e : Event) : e.isAgentStep = true ↔ (∃ watch, e = .pa watch) ∨ e = .ea := by
  cases e <;> simp [Event.isAgentStep]

/-- Everything a step can do when it answers a next state. -/
theorem step_cases {s t : State} (h : step s = .next t) :
    s.cfg.wf = true ∧
      ((∃ f w rest i u, s.script = .request f w :: rest ∧ decode f w = .ok i ∧ exec i (s.past rest) = .next u ∧
          t = u.release) ∨
        (∃ f w rest, s.script = .request f w :: rest ∧ decode f w = .error .selectsNone ∧
          t = (s.past rest).setRst false) ∨
        (∃ e rest u, s.script = .event e :: rest ∧ envStep e (s.past rest) = .next u ∧
          t = if e.isAgentStep then u.release else u) ∨
        (s.script = [] ∧ owedStep s = .next t)) := by
  unfold step fetch at h
  split_ifs at h with hw
  refine ⟨hw, ?_⟩
  cases hs : s.script with
  | nil => rw [hs] at h; exact .inr (.inr (.inr ⟨rfl, h⟩))
  | cons x rest =>
    rw [hs] at h
    cases x with
    | event e =>
      refine .inr (.inr (.inl ⟨e, rest, ?_⟩))
      dsimp only at h
      split at h
      · next he =>
        obtain ⟨u, hu, ht⟩ := thenRelease_eq_next h
        exact ⟨u, rfl, hu, by rw [if_pos he]; exact ht⟩
      · next he => exact ⟨t, rfl, h, by rw [if_neg he]⟩
    | request f w =>
      simp only [fetchRequest] at h
      cases hd : decode f w with
      | ok i =>
        rw [hd] at h
        obtain ⟨u, hu, ht⟩ := thenRelease_eq_next h
        exact .inl ⟨f, w, rest, i, u, rfl, hd, hu, ht⟩
      | error e =>
        rw [hd] at h
        cases e with
        | selectsNone =>
          injection h with h
          exact .inr (.inl ⟨f, w, rest, rfl, hd, h.symm⟩)
        | bitsAboveFormat => cases h

/-- A step that has nothing in the script is none, or a step one of the agents owes, on ports that carry draws. -/
theorem owedStep_cases {s t : State} (h : owedStep s = .next t) :
    t = s ∨ ∃ u v, (u = s.undrive ∨ u = s.undrive.countDraw) ∧ (paStep u = .next v ∨ v = eaStep u) ∧ t = v.release := by
  unfold owedStep at h
  split at h
  swap
  · injection h with h; exact .inl h.symm
  obtain ⟨v, hv, ht⟩ := thenRelease_eq_next h
  refine .inr ?_
  unfold agentStep at hv
  split_ifs at hv
  · exact ⟨_, v, .inr rfl, .inl hv, ht⟩
  · injection hv with hv; exact ⟨_, v, .inr rfl, .inr hv.symm, ht⟩
  · exact ⟨_, v, .inl rfl, .inl hv, ht⟩
  · injection hv with hv; exact ⟨_, v, .inl rfl, .inr hv.symm, ht⟩

/-- Format `P` at one instant accepts at most one operation (R72, R73). -/
theorem sampleP_eq (pReq pOp : Bool) (s : State) :
    sampleP pReq pOp s =
      if pReq = true ∧ pSampled s = true then (if pOp then acceptCycle s else acceptDrain s) else s := by
  have h : decode .p (pWord pReq pOp) =
      .ok (if pReq then (if pOp then .cycle else .drain) else .pidle pOp) := by
    revert pReq pOp; decide
  unfold sampleP
  rw [h]
  cases pReq <;> cases pOp <;> simp [acceptP]

/-- Format `E` at one instant (R74). -/
theorem sampleE_eq (eReq : Bool) (s : State) :
    sampleE eReq s = if eReq then latchEdge s else s := by
  have h : decode .e (BitVec.ofNat 8 eReq.toNat) = .ok (if eReq then .edge else .eidle) := by
    revert eReq; decide
  unfold sampleE
  rw [h]
  cases eReq <;> rfl

/-! ### Runs -/

@[simp] theorem runFor_zero (s : State) : s.runFor 0 = .next s := rfl

/-- A run is a step and the rest of the run. -/
theorem runFor_succ (s : State) (k : Nat) : s.runFor (k + 1) = andThen (step s) (fun t => t.runFor k) := by
  have hstep : Sys2Proof.core.step s = step s := rfl
  cases h : step s <;> simp only [State.runFor, Host.Core.run, hstep, h] <;> rfl

end Sys2Proof.Machine
end

