-- ==== Sys2Proof/Laws/Environment.lean ====
section
/-! SUPPORT. What the DMA collaborator's steps do to the state, said once: each touches the ports' side only, and location and
channel stay together (R53). -/

namespace Sys2Proof.Machine

/-! ### Frames: one lemma for each part of the state under each step of the collaborator -/

variable (s : State)

@[simp] theorem cfg_dmaWrite (x : Sample) : (dmaWrite x s).cfg = s.cfg := rfl
@[simp] theorem adu_dmaWrite (x : Sample) : (dmaWrite x s).adu = s.adu := rfl
@[simp] theorem pdu_dmaWrite (x : Sample) : (dmaWrite x s).pdu = s.pdu := rfl
@[simp] theorem seq_dmaWrite (x : Sample) : (dmaWrite x s).seq = s.seq := rfl
@[simp] theorem flt_dmaWrite (x : Sample) : (dmaWrite x s).flt = s.flt := rfl
@[simp] theorem env_dmaWrite (x : Sample) : (dmaWrite x s).env =
    { s.env with
      buf := bufferAfter s.cfg.cap (s.env.delivered + 1) (s.env.buf.write s.env.wCur x)
      wCur := nextIndex s.cfg s.env.wCur
      nextCh := s.env.nextCh + 1
      delivered := s.env.delivered + 1
      restarted := false } := rfl
@[simp] theorem script_dmaWrite (x : Sample) : (dmaWrite x s).script = s.script := rfl
@[simp] theorem seen_dmaWrite (x : Sample) : (dmaWrite x s).seen = s.seen := rfl
@[simp] theorem draws_dmaWrite (x : Sample) : (dmaWrite x s).draws = s.draws := rfl

@[simp] theorem cfg_dmaPlaced (w : Nat) (ch : Ch) : (dmaPlaced w ch s).cfg = s.cfg := rfl
@[simp] theorem adu_dmaPlaced (w : Nat) (ch : Ch) : (dmaPlaced w ch s).adu = s.adu := rfl
@[simp] theorem pdu_dmaPlaced (w : Nat) (ch : Ch) : (dmaPlaced w ch s).pdu = s.pdu := rfl
@[simp] theorem seq_dmaPlaced (w : Nat) (ch : Ch) : (dmaPlaced w ch s).seq = s.seq := rfl
@[simp] theorem flt_dmaPlaced (w : Nat) (ch : Ch) : (dmaPlaced w ch s).flt = s.flt := rfl
@[simp] theorem env_dmaPlaced (w : Nat) (ch : Ch) : (dmaPlaced w ch s).env =
    { s.env with wCur := w % s.cfg.cap, nextCh := ch, rearmDue := false, restarted := false } := rfl
@[simp] theorem script_dmaPlaced (w : Nat) (ch : Ch) : (dmaPlaced w ch s).script = s.script := rfl
@[simp] theorem seen_dmaPlaced (w : Nat) (ch : Ch) : (dmaPlaced w ch s).seen = s.seen := rfl
@[simp] theorem draws_dmaPlaced (w : Nat) (ch : Ch) : (dmaPlaced w ch s).draws = s.draws := rfl

/-- A re-arm carried out touches the ports' side only: the whole state is the old one with another `env`. -/
theorem dmaRearmed_eq : dmaRearmed s =
    { s with
      env :=
        if s.env.rearmDue then
          { s.env with wCur := 0, nextCh := 0, rem := none, rearmDue := false, restarted := true }
        else s.env } := by
  unfold dmaRearmed
  split <;> rfl

@[simp] theorem cfg_dmaRearmed : (dmaRearmed s).cfg = s.cfg := by rw [dmaRearmed_eq]
@[simp] theorem adu_dmaRearmed : (dmaRearmed s).adu = s.adu := by rw [dmaRearmed_eq]
@[simp] theorem pdu_dmaRearmed : (dmaRearmed s).pdu = s.pdu := by rw [dmaRearmed_eq]
@[simp] theorem seq_dmaRearmed : (dmaRearmed s).seq = s.seq := by rw [dmaRearmed_eq]
@[simp] theorem flt_dmaRearmed : (dmaRearmed s).flt = s.flt := by rw [dmaRearmed_eq]
@[simp] theorem script_dmaRearmed : (dmaRearmed s).script = s.script := by rw [dmaRearmed_eq]
@[simp] theorem seen_dmaRearmed : (dmaRearmed s).seen = s.seen := by rw [dmaRearmed_eq]
@[simp] theorem draws_dmaRearmed : (dmaRearmed s).draws = s.draws := by rw [dmaRearmed_eq]

variable {s}

theorem dmaRearmed_due (h : s.env.rearmDue = true) : dmaRearmed s =
    { s with env := { s.env with wCur := 0, nextCh := 0, rem := none, rearmDue := false, restarted := true } } := by
  rw [dmaRearmed_eq, if_pos h]

theorem dmaRearmed_of_not_due (h : s.env.rearmDue = false) : dmaRearmed s = s := by
  rw [dmaRearmed, if_neg (by simp [h])]

/-! ### The buffer after a delivery (R197, U5) -/

theorem bufferAfter_of_lt {cap m : Nat} (written : Memory) (h : m < cap) : bufferAfter cap m written = written := if_pos h

theorem bufferAfter_of_le {cap m : Nat} (written : Memory) (h : cap ≤ m) : bufferAfter cap m written = [] :=
  if_neg (Nat.not_lt.2 h)

theorem wf_bufferAfter {cap m : Nat} {written : Memory} (h : Memory.wf cap written) :
    Memory.wf cap (bufferAfter cap m written) := by
  unfold bufferAfter
  split
  · exact h
  · exact Memory.wf_nil _

/-! ### Location and channel (R53) -/

/-- Round the buffer and round the channels at once: `C` divides `CAP`, so the pattern survives the wrap (R7, R53). -/
theorem channelAligned_dmaWrite (x : Sample) (hd : 4 ∣ s.cfg.cap) (h : ChannelAligned s) : ChannelAligned (dmaWrite x s) := by
  unfold ChannelAligned at *
  have hch : ∀ c : Ch, (c + 1).val = (c.val + 1) % 4 := by decide
  simp only [env_dmaWrite, nextIndex, hch, h, Nat.mod_mod_of_dvd _ hd]
  omega

theorem channelAligned_dmaRearmed (h : ChannelAligned s) : ChannelAligned (dmaRearmed s) := by
  unfold ChannelAligned at *
  rw [dmaRearmed_eq]
  dsimp only
  split
  · rfl
  · exact h

/-- What `E-REARM` says of the channels is what every per-channel claim needs (R59, U6). -/
theorem channelAligned_of_ERearm (h : ERearm s) : ChannelAligned s := by
  unfold ChannelAligned
  rw [h.1, h.2.2.1]
  rfl

end Sys2Proof.Machine
end

