-- ==== Sys2Proof/Laws/Operations.lean ====
section
/-! SUPPORT. The whole operations over their sub-steps, the bound on a channel's count, and runs of several steps. -/

namespace Sys2Proof.Machine

/-! ### The operations of the periodic agent -/

theorem pSampled_of_accepting {s : State} (h : Accepting s) : pSampled s = true := (pSampled_iff s).2 h

theorem pSampled_eq_false {s : State} (h : ¬ Accepting s) : pSampled s = false := by
  rw [Bool.eq_false_iff]
  exact fun hc => h ((pSampled_iff s).1 hc)

/-- A request that is not being sampled starts nothing (R73). -/
theorem execDrain_dropped {s : State} (h : ¬ Accepting s) : execDrain s = .next s := by
  simp [execDrain, pSampled_eq_false h]

theorem execCycle_dropped {s : State} (h : ¬ Accepting s) : execCycle s = .next s := by
  simp [execCycle, pSampled_eq_false h]

/-- An accepted `DRAIN` is a `DR_RUN` and what is left of two sub-steps (R91). -/
theorem execDrain_accepted {s : State} (h : Accepting s) :
    execDrain s = andThen (drRun (acceptDrain s)) (paSteps 1) := by
  have he : paEnabled (acceptDrain s) = true := (paEnabled_iff _).2 ⟨by simp [acceptDrain], h.2.1, h.2.2⟩
  rw [execDrain, if_pos (pSampled_of_accepting h), paSteps_succ, paStep_drRun he rfl]

theorem paEnabled_cyPwm {s : State} (i : Ch) (h : paEnabled s = true) : paEnabled (cyPwm i s) = true := by
  rw [paEnabled_iff] at h ⊢
  refine ⟨?_, h.2.1, h.2.2⟩
  simp only [cyPwm, phaseAfterPwm, State.seq_modSeq]
  split_ifs <;> simp

/-- An accepted `CYCLE` comes to its `DR_RUN` with the command applied and the inputs and PWM values latched (R140 to R145). -/
theorem execCycle_accepted {s : State} (h : Accepting s) :
    execCycle s = andThen (drRun { s with seq := latchedSeq s }) (paSteps 1) := by
  have e0 : paEnabled (acceptCycle s) = true := (paEnabled_iff _).2 ⟨by simp [acceptCycle], h.2.1, h.2.2⟩
  have e1 : paEnabled (cyOut (acceptCycle s)) = true := (paEnabled_iff _).2 ⟨by simp [cyOut], h.2.1, h.2.2⟩
  have e2 : paEnabled (cyIn (cyOut (acceptCycle s))) = true := (paEnabled_iff _).2 ⟨by simp [cyIn], h.2.1, h.2.2⟩
  have e3 := paEnabled_cyPwm 0 e2
  have e4 := paEnabled_cyPwm 1 e3
  have e5 := paEnabled_cyPwm 2 e4
  have e6 := paEnabled_cyPwm 3 e5
  rw [execCycle, if_pos (pSampled_of_accepting h), paSteps_succ, paStep_cyOut e0 rfl, andThen_next, paSteps_succ,
    paStep_cyIn e1 rfl, andThen_next, paSteps_succ, paStep_cyPwm (i := 0) e2 rfl, andThen_next, paSteps_succ,
    paStep_cyPwm (i := 1) e3 rfl, andThen_next, paSteps_succ, paStep_cyPwm (i := 2) e4 rfl, andThen_next, paSteps_succ,
    paStep_cyPwm (i := 3) e5 rfl, andThen_next, paSteps_succ, paStep_drRun e6 rfl]
  simp only [latchedSeq, ← portOutcmd_eq, ← portPins_eq]
  rfl

/-! ### The bound on a channel's count (R102) -/

theorem four_dvd_cap {c : Config} (h : c.wf = true) : 4 ∣ c.cap := pow_dvd_pow 2 (wf_log2Cap h)

/-- Of `n` consecutive buffer locations at most `ceil(n / 4)` belong to one channel. -/
theorem countOver_le {s : State} (h : s.cfg.wf = true) (n : Nat) (ch : Ch) : countOver s n ch ≤ (n + 3) / 4 := by
  have key : ∀ n c m : Nat, m < 4 → ∑ k ∈ Finset.range n, (if (c + k) % 4 = m then 1 else 0) ≤ (n + 3) / 4 := by
    intro n
    induction n using Nat.strong_induction_on with
    | _ n ih =>
      intro c m hm
      rcases Nat.lt_or_ge n 4 with hn | hn
      · interval_cases n <;> simp only [Finset.sum_range_succ, Finset.sum_range_zero] <;> (try split_ifs) <;> omega
      · obtain ⟨r, rfl⟩ : ∃ r, n = r + 4 := ⟨n - 4, by omega⟩
        have hr := ih r (by omega) c m hm
        have four : (if (c + r) % 4 = m then 1 else 0) + (if (c + (r + 1)) % 4 = m then 1 else 0) +
            (if (c + (r + 2)) % 4 = m then 1 else 0) + (if (c + (r + 3)) % 4 = m then 1 else 0) ≤ 1 := by
          split_ifs <;> omega
        simp only [Finset.sum_range_succ]
        omega
  have hidx : ∀ k, sampleIndex s k % 4 = (s.adu.cursor + k) % 4 := fun k => Nat.mod_mod_of_dvd _ (four_dvd_cap h)
  simp only [countOver, hidx]
  exact key _ _ _ ch.isLt

/-- Under R13's constraint a healthy `DRAIN` trips no count assertion. -/
theorem channelCount_le_cntMax {s : State} (hw : s.cfg.wf = true) (hc : s.cfg.conforming = true) (hh : Healthy s) (ch : Ch) :
    channelCount s ch ≤ s.cfg.cntMax := by
  have h1 := countOver_le hw (unread s) ch
  have h2 := hh.2
  simp only [Config.conforming, decide_eq_true_eq] at hc
  unfold channelCount
  omega

/-! ### Runs -/

theorem runFor_add (s : State) (a b : Nat) : s.runFor (a + b) = andThen (s.runFor a) (fun t => t.runFor b) := by
  induction a generalizing s with
  | zero => simp
  | succ a ih =>
    rw [show a + 1 + b = (a + b) + 1 by omega, runFor_succ, runFor_succ]
    cases step s with
    | next t => exact ih t
    | fault f => rfl
    | refused r => rfl

end Sys2Proof.Machine
end

