-- ==== Sys2Proof/Laws/PerInstr.lean ====
section
/-! SUPPORT. Facts about each operation as syntax. -/

namespace Sys2Proof.Laws.RowMatch

/-- The request word of an operation is carried by the ports of its format, and exactly one row of the operation map
matches it under that format (R76: "Within a format the rows are exhaustive and mutually exclusive"). -/
def Statement (i : Instr) : Prop :=
  requestWf i.format (encode i) = true ∧
    (operationMap.filter fun r => r.matches i.format (encode i)).length = 1

theorem reset : Statement .reset := ⟨by decide, by decide⟩

theorem drain : Statement .drain := ⟨by decide, by decide⟩

theorem cycle : Statement .cycle := ⟨by decide, by decide⟩

theorem pidle (pOp : Bool) : Statement (.pidle pOp) := by cases pOp <;> exact ⟨by decide, by decide⟩

theorem edge : Statement .edge := ⟨by decide, by decide⟩

theorem eidle : Statement .eidle := ⟨by decide, by decide⟩

end Sys2Proof.Laws.RowMatch
end

