-- ==== Sys2Proof/Tests/Slice0.lean ====
section
/-! SUPPORT. The model's own tests: the operation map's words, ill-formed terms that are refused, the spec's derived vectors of
95_test_vectors.md (named in each comment), and for every statement with hypotheses a state that meets them. -/

namespace Sys2Proof.Tests

open Sys2Proof Sys2Proof.Machine

/-! ### Decoding: each word written out from 30_encoding.md rules R71, R72, R74, R76 -/

theorem test_decode_reset : decode .r 0b1#8 = .ok .reset := by decide

theorem test_decode_drain : decode .p 0b10#8 = .ok .drain := by decide

theorem test_decode_cycle : decode .p 0b11#8 = .ok .cycle := by decide

theorem test_decode_pidle : decode .p 0b00#8 = .ok (.pidle false) ∧ decode .p 0b01#8 = .ok (.pidle true) := by decide

theorem test_decode_edge : decode .e 0b1#8 = .ok .edge := by decide

theorem test_decode_eidle : decode .e 0b0#8 = .ok .eidle := by decide

/-- `R[0] = 0` selects "none" (R71). -/
theorem test_decode_rst_low : decode .r 0b0#8 = .error .selectsNone := by decide

/-- A word of the table in whole bytes, where the table's bits tell the formats apart (notes/assumptions/3.md). -/
theorem test_table_words :
    decodeTableWord 8 1 = some .reset ∧ decodeTableWord 8 2 = some .drain ∧ decodeTableWord 8 3 = some .cycle ∧
      decodeTableWord 8 0 = some (.pidle false) ∧ decodeTableWord 1 0 = some .eidle := by decide

/-- The word placed by `withFetchWord` is what the very next step runs. -/
theorem test_withFetchWord_runs (s : State) (h : s.cfg.wf = true) :
    step (s.withFetchWord 8 3) = thenRelease (exec .cycle s) := by
  have hd : decode (tableFormat 8 3) (tableByte 3) = .ok .cycle := by decide
  simp [step, fetch, State.withFetchWord, pushRequest, h, fetchRequest, hd]

/-! ### Ill-formed terms are refused -/

/-- A request word with a bit above its format (R71, R72, R74). -/
theorem test_requestWf_refuses :
    requestWf .r 0b10#8 = false ∧ requestWf .e 0b10#8 = false ∧ requestWf .p 0b100#8 = false ∧
      decode .p 0b110#8 = .error .bitsAboveFormat := by decide

/-- `CAP` of 2 (U12). -/
def smallBuffer : Config := { Config.tc1 with log2Cap := 1 }

/-- A counter without a bit (R10); the thresholds fit it as far as they can. -/
def noCounter : Config := { Config.tc1 with wCnt := 0, tLow := 0, tHigh := 1 }

/-- `T_LOW = T_HIGH` (U11). -/
def emptyRegion : Config := { Config.tc1 with tLow := 2150 }

/-- `T_HIGH = 2^W_CNT` (U11). -/
def highThreshold : Config := { Config.tc1 with wCnt := 12, tHigh := 4096 }

/-- A PWM channel on bit 8 (U13). -/
def outsidePins : Config := { Config.tc1 with pwmBit := ⟨0, 1, 2, 8⟩ }

/-- Two PWM channels on one bit (U13). -/
def sharedPin : Config := { Config.tc1 with pwmBit := ⟨0, 1, 2, 0⟩ }

theorem test_configWf_refuses :
    smallBuffer.wf = false ∧ noCounter.wf = false ∧ emptyRegion.wf = false ∧ highThreshold.wf = false ∧
      outsidePins.wf = false ∧ sharedPin.wf = false := by decide

/-- The boundary configurations are accepted: `n = 2`, `T_HIGH = 2^W_CNT - 1`, a PWM channel on bit 7. -/
theorem test_configWf_accepts :
    Config.tc1.wf = true ∧
      Config.wf { Config.tc1 with log2Cap := 2, wCnt := 12, tHigh := 4095, pwmBit := ⟨0, 1, 2, 7⟩ } = true := by decide

/-- Every term of `Instr` is an operation (R77). -/
theorem test_instrWf (i : Instr) : i.wf = true := by cases i <;> rfl

/-! ### Small states -/

/-- The reset state with samples at consecutive locations from `at`, the cursor there, and a level on `rem`. -/
def stateWith (cursor rem : Nat) (cells : List (Nat × Int)) : State :=
  { State.reset with
    adu := { Adu.reset with cursor := cursor }
    env :=
      { State.reset.env with
        rem := some rem
        buf := cells.map fun p => (p.1, BitVec.ofInt 16 p.2) } }

/-- Four registers from naturals. -/
def four (a b c d : Nat) : Quad (BitVec 16) := ⟨BitVec.ofNat 16 a, BitVec.ofNat 16 b, BitVec.ofNat 16 c, BitVec.ofNat 16 d⟩

/-- The outcome is a next state of which `p` holds. -/
def isNext (o : Result) (p : State → Bool) : Bool :=
  match o with
  | .next s => p s
  | .fault _ => false
  | .refused _ => false

/-- The eight samples of vector S2. -/
def s2 : State :=
  stateWith 0 24 [(0, 100), (1, 200), (2, 300), (3, 400), (4, 102), (5, 202), (6, 302), (7, 402)]

/-- A PWM state: levels last seen, timestamps, values; the level of `pins` and of `cnt`. -/
def pwmState (levels : Byte) (stamps : Quad Nat) (values : Quad (BitVec 16)) (pins : Byte) (cnt : Nat) : State :=
  { State.reset with
    pdu := { lastLevels := levels, riseTs := stamps, pwmValue := values }
    env := { State.reset.env with pins := some pins, cnt := some cnt } }

/-- Twelve samples of 9 under `CNT_MAX = 2` and old outputs, the state of vector F1. -/
def f1 : State :=
  let s := stateWith 0 20 ((List.range 12).map fun j => (j, 9))
  { s with cfg := { Config.tc1 with cntMax := 2 }, adu := { s.adu with adcOut := four 1 2 3 4 } }

/-! ### The spec's derived vectors -/

/-- S17: the channel of a sample is its buffer index modulo 4, not its ordinal. -/
theorem test_drain_S17 :
    isNext (exec .drain (stateWith 1 28 [(1, 100), (2, 200), (3, 300)])) (fun t =>
      t.adu.adcOut == four 0 1600 3200 4800 && t.adu.cursor == 4) = true := by decide

/-- P2, lines 5 to 16 without the interrupting `EDGE`: the clamp at both ends, the floor, everything published. -/
theorem test_cycle_P2 :
    isNext (exec .cycle
        { stateWith 0 24 [(0, 10), (1, 20), (2, 30), (3, 40), (4, -7), (5, 5000), (6, 31), (7, 41)] with
          pdu := { Pdu.reset with pwmValue := four 650 0 0 0 }
          env :=
            { (stateWith 0 24 [(0, 10), (1, 20), (2, 30), (3, 40), (4, -7), (5, 5000), (6, 31), (7, 41)]).env with
              outcmd := some 0xA0, pins := some 0x03 } }) (fun t =>
      t.seq.dout == 0xA0 && t.seq.dinState == 0x03 && t.seq.pwmOut == four 650 0 0 0 &&
        t.adu.adcOut == four 80 16536 488 648 && t.adu.cursor == 8) = true := by decide

/-- Y1: a re-arming cycle still does its digital I/O. -/
theorem test_cycle_Y1 :
    isNext (exec .cycle
        { stateWith 0 32 [] with
          pdu := { Pdu.reset with pwmValue := four 650 0 0 0 }
          env := { State.reset.env with outcmd := some 0x05, pins := some 0x03 } }) (fun t =>
      t.seq.dout == 0x05 && t.seq.dinState == 0x03 && t.seq.pwmOut == four 650 0 0 0 &&
        t.adu.drainStatus == .stall && t.pdu.lastLevels == 0 &&
        t.adu.ctl == [.adcDisable, .dmaRearm 0 32, .errClear, .adcEnable]) = true := by decide

/-- F1: a failed count assertion. -/
theorem test_fault_F1 :
    isNext (exec .drain f1) (fun t =>
      t.flt == { halted := true, code := .countRange, info := 0 } && t.seq.ph == .drRun && t.adu.cursor == 12 &&
        t.adu.adcOut == four 1 2 3 4) = true := by decide

/-- E10: one falling and one rising edge with one timestamp. -/
theorem test_edge_E10 :
    isNext (exec .edge (pwmState 0x01 ⟨1000, 0, 0, 0⟩ (four 0 0 0 0) 0x02 2000)) (fun t =>
      t.pdu == { lastLevels := 0x02, riseTs := ⟨2000, 2000, 0, 0⟩, pwmValue := four 150 0 0 0 } &&
        t.seq.ePend == false) = true := by decide

/-- E5: the counter wrapped between the edges. -/
theorem test_edge_E5 :
    isNext (exec .edge (pwmState 0x01 ⟨0xFFFFFF00, 0, 0, 0⟩ (four 0 0 0 0) 0x00 0x400)) (fun t =>
      t.pdu.pwmValue == four 430 0 0 0) = true := by decide

/-- X2: `RESET` discards a pending `EDGE`. -/
theorem test_reset_X2 :
    isNext (exec .reset { State.reset with seq := { Seq.reset with ePend := true, ph := .cyIn } }) (fun t =>
      t == State.reset) = true := by decide

/-- Y4: a NOP changes nothing. -/
theorem test_pidle_Y4 : isNext (exec (.pidle true) s2) (fun t => t == s2) = true := by decide

/-- R146, R64: an observer before and after the first setter call of a `CYCLE`'s `PUB` reads the old value, then the new one. -/
theorem test_reads_inside_pub :
    isNext (envStep (.pa [[.dinState], [.dinState]])
        { State.reset with seq := { Seq.reset with ph := .pub, inCycle := true, latDin := 5, dinState := 9 } })
      (fun t => t.seen == [(.dinState, 9), (.dinState, 5)]) = true := by decide

/-- R128: `e_pend` keeps its value. -/
theorem test_eidle : isNext (exec .eidle { s2 with seq := { Seq.reset with ePend := true } }) (fun t => t.seq.ePend) = true := by
  decide

/-- The reset buffer is in canonical form. -/
theorem reset_buffer_wf : Memory.wf State.reset.cfg.cap State.reset.env.buf := Memory.wf_nil _

/-! ### Witnesses: for each statement with hypotheses, states and operands that meet all of them together -/

/-- The reset state with something to do next. -/
def scripted (l : List Stimulus) : State := { State.reset with script := l }

/-- The reset state in the middle of an operation. -/
def inPhase (p : Phase) (c : Bool) : State := { State.reset with seq := { Seq.reset with ph := p, inCycle := c } }

/-- The reset state, halted. -/
def haltedState (l : List Stimulus) : State :=
  { inPhase .drRun false with flt := { halted := true, code := .countRange, info := 1 }, script := l }

/-- A configuration in place of `TC1`. -/
def configured (c : Config) : State := { State.reset with cfg := c }

/-- Vector S7: exactly 7/8 of the buffer. -/
def s7 : State := stateWith 0 4 ((List.range 28).map fun j => (j, 1))

/-- Vector S16: one sample. -/
def s16 : State := stateWith 0 31 [(0, 5)]

/-- Vector S9: the write cursor at 0, read cursor 8. -/
def s9 : State := stateWith 8 0 ((List.range 24).map fun j => (j + 8, 2))

/-- Vector F2: channel 0 passes, channel 1 is the first to fail. -/
def f2 : State :=
  { stateWith 1 20 ((List.range 11).map fun j => (j + 1, 9)) with cfg := { Config.tc1 with cntMax := 2 } }

theorem witness_StepRunsTheDecodedRequest :
    ((scripted [.request .p 0b10]).cfg.wf = true ∧ (scripted [.request .p 0b10]).script = .request .p 0b10 :: [] ∧
        decode .p 0b10 = .ok .drain) ∧
      ((scripted [.event .ea]).cfg.wf = true ∧ (scripted [.event .ea]).script = .event .ea :: []) ∧
      ((scripted [.request .p 0b100]).script = .request .p 0b100 :: [] ∧ 2 ^ Format.p.width ≤ (0b100 : Byte).toNat) ∧
      ((scripted [.request .r 0]).script = .request .r 0 :: []) := by decide

theorem witness_ConfigurationOutsideTheConstraintsIsRefused :
    (configured smallBuffer).cfg.log2Cap < 2 ∧ (configured noCounter).cfg.wCnt < 1 ∧
      (configured emptyRegion).cfg.tHigh ≤ (configured emptyRegion).cfg.tLow ∧
      2 ^ (configured highThreshold).cfg.wCnt ≤ (configured highThreshold).cfg.tHigh ∧
      (∃ i, 8 ≤ (configured outsidePins).cfg.pwmBit.get i) ∧
      ∃ i j, i ≠ j ∧ (configured sharedPin).cfg.pwmBit.get i = (configured sharedPin).cfg.pwmBit.get j := by decide

theorem witness_SimultaneousRequestsAreBothTaken : State.reset.seq.ph = .idle ∧ State.reset.flt.halted = false := by decide

/-- A line `P.req` without an `E` request: "`ph` leaves `IDLE`, nothing else happens" (R80), an edge already pending included. -/
theorem test_p_req_alone :
    isNext (envStep (.instant false true true false) { State.reset with seq := { Seq.reset with ePend := true } }) (fun t =>
      t == { State.reset with seq := { Seq.reset with ph := .cyOut, inCycle := true, ePend := true } }) = true := by decide

/-- The idle block with `p_req` low (the plain `E.req`), the busy block, the halted block. -/
theorem witness_EdgeRequestIsLatchedInEveryState :
    (State.reset.seq.ph = .idle ∧ State.reset.flt.halted = false ∧ false = false) ∧
      (inPhase .cyIn true).seq.ph ≠ .idle ∧ (haltedState []).flt.halted = true := by decide

theorem witness_HealthyDrainPublishesTheChannelAverages :
    (Accepting s7 ∧ DrainReady s7 ∧ Healthy s7 ∧ CountsAllowed s7 ∧ unread s7 = 28) ∧
      (Accepting s16 ∧ DrainReady s16 ∧ Healthy s16 ∧ CountsAllowed s16 ∧ unread s16 = 1) := by decide

theorem witness_DesynchronizedDrainRearmsAndPublishesZeros :
    (Accepting State.reset ∧ DrainReady State.reset ∧ ¬ Healthy State.reset) ∧
      (Accepting (stateWith 0 3 []) ∧ DrainReady (stateWith 0 3 []) ∧ ¬ Healthy (stateWith 0 3 [])) := by decide

theorem witness_OverfullDrainHaltsPrecisely :
    (Accepting f1 ∧ DrainReady f1 ∧ Healthy f1 ∧ f1.cfg.debugAssert = true ∧ FirstOverCount f1 0) ∧
      (Accepting f2 ∧ DrainReady f2 ∧ Healthy f2 ∧ f2.cfg.debugAssert = true ∧ FirstOverCount f2 1) := by decide

theorem witness_DrainOutsideTheContractStops :
    (Accepting (stateWith 0 33 []) ∧ (stateWith 0 33 []).cfg.cap < remSeen (stateWith 0 33 [])) ∧
      (Accepting (stateWith 32 32 []) ∧ remSeen (stateWith 32 32 []) ≤ (stateWith 32 32 []).cfg.cap ∧
        (stateWith 32 32 []).cfg.cap ≤ (stateWith 32 32 []).adu.cursor) := by decide

theorem witness_UnsampledRequestsAreDropped :
    ((inPhase .pub true).seq.ph ≠ .idle ∧ (inPhase .pub true).env.rst = false) ∧ (haltedState []).flt.halted = true ∧
      (State.reset.setRst true).env.rst = true := by decide

/-- The state `s` with its operation come to the sub-step `p`. -/
def atPhase (p : Phase) (c : Bool) (s : State) : State := { s with seq := { s.seq with ph := p, inCycle := c } }

theorem witness_HealthCheckSetsDrainStatus :
    (∃ t, drRun s7 = .next t) ∧ (∃ t, drRun State.reset = .next t) ∧ ∃ t, drRun (stateWith 0 3 []) = .next t :=
  ⟨⟨_, rfl⟩, ⟨_, rfl⟩, ⟨_, rfl⟩⟩

/-- The sub-step on its own, of a stand-alone `DRAIN` and inside a `CYCLE`: healthy at exactly 7/8, a failed assertion of
channel 0 and of channel 1, stalled and one sample past 7/8, and the two stops at the edge of their ranges. -/
theorem witness_HealthCheckSetsDrainStatus_alone :
    let at' := atPhase .drRun
    (∀ c, ∀ s ∈ [s7, f1, f2, State.reset, stateWith 0 3 [], stateWith 0 33 [], stateWith 32 32 []],
        (at' c s).seq.ph = .drRun ∧ (at' c s).flt.halted = false ∧ (at' c s).env.rst = false) ∧
      (∀ c, DrainReady (at' c s7) ∧ Healthy (at' c s7) ∧ CountsAllowed (at' c s7)) ∧
      (∀ c, ∀ p ∈ [(f1, (0 : Ch)), (f2, 1)], DrainReady (at' c p.1) ∧ Healthy (at' c p.1) ∧
        (at' c p.1).cfg.debugAssert = true ∧ FirstOverCount (at' c p.1) p.2) ∧
      (∀ c, ∀ s ∈ [State.reset, stateWith 0 3 []], DrainReady (at' c s) ∧ ¬ Healthy (at' c s)) ∧
      (∀ c, (at' c (stateWith 0 33 [])).cfg.cap < remSeen (at' c (stateWith 0 33 []))) ∧
      ∀ c, remSeen (at' c (stateWith 32 32 [])) ≤ (at' c (stateWith 32 32 [])).cfg.cap ∧
        (at' c (stateWith 32 32 [])).cfg.cap ≤ (at' c (stateWith 32 32 [])).adu.cursor := by decide

/-- The sub-step view of S2: `DR_RUN` leaves the averages in `avg`, `PUB` publishes them. -/
theorem test_dr_run_alone_S2 :
    isNext (envStep (.pa []) (atPhase .drRun false s2)) (fun t =>
      t.adu.avg == four 1616 3216 4816 6416 && t.adu.adcOut == four 0 0 0 0 && t.adu.cursor == 8 &&
        t.seq.ph == .pub) = true := by decide

theorem witness_HealthyDrainStaysInRange :
    (s7.cfg.wf = true ∧ DrainReady s7 ∧ Healthy s7 ∧ Accepting s7) ∧
      ∃ t, exec .drain s7 = .next t ∧ t.flt.halted = false :=
  ⟨by decide, _, rfl, by decide⟩

theorem witness_ChannelWithoutSamplesPublishesZero :
    (Accepting s16 ∧ (∀ k < unread s16, sampleIndex s16 k % 4 ≠ (1 : Ch).val) ∧
        ∃ t, exec .drain s16 = .next t ∧ t.flt.halted = false) ∧
      (¬ Healthy State.reset ∧ ∃ t, exec .drain State.reset = .next t ∧ t.flt.halted = false) :=
  ⟨⟨by decide, by decide, _, rfl, by decide⟩, by decide, _, rfl, by decide⟩

theorem witness_ConstantInputPublishesSixteenTimesTheInput :
    Accepting s16 ∧ Healthy s16 ∧ (∃ t, exec .drain s16 = .next t ∧ t.flt.halted = false) ∧ (5 : Nat) ≤ 2047 ∧
      (∃ k < unread s16, sampleIndex s16 k % 4 = (0 : Ch).val) ∧
      ∀ k < unread s16, sampleIndex s16 k % 4 = (0 : Ch).val → (sampleRead s16 k).toInt = (5 : Nat) :=
  ⟨by decide, by decide, ⟨_, rfl, by decide⟩, by decide, by decide, by decide⟩

theorem witness_ClampingTheBufferChangesNoOutput : ∃ t, exec .drain s2 = .next t := ⟨_, rfl⟩

theorem witness_OutputsAreMonotoneInTheSamples :
    (∀ k < unread s16, (sampleRead s16 k).toInt ≤ (sampleRead (s16.withBuf [(0, 6)]) k).toInt) ∧
      (∃ t, exec .drain s16 = .next t) ∧ ∃ u, exec .drain (s16.withBuf [(0, 6)]) = .next u :=
  ⟨by decide, ⟨_, rfl⟩, ⟨_, rfl⟩⟩

theorem witness_RepeatedStallPublishesZerosAndRearmsOncePerCall :
    Accepting State.reset ∧ DrainReady State.reset ∧ unread State.reset = 0 := by decide

theorem witness_BothFormsOfWriteCursorZeroDrainAlike :
    0 < s9.adu.cursor ∧ s9.adu.cursor < s9.cfg.cap ∧ ∃ t, exec .drain (s9.withRem s9.cfg.cap) = .next t :=
  ⟨by decide, by decide, _, rfl⟩

theorem witness_ConformingConfigurationsIgnoreDebugAssert :
    s7.cfg.wf = true ∧ s7.cfg.conforming = true ∧ ∃ t, exec .cycle s7 = .next t :=
  ⟨by decide, by decide, _, rfl⟩

theorem witness_HealthyCyclePublishesEverything :
    Accepting s2 ∧ DrainReady s2 ∧ Healthy s2 ∧ CountsAllowed s2 := by decide

theorem witness_DesynchronizedCycleStillPublishesDigitalAndPwm :
    Accepting (stateWith 4 31 []) ∧ DrainReady (stateWith 4 31 []) ∧ ¬ Healthy (stateWith 4 31 []) := by decide

theorem witness_OverfullCycleHaltsAndPublishesNothing :
    Accepting f2 ∧ DrainReady f2 ∧ Healthy f2 ∧ f2.cfg.debugAssert = true ∧ FirstOverCount f2 1 := by decide

theorem witness_CycleSubStepsLatchOneRegisterEach :
    ∀ p ∈ [Phase.cyOut, .cyIn, .cyPwm 0, .cyPwm 3],
      (inPhase p true).flt.halted = false ∧ (inPhase p true).env.rst = false ∧ (inPhase p true).seq.ph = p := by decide

theorem witness_ObserverInsidePublicationSeesSettersInOrder :
    ∀ c, (inPhase .pub c).flt.halted = false ∧ (inPhase .pub c).env.rst = false ∧ (inPhase .pub c).seq.ph = .pub ∧
      (inPhase .pub c).seq.inCycle = c := by decide

theorem witness_CoarseDrainIsItsSubSteps : s2.cfg.wf = true ∧ Accepting s2 := by decide

theorem witness_CoarseCycleIsItsSubSteps : f1.cfg.wf = true ∧ Accepting f1 ∧ 0 < 2 * f1.cfg.cap ∧ 63 < 2 * f1.cfg.cap := by
  decide

/-- Vector E15. -/
def e15 : State := pwmState 0x04 ⟨0, 0, 10, 0⟩ (four 11 22 33 44) 0x00 1510

theorem witness_TraceLinesRunTheOperationsTheyName :
    ∀ l ∈ [Line.reset, .drain 32, .cycle 0xFF 0x01 0, .edge 0x01 4294967295, .nop],
      (scripted (l.stimuli Config.tc1)).cfg.wf = true ∧
        (scripted (l.stimuli Config.tc1)).script = l.stimuli (scripted (l.stimuli Config.tc1)).cfg ++ [] := by decide

theorem witness_EdgeStampsAndDecodesEveryChangedChannel : e15.cfg.wf = true ∧ EdgeOpen e15 := by decide

theorem witness_HeldOffEdgeStaysPending :
    ((haltedState []).env.rst = false ∧ (haltedState []).flt.halted = true) ∧
      ((State.reset.setIrqMask true).env.rst = false ∧ (State.reset.setIrqMask true).seq.irqMask = true) ∧
      (State.reset.setRst true).env.rst = true := by decide

/-- Vector E8: only an unmonitored pin differs. -/
theorem witness_EdgeWithoutMonitoredChangeWritesNothing :
    EdgeOpen (pwmState 0x01 ⟨1000, 0, 0, 0⟩ (four 0 0 0 0) 0x81 9999) ∧
      (0x81#8 &&& monMask Config.tc1) = 0x01 := by decide

/-- The largest `t0` and the largest `d` of a 32-bit counter. -/
theorem witness_PulseDecodesToItsMappedWidth :
    State.reset.cfg.wf = true ∧ EdgeOpen State.reset ∧ 4294967295 < 2 ^ State.reset.cfg.wCnt ∧
      State.reset.pdu.lastLevels.getLsbD (State.reset.cfg.pwmBit.get 3) = false ∧
      (0x08#8).getLsbD (State.reset.cfg.pwmBit.get 3) = true ∧
      (0x00#8).getLsbD (State.reset.cfg.pwmBit.get 3) = false := by decide

theorem witness_PulseLineDecodesItsWidth :
    let s := scripted (Line.stimuli Config.tc1 (.pulse 0 3 4294967295 4294967295))
    s.Inv ∧ EdgeOpen s ∧ 4294967295 < 2 ^ s.cfg.wCnt ∧ s.pdu.lastLevels.getLsbD (s.cfg.pwmBit.get 3) = false ∧
      s.script = Line.stimuli s.cfg (.pulse s.pdu.lastLevels 3 4294967295 4294967295) ++ [] := by decide

theorem witness_EdgeLeavesOtherChannelsAlone :
    e15.cfg.wf = true ∧ ¬ edged e15 0 ∧
      ∃ t, exec .edge e15 = .next t ∧ t.pdu.pwmValue.get 2 ≠ e15.pdu.pwmValue.get 2 :=
  ⟨by decide, by decide, _, rfl, by decide⟩

theorem witness_EdgeCommutesWithSubStepsThatReadNoPwmValue :
    ∀ p ∈ [Phase.idle, .cyOut, .cyIn, .drRun, .pub],
      (∀ i, (inPhase p false).seq.ph ≠ .cyPwm i) ∧ (inPhase p false).seq.irqMask = false ∧
        isNext (envStep (.pa []) (inPhase p false)) (fun t => !t.flt.halted) = true := by decide

/-- A `CYCLE` at a `CY_PWMi` with an `EDGE` pending. -/
def betweenReads (i : Ch) : State :=
  { e15 with seq := { Seq.reset with ph := .cyPwm i, inCycle := true, ePend := true } }

theorem witness_EdgeBetweenPwmReadsGivesAMixedSnapshot :
    (∀ i : Ch, (betweenReads i).cfg.wf = true ∧ (betweenReads i).flt.halted = false ∧ (betweenReads i).env.rst = false ∧
        (betweenReads i).seq.irqMask = false ∧ (betweenReads i).seq.ePend = true ∧ (betweenReads i).seq.ph = .cyPwm i) ∧
      ((0 : Ch) < 3 ∧ (1 : Ch).val = (0 : Ch).val + 1) ∧ ((2 : Ch) < 3 ∧ (3 : Ch).val = (2 : Ch).val + 1) := by decide

theorem witness_StepKeepsTheInvariant : s9.Inv ∧ ∃ t, step s9 = .next t := ⟨by decide, _, rfl⟩

theorem witness_ConformingBlockNeverHalts :
    s7.Inv ∧ s7.cfg.conforming = true ∧ s7.flt.halted = false ∧
      ∃ t, step { s7 with script := [.request .p 0b10] } = .next t :=
  ⟨by decide, by decide, by decide, _, rfl⟩

theorem witness_StepKeepsTheTraceAWholeNumberOfRearms :
    (scripted [.request .p 0b10]).TraceOfRearms 0 ∧ ∃ t, step (scripted [.request .p 0b10]) = .next t :=
  ⟨⟨rfl, rfl⟩, _, rfl⟩

theorem witness_OnlyRearmAndResetTouchRearmCount :
    (∃ t, step (scripted [.request .p 0b10]) = .next t ∧ t.adu.rearmCount = 1) ∧
      ∃ t, step (scripted [.request .r 1]) = .next t ∧ (scripted [.request .r 1]).ResetNext :=
  ⟨⟨_, rfl, by decide⟩, _, rfl, .inl ⟨_, _, rfl, rfl⟩⟩

theorem witness_HaltedBlockIsFrozenUntilReset :
    (∃ t, step (haltedState [.request .e 1]) = .next t ∧ (haltedState [.request .e 1]).flt.halted = true ∧
        ¬ (haltedState [.request .e 1]).ResetNext) ∧
      ∃ t, step (haltedState [.request .r 1]) = .next t ∧ (haltedState [.request .r 1]).flt.halted = true ∧
        (haltedState [.request .r 1]).ResetNext := by
  refine ⟨⟨_, rfl, rfl, ?_⟩, _, rfl, rfl, .inl ⟨_, _, rfl, rfl⟩⟩
  rintro (⟨w, rest, h, -⟩ | ⟨p, o, e, rest, h⟩) <;> simp [haltedState] at h

/-- A running `EDGE`; the edge agent's step with one pending, with none pending, and held off. -/
theorem witness_OnlyEdgeAndResetChangeThePdu :
    (∃ t, step { e15 with script := [.request .e 1] } = .next t ∧ t.pdu ≠ e15.pdu) ∧
      ((betweenReads 1).cfg.wf = true ∧ EdgeOpen (betweenReads 1) ∧ (betweenReads 1).seq.ePend = true) ∧
      (e15.seq.ePend = false ∧ EdgeOpen e15) ∧ ¬ EdgeOpen (haltedState []) :=
  ⟨⟨_, rfl, by decide⟩, by decide, by decide, by decide⟩

theorem witness_EdgeAgentWritesOnlyItsOwnRegisters :
    (∃ t, exec .edge e15 = .next t) ∧ ∃ t, envStep .ea (betweenReads 1) = .next t :=
  ⟨⟨_, rfl⟩, ⟨_, rfl⟩⟩

theorem witness_NoStepChangesTheConfiguration : ∃ t, step (scripted [.request .p 0b11]) = .next t := ⟨_, rfl⟩

theorem witness_QuiescentBlockWithoutStimulusStays :
    State.reset.cfg.wf = true ∧ State.reset.script = [] ∧ State.reset.Quiescent :=
  ⟨by decide, rfl, rfl, rfl, rfl⟩

theorem witness_OwedStepsReachQuiescence :
    let s := { inPhase .cyOut true with seq := { Seq.reset with ph := .cyOut, inCycle := true, ePend := true } }
    s.Inv ∧ s.cfg.conforming = true ∧ s.flt.halted = false ∧ s.env.rst = false ∧ s.script = [] := by
  decide

/-- The last location of the buffer, by the last sample short of a lap and by the sample that makes one. -/
theorem witness_DmaWriteFillsOneLocation :
    let s := fun m : Nat => { s2 with env := { s2.env with wCur := 31, delivered := m } }
    (∀ m ∈ [30, 31], (s m).env.wCur < (s m).cfg.cap ∧ Memory.wf (s m).cfg.cap (s m).env.buf) ∧
      (s 30).env.delivered + 1 < (s 30).cfg.cap ∧ (s 31).cfg.cap ≤ (s 31).env.delivered + 1 := by decide

/-- A delivery of `m` samples of 7 from location 28 on, the report `r`, and the `DRAIN`. -/
def delivery (m r : Nat) : State :=
  { State.reset with
    adu := { Adu.reset with cursor := 28 }
    env := { State.reset.env with wCur := 28, rem := some 4 }
    script := (List.replicate m 7).map (fun x => Stimulus.event (.dmaWrite x)) ++
      .event (.driveRem r) :: .request .p 0b10 :: [] }

/-- The shortest delivery, one that ends at write cursor 0 in both forms of `rem`, and the longest, across the wrap. -/
theorem witness_DrainAveragesWhatTheCollaboratorDelivered :
    ∀ p ∈ [(1, 3), (4, 32), (4, 0), (28, 8)],
      let s := delivery p.1 p.2
      s.Inv ∧ Accepting s ∧ s.cfg.conforming = true ∧ s.env.nextCh.val = s.env.wCur % 4 ∧ s.adu.cursor = s.env.wCur ∧
        s.env.delivered = 0 ∧ (1 ≤ p.1 ∧ p.1 ≤ 7 * s.cfg.cap / 8) ∧ p.2 ≤ s.cfg.cap ∧
        (s.cfg.cap - p.2) % s.cfg.cap = (s.env.wCur + p.1) % s.cfg.cap ∧
        s.script = (List.replicate p.1 7).map (fun x => Stimulus.event (.dmaWrite x)) ++
          .event (.driveRem p.2) :: .request .p 0b10 :: [] := by decide

/-- A block whose collaborator stands at location 8 with a re-arm to carry out. -/
def dueAt8 : State := { s9 with env := { s9.env with wCur := 8, rearmDue := true } }

/-- The largest levels, a listed location, a re-arm that is due and one that is not, the last location. -/
theorem witness_EnvironmentEventsChangeOnlyWhatTheyName :
    63 < 2 * s9.cfg.cap ∧ 4294967295 < 2 ^ s9.cfg.wCnt ∧ (Memory.lookup 31 s9.env.buf = some 2 ∧ (30 : Nat) ≠ 31) ∧
      Memory.wf s9.cfg.cap s9.env.buf ∧ dueAt8.env.rearmDue = true ∧ s9.env.rearmDue = false ∧ 31 < s9.cfg.cap := by decide

/-- A stall of each operation, a healthy `DRAIN` and a dropped request. -/
theorem witness_RearmRestartsTheCollaborator :
    ((∃ t, exec .drain State.reset = .next t) ∧ (∃ t, exec .cycle State.reset = .next t) ∧ Accepting State.reset ∧
        ¬ Healthy State.reset) ∧
      ((∃ t, exec .drain s2 = .next t) ∧ Healthy s2 ∧ s2.env.rearmDue = false) ∧
      ((∃ t, exec .cycle (haltedState []) = .next t) ∧ ¬ Accepting (haltedState []) ∧
        (haltedState []).env.rearmDue = false) :=
  ⟨⟨⟨_, rfl⟩, ⟨_, rfl⟩, by decide, by decide⟩, ⟨⟨_, rfl⟩, by decide, by decide⟩, ⟨_, rfl⟩, by decide, by decide⟩

/-- A `DRAIN` asked for while the collaborator stands where a re-arm has put it. -/
theorem witness_RearmRestartsTheCollaborator_lasts :
    let s := { scripted [.request .p 0b10] with env := { State.reset.env with restarted := true, rem := none } }
    s.AtRestart ∧ s.env.rem = none ∧ (∃ t, step s = .next t) ∧ (∀ x rest, s.script ≠ .event (.dmaWrite x) :: rest) ∧
      ∀ w ch rest, s.script ≠ .event (.dmaPlaced w ch) :: rest :=
  ⟨⟨rfl, rfl, rfl⟩, rfl, ⟨_, rfl⟩, by simp [scripted], by simp [scripted]⟩

/-- R59, R106: after a re-arm `rem` reads `CAP` at every `DRAIN` until a sample arrives, where nothing is driven on it. -/
theorem test_rem_reads_cap_after_rearm :
    isNext ((scripted [.request .p 0b10, .event .dmaRearmed, .request .p 0, .request .p 0b10]).runFor 4) (fun t =>
      t.adu.rearmCount == 2 && t.adu.drainStatus == .stall && t.env.restarted) = true := by decide

/-- The write at the last location, which wraps. -/
theorem witness_StepKeepsLocationsAndChannelsTogether :
    let s := { scripted [.event (.dmaWrite 5)] with env := { State.reset.env with wCur := 31, nextCh := 3 } }
    (∀ w ch rest, s.script ≠ .event (.dmaPlaced w ch) :: rest) ∧ ChannelAligned s ∧ ∃ t, step s = .next t :=
  ⟨by simp [scripted], by unfold ChannelAligned; decide, _, rfl⟩

/-- P1, lines 6 and 7: the collaborator at location 8, a line whose `DR_RUN` stalls, and what the next `DMA` line writes. -/
def stallAt8 (l : Line) (p : Phase) (xs : List Sample) : State :=
  { stateWith 8 24 [] with
    seq := { Seq.reset with ph := p }
    env := { State.reset.env with wCur := 8, rem := some 24 }
    script := Line.stimuli Config.tc1 l ++ (Line.stimuli Config.tc1 (.dma xs) ++ []) }

/-- Each of the three lines, with no sample, with the longest delivery short of a lap and with a whole lap. -/
theorem witness_DmaLineAfterARearmFillsFromLocationZero :
    ∀ n ∈ [0, 31, 32], ∀ c ∈ [(Line.drain 24, Phase.idle), (.cycle 5 3 24, .idle), (.paStep none none (some 24), .drRun)],
      let xs : List Sample := List.replicate n 7
      let s := stallAt8 c.1 c.2 xs
      s.cfg.wf = true ∧ s.adu.cursor < s.cfg.cap ∧ 24 ≤ s.cfg.cap ∧ ¬ Healthy (s.withRem 24) ∧
        (s.seq.ph = c.2 ∧ s.flt.halted = false ∧ s.env.rst = false) ∧
        s.script = Line.stimuli s.cfg c.1 ++ (Line.stimuli s.cfg (.dma xs) ++ []) := by decide

/-- P1, lines 6 and 7, the first two samples of the `FILL`: they stand at locations 0 and 1, not at 8 and 9. -/
theorem test_fill_after_rearm_P1 :
    isNext ((stallAt8 (.drain 24) .idle [2047, -5]).runFor 5) (fun t =>
      t.env.buf == [(0, 2047), (1, -5)] && t.env.wCur == 2) = true := by decide

/-- Laps whose remainder is the shortest and the longest that passes the health check. -/
theorem witness_UndetectedOverrunConsumesAnyValues :
    ∀ p ∈ [(33, 3), (60, 8)],
      let s := delivery p.1 p.2
      s.Inv ∧ Accepting s ∧ s.cfg.conforming = true ∧ s.adu.cursor = s.env.wCur ∧ s.cfg.cap ≤ s.env.delivered + p.1 ∧
        p.2 ≤ s.cfg.cap ∧ (s.cfg.cap - p.2) % s.cfg.cap = (s.env.wCur + p.1) % s.cfg.cap ∧ Healthy (s.withRem p.2) ∧
        s.script = (List.replicate p.1 7).map (fun x => Stimulus.event (.dmaWrite x)) ++
          .event (.driveRem p.2) :: .request .p 0b10 :: [] := by decide

/-- The write that makes a whole lap, on a buffer with contents. -/
def lapping : State :=
  { s2 with env := { s2.env with delivered := 31 }, script := [.event (.dmaWrite 5)] }

theorem witness_StepKeepsALappedBufferWithoutContents : lapping.LapForgotten ∧ ∃ t, step lapping = .next t :=
  ⟨by unfold State.LapForgotten; decide, _, rfl⟩

/-- R197, U5: after a whole lap no location has a sample of its own. -/
theorem test_lap_forgets :
    isNext (step lapping) (fun t => t.env.buf == [] && t.env.delivered == 32 && t.env.wCur == 1) = true := by decide

/-- The reset state in the middle of an operation, the ports released. -/
def midway (p : Phase) (c : Bool) : State := (inPhase p c).undrive

/-- A request, a step of each agent, and the steps owed at the sub-steps that sample a port. -/
theorem witness_PortsHaveNoMemory :
    ((∃ t, step { s2 with script := [.request .p 0b11] } = .next t) ∧ decode .p 0b11 = .ok .cycle) ∧
      (∃ t, step (scripted [.event (.pa [])]) = .next t) ∧ (∃ t, step (scripted [.event .ea]) = .next t) ∧
      (midway .idle false).Undriven ∧
      ∀ p ∈ [Phase.cyOut, .cyIn],
        (midway p true).script = [] ∧ (midway p true).Owes ∧ (midway p true).seq.ePend = false ∧
          (midway p true).flt.halted = false ∧ (midway p true).env.rst = false ∧ (midway p true).seq.ph = p ∧
          isNext (step (midway p true)) (fun _ => true) = true :=
  ⟨⟨⟨_, rfl⟩, by decide⟩, ⟨_, rfl⟩, ⟨_, rfl⟩, ⟨rfl, rfl, rfl, rfl⟩, by unfold State.Owes; decide⟩

/-- R40: the level a step has sampled is gone after it, so the next step samples another draw. -/
theorem test_port_is_released :
    isNext ((scripted [.event (.drivePins 3), .request .e 1]).runFor 2) (fun t =>
      t.pdu.lastLevels == 3 && t.env.pins == none && t.env.cnt == none && t.env.instant == 1) = true := by decide

end Sys2Proof.Tests
end

