-- ==== Sys2Proof/Proofs/RearmCount.lean ====
section
/-! PROOF. What becomes of `rearm_count` and `ctl` in one step (R25, R41): the ADU is followed through the sub-steps, the
operations and the events, and each leaves the pair alone, re-arms once, or is a reset. -/

namespace Sys2Proof.Machine

/-! ### The relation between two ADUs -/

/-- Between `a` and `b` there was no re-arm, or one whose cause `b` records and whose cursor still stands (R95, R96). -/
def Adu.RearmedAtMostOnce (c : Config) (a b : Adu) : Prop :=
  (b.rearmCount = a.rearmCount ∧ b.ctl = a.ctl) ∨
    (b.rearmCount = a.rearmCount + 1 ∧ b.ctl = a.ctl ++ rearmEvents c ∧ b.cursor = 0 ∧ b.drainStatus ≠ .ok)

namespace Adu

variable {c : Config} {a b : Adu}

/-- The ADU after a `PUB`: the averages stand on the output ports (R103). -/
def published (a : Adu) : Adu := { a with adcOut := a.avg }

theorem rearmedAtMostOnce_refl : RearmedAtMostOnce c a a := .inl ⟨rfl, rfl⟩

theorem RearmedAtMostOnce.published (h : RearmedAtMostOnce c a b) : RearmedAtMostOnce c a b.published := h

end Adu

/-! ### The sub-steps of the periodic agent -/

theorem adu_publishWatched (watch : List (List Watch)) (s : State) : (publishWatched watch s).adu = s.adu.published := by
  rw [publishWatched_eq, publish_eq]
  rfl

/-- Only `DR_RUN` writes ADU registers other than the output ports. -/
theorem paStepWatched_adu {watch : List (List Watch)} {s t : State} (h : paStepWatched watch s = .next t) :
    t.adu = s.adu ∨ t.adu = s.adu.published ∨ (paEnabled s = true ∧ s.seq.ph = .drRun ∧ drRun s = .next t) := by
  obtain ⟨-, rfl⟩ | ⟨he, ⟨-, rfl⟩ | ⟨-, rfl⟩ | ⟨i, -, rfl⟩ | ⟨hp, hd⟩ | ⟨-, rfl⟩⟩ := paStepWatched_cases h
  · exact .inl rfl
  · exact .inl rfl
  · exact .inl rfl
  · exact .inl rfl
  · exact .inr (.inr ⟨he, hp, hd⟩)
  · exact .inr (.inl (adu_publishWatched watch s))

theorem rearmedAdu_drainStatus_ne_ok (s : State) : (rearmedAdu s).drainStatus ≠ .ok := by
  dsimp only [rearmedAdu]
  split <;> decide

theorem drRun_rearmedAtMostOnce {s t : State} (h : drRun s = .next t) : Adu.RearmedAtMostOnce s.cfg s.adu t.adu := by
  obtain ⟨-, ⟨-, -, rfl⟩ | ⟨-, -, ch, -, -, rfl⟩ | ⟨-, rfl⟩⟩ := drRun_cases h
  · exact .inl ⟨rfl, rfl⟩
  · exact .inl ⟨rfl, rfl⟩
  · exact .inr ⟨rfl, rfl, rfl, rearmedAdu_drainStatus_ne_ok s⟩

/-- No `DR_RUN` follows a `DR_RUN` at once: the next sub-step is `PUB`, or the block is halted (R101, R164). -/
theorem drRun_ph_or_halted {s t : State} (h : drRun s = .next t) : t.seq.ph = .pub ∨ t.flt.halted = true := by
  obtain ⟨-, ⟨-, -, rfl⟩ | ⟨-, -, ch, -, -, rfl⟩ | ⟨-, rfl⟩⟩ := drRun_cases h
  · exact .inl rfl
  · exact .inr rfl
  · exact .inl rfl

theorem paStepWatched_rearmedAtMostOnce {watch : List (List Watch)} {s t : State} (h : paStepWatched watch s = .next t) :
    Adu.RearmedAtMostOnce s.cfg s.adu t.adu := by
  obtain ht | ht | ⟨-, -, hd⟩ := paStepWatched_adu h
  · exact ht ▸ Adu.rearmedAtMostOnce_refl
  · exact ht ▸ Adu.rearmedAtMostOnce_refl.published
  · exact drRun_rearmedAtMostOnce hd

/-! ### The operations -/

/-- `DR_RUN` and the sub-step after it, the common end of `DRAIN` and `CYCLE` (R91, R145), re-arm at most once. -/
theorem drRun_paSteps_rearmedAtMostOnce {s t : State} (h : andThen (drRun s) (paSteps 1) = .next t) :
    Adu.RearmedAtMostOnce s.cfg s.adu t.adu := by
  obtain ⟨u, hu, hk⟩ := andThen_eq_next h
  rw [paSteps_succ] at hk
  obtain ⟨v, hv, hvt⟩ := andThen_eq_next hk
  obtain rfl : v = t := by injection hvt
  have hrun := drRun_rearmedAtMostOnce hu
  obtain ht | ht | ⟨he, hp, -⟩ := paStepWatched_adu hv
  · exact ht ▸ hrun
  · exact ht ▸ hrun.published
  · obtain ⟨-, hhalt, -⟩ := (paEnabled_iff u).1 he
    rcases drRun_ph_or_halted hu with hph | hph
    · exact absurd (hp.symm.trans hph) (by decide)
    · exact absurd (hhalt.symm.trans hph) (by decide)

theorem execDrain_rearmedAtMostOnce {s t : State} (h : execDrain s = .next t) :
    Adu.RearmedAtMostOnce s.cfg s.adu t.adu := by
  by_cases ha : Accepting s
  · rw [execDrain_accepted ha] at h
    exact drRun_paSteps_rearmedAtMostOnce (s := acceptDrain s) h
  · obtain rfl : s = t := by simpa [execDrain_dropped ha] using h
    exact Adu.rearmedAtMostOnce_refl

theorem execCycle_rearmedAtMostOnce {s t : State} (h : execCycle s = .next t) :
    Adu.RearmedAtMostOnce s.cfg s.adu t.adu := by
  by_cases ha : Accepting s
  · rw [execCycle_accepted ha] at h
    exact drRun_paSteps_rearmedAtMostOnce (s := { s with seq := latchedSeq s }) h
  · obtain rfl : s = t := by simpa [execCycle_dropped ha] using h
    exact Adu.rearmedAtMostOnce_refl

@[simp] theorem adu_latchEdge (s : State) : (latchEdge s).adu = s.adu := by
  unfold latchEdge
  split <;> rfl

/-- The edge agent writes no ADU register (R127). -/
@[simp] theorem adu_eaStep (s : State) : (eaStep s).adu = s.adu := by
  unfold eaStep edgeBody
  split_ifs <;> rfl

/-- An operation is a reset, or re-arms at most once. -/
theorem exec_rearmedAtMostOnce {i : Instr} {s t : State} (h : exec i s = .next t) :
    (i = .reset ∧ t.adu = Adu.reset) ∨ Adu.RearmedAtMostOnce s.cfg s.adu t.adu := by
  cases i with
  | reset =>
    obtain rfl : _ = t := by injection h
    exact .inl ⟨rfl, rfl⟩
  | drain => exact .inr (execDrain_rearmedAtMostOnce h)
  | cycle => exact .inr (execCycle_rearmedAtMostOnce h)
  | pidle pOp =>
    obtain rfl : s = t := by injection h
    exact .inr Adu.rearmedAtMostOnce_refl
  | edge =>
    obtain rfl : eaStep (latchEdge s) = t := by injection h
    have hadu : (eaStep (latchEdge s)).adu = s.adu := by simp
    exact .inr (hadu ▸ Adu.rearmedAtMostOnce_refl)
  | eidle =>
    obtain rfl : s = t := by injection h
    exact .inr Adu.rearmedAtMostOnce_refl

/-! ### The reset -/

/-- A word that decodes is carried by the ports of its format, two at the most (R71, R72, R74). -/
theorem toNat_lt_four_of_decode {f : Format} {w : Byte} {i : Instr} (h : decode f w = .ok i) : w.toNat < 4 := by
  have hwf : requestWf f w = true := by
    by_contra hno
    simp [decode, hno] at h
  have hlt : w.toNat < 2 ^ f.width := by simpa [requestWf] using hwf
  cases f <;> simp only [Format.width] at hlt <;> omega

/-- The only request word that selects `RESET` is `rst` reading 1 (R71, R76). -/
theorem decode_eq_reset {f : Format} {w : Byte} (h : decode f w = .ok .reset) : f = .r ∧ w = 1 := by
  have key : ∀ n < 4, decode f (BitVec.ofNat 8 n) = .ok .reset → f = .r ∧ BitVec.ofNat 8 n = 1 := by
    cases f <;> decide
  have hw := key w.toNat (toNat_lt_four_of_decode h)
  rw [BitVec.ofNat_toNat, BitVec.setWidth_eq] at hw
  exact hw h

/-! ### The request ports and the events -/

@[simp] theorem adu_sampleP (pReq pOp : Bool) (s : State) : (sampleP pReq pOp s).adu = s.adu := by
  rw [sampleP_eq]
  split_ifs <;> rfl

@[simp] theorem adu_sampleE (eReq : Bool) (s : State) : (sampleE eReq s).adu = s.adu := by
  rw [sampleE_eq]
  split_ifs <;> simp

theorem adu_instant (rst pReq pOp eReq : Bool) (s : State) :
    (instant rst pReq pOp eReq s).adu = if rst then Adu.reset else s.adu := by
  cases rst <;> simp [instant]

/-- An event is an instant with `rst == 1`, or re-arms at most once. -/
theorem envStep_rearmedAtMostOnce {e : Event} {s t : State} (h : envStep e s = .next t) :
    ((∃ p o r, e = .instant true p o r) ∧ t.adu = Adu.reset) ∨ Adu.RearmedAtMostOnce s.cfg s.adu t.adu := by
  cases e with
  | instant rst p o r =>
    obtain rfl : instant rst p o r s = t := by injection h
    rw [adu_instant]
    cases rst with
    | true => exact .inl ⟨⟨p, o, r, rfl⟩, rfl⟩
    | false => exact .inr Adu.rearmedAtMostOnce_refl
  | pa watch => exact .inr (paStepWatched_rearmedAtMostOnce h)
  | _ =>
    injection h with h
    subst h
    refine .inr (.inl ?_)
    simp

theorem owedStep_rearmedAtMostOnce {s t : State} (h : owedStep s = .next t) :
    Adu.RearmedAtMostOnce s.cfg s.adu t.adu := by
  obtain rfl | ⟨u, v, hu, hv, rfl⟩ := owedStep_cases h
  · exact Adu.rearmedAtMostOnce_refl
  · have hcfg : u.cfg = s.cfg := by rcases hu with rfl | rfl <;> rfl
    have hadu : u.adu = s.adu := by rcases hu with rfl | rfl <;> rfl
    rw [← hcfg, ← hadu, State.adu_release]
    obtain hv | rfl := hv
    · exact paStepWatched_rearmedAtMostOnce hv
    · exact adu_eaStep u ▸ Adu.rearmedAtMostOnce_refl

/-! ### The step -/

/-- A step is a reset, or re-arms at most once. -/
theorem step_rearmedAtMostOnce {s t : State} (h : step s = .next t) :
    (s.ResetNext ∧ t.adu = Adu.reset) ∨ Adu.RearmedAtMostOnce s.cfg s.adu t.adu := by
  obtain ⟨-, ⟨f, w, rest, i, u, hs, hd, hu, rfl⟩ | ⟨f, w, rest, -, -, rfl⟩ | ⟨e, rest, u, hs, hu, rfl⟩ | ⟨-, ho⟩⟩ :=
    step_cases h
  · refine (exec_rearmedAtMostOnce hu).imp_left ?_
    rintro ⟨rfl, hreset⟩
    obtain ⟨rfl, hw⟩ := decode_eq_reset hd
    exact ⟨.inl ⟨w, rest, hs, hw⟩, hreset⟩
  · exact .inr Adu.rearmedAtMostOnce_refl
  · have hadu : (if e.isAgentStep then u.release else u).adu = u.adu := by split <;> rfl
    rw [hadu]
    refine (envStep_rearmedAtMostOnce hu).imp_left ?_
    rintro ⟨⟨p, o, r, rfl⟩, hreset⟩
    exact ⟨.inr ⟨p, o, r, rest, hs⟩, hreset⟩
  · exact .inr (owedStep_rearmedAtMostOnce ho)

/-- Settles O45: every step is a reset or re-arms at most once, for so does each operation, event and owed step. -/
theorem onlyRearmAndResetTouchRearmCount : Obligations.OnlyRearmAndResetTouchRearmCount := by
  intro s t h
  obtain ⟨hreset, hadu⟩ | hkept | hrearmed := step_rearmedAtMostOnce h
  · exact .inr (.inr ⟨hreset, by rw [hadu]; rfl, by rw [hadu]; rfl⟩)
  · exact .inl hkept
  · exact .inr (.inl hrearmed)

end Sys2Proof.Machine
end


section
/-! PROOF. A request of format `P` where the block is not sampling it (R73): neither the operation nor the instant at which
`p_req` is high changes the state. -/

namespace Sys2Proof.Machine

/-- Format `P` is sampled exactly where the block is idle, not halted and not held in reset (R73). -/
theorem not_accepting_iff (s : State) :
    ¬ Accepting s ↔ s.seq.ph ≠ .idle ∨ s.flt.halted = true ∨ s.env.rst = true := by
  simp only [Accepting, not_and_or, ne_eq, Bool.not_eq_false]

/-- Driving `rst` to the level it has changes nothing. -/
theorem setRst_of_rst_eq {s : State} {b : Bool} (h : s.env.rst = b) : s.setRst b = s := by
  subst h
  rfl

/-- What format `P` carries is not latched where it is not sampled (R73). -/
theorem sampleP_dropped {s : State} (h : ¬ Accepting s) (pReq pOp : Bool) : sampleP pReq pOp s = s := by
  rw [sampleP_eq, if_neg]
  rintro ⟨-, hsampled⟩
  exact h ((pSampled_iff s).1 hsampled)

/-- With `rst` low and no edge request, an instant at which format `P` is not sampled changes nothing (R73, R79). -/
theorem instant_dropped {s : State} (h : ¬ Accepting s) (hrst : s.env.rst = false) (pReq pOp : Bool) :
    instant false pReq pOp false s = s :=
  calc instant false pReq pOp false s
      = sampleE false (sampleP pReq pOp (s.setRst false)) := rfl
    _ = sampleE false (sampleP pReq pOp s) := by rw [setRst_of_rst_eq hrst]
    _ = sampleE false s := by rw [sampleP_dropped h]
    _ = s := by rw [sampleE_eq, if_neg Bool.false_ne_true]

/-- Settles O15: the three cases are those in which the block is not accepting, where each operation and the instant drop the
request. -/
theorem unsampledRequestsAreDropped : Obligations.UnsampledRequestsAreDropped := by
  intro s pOp hcases
  have hna : ¬ Accepting s := (not_accepting_iff s).2 hcases
  exact ⟨execDrain_dropped hna, execCycle_dropped hna, fun hrst => congrArg _ (instant_dropped hna hrst true pOp)⟩

end Sys2Proof.Machine
end


section
/-! PROOF. The ranges of a healthy `DRAIN` (R102): the chain of bounds from the number of samples to the averages, and what a
`DRAIN` that is not halted leaves in `avg` and `adc_out`. -/

namespace Sys2Proof.Machine

/-- The overrun test of R94, as a bound on the number of samples. -/
theorem Healthy.unread_le {s : State} (h : Healthy s) : unread s ≤ 7 * s.cfg.cap / 8 := by
  obtain ⟨-, hle⟩ := h
  omega

theorem channelCount_le {s : State} (hw : s.cfg.wf = true) (ch : Ch) : channelCount s ch ≤ (unread s + 3) / 4 :=
  countOver_le hw (unread s) ch

theorem Healthy.channelCount_le {s : State} (h : Healthy s) (hw : s.cfg.wf = true) (ch : Ch) :
    channelCount s ch ≤ (7 * s.cfg.cap / 8 + 3) / 4 :=
  (Machine.channelCount_le hw ch).trans (Nat.div_le_div_right (Nat.add_le_add_right h.unread_le 3))

theorem channelTotal_le (s : State) (ch : Ch) : channelTotal s ch ≤ 2047 * channelCount s ch :=
  totalOver_le s (unread s) ch

/-- The sub-step after one that leaves `ph` at `PUB` publishes (R91, R145). -/
theorem paSteps_one_pub {s : State} (he : paEnabled s = true) (hp : s.seq.ph = .pub) :
    paSteps 1 s = .next (publish s) := by
  rw [paSteps_succ, paStep_pub he hp, andThen_next, paSteps_zero]

/-- A healthy `DRAIN` that does not halt the block has run to its end: the averages stand in `avg` and on the output ports. -/
theorem adu_of_execDrain_healthy {s t : State} (ha : Accepting s) (hh : Healthy s) (h : execDrain s = .next t)
    (ht : t.flt.halted = false) : t.adu = drainedAdu s := by
  rw [execDrain_accepted ha] at h
  obtain ⟨u, hu, hk⟩ := andThen_eq_next h
  obtain ⟨-, ⟨-, -, hran⟩ | ⟨-, -, ch, -, -, rfl⟩ | ⟨hnot, -⟩⟩ := drRun_cases hu
  case inl =>
    obtain ⟨-, hhalt, hrst⟩ := ha
    have hp : u.seq.ph = .pub := by rw [hran]; rfl
    have he : paEnabled u = true := (paEnabled_iff u).2 ⟨by simp [hp], hran ▸ hhalt, hran ▸ hrst⟩
    rw [paSteps_one_pub he hp, publish_eq, hran] at hk
    injection hk with hk
    exact hk ▸ rfl
  case inr.inl =>
    rw [paSteps_off rfl] at hk
    injection hk with hk
    rw [← hk] at ht
    cases ht
  case inr.inr => exact absurd hh hnot

/-- Settles O17: the bounds are those of the samples, the counts, the totals and the averages in turn, and a `DRAIN` that
completes has the averages in both registers. -/
theorem healthyDrainStaysInRange : Obligations.HealthyDrainStaysInRange := by
  intro s hw _ hh
  refine ⟨hh.unread_le, fun ch => ⟨channelCount_le hw ch, hh.channelCount_le hw ch,
    fun hc => channelCount_le_cntMax hw hc hh ch, channelTotal_le s ch, channelAverage_le s ch, fun ha t h ht => ?_⟩⟩
  rw [adu_of_execDrain_healthy ha hh h ht]
  exact ⟨rfl, (channelAverages_toNat s ch).trans_le (channelAverage_le s ch)⟩

end Sys2Proof.Machine
end


section
/-! PROOF. `EIDLE` (R128): the word format `E` carries when `e_req` is low, and what the operation does with it. -/

namespace Sys2Proof.Machine

/-- Of the two rows of format `E`, the one with pattern 0 is `EIDLE`'s (R74, R76). -/
theorem decode_eReq_low : decode .e 0b0#8 = .ok .eidle := by decide

/-- With nothing requested, the whole state stays as it is, a pending edge included (R128). -/
@[simp] theorem exec_eidle (s : State) : exec .eidle s = .next s := rfl

/-- Settles O10: the word selects `EIDLE`'s row, and that operation answers the state it is given. -/
theorem eidleChangesNothing : Obligations.EidleChangesNothing :=
  ⟨decode_eReq_low, exec_eidle⟩

end Sys2Proof.Machine
end


section
/-! PROOF. The sub-steps of a `CYCLE` before `DR_RUN` (R142, R143, R144): the reads listed with a sub-step matter inside a `PUB`
only, so each of these is the plain sub-step of the sequencer. -/

namespace Sys2Proof.Machine

/-- Only a `PUB` has setter calls that observers can read between (R63, U22). -/
theorem paStepWatched_of_ph_ne_pub (watch : List (List Watch)) {s : State} (h : s.seq.ph ≠ .pub) :
    paStepWatched watch s = paStep s := by
  unfold paStep paStepWatched
  cases hp : s.seq.ph with
  | pub => exact absurd hp h
  | idle | cyOut | cyIn | cyPwm _ | drRun => rfl

theorem cyOut_eq (s : State) : cyOut s = { s with seq := { s.seq with dout := outcmdSeen s, ph := .cyIn } } := by
  rw [cyOut, portOutcmd_eq]
  rfl

theorem cyIn_eq (s : State) : cyIn s = { s with seq := { s.seq with latDin := pinsSeen s, ph := .cyPwm 0 } } := by
  rw [cyIn, portPins_eq]
  rfl

/-- The four reads come in ascending order, `DR_RUN` after the last (R144). -/
theorem phaseAfterPwm_eq (i : Ch) :
    phaseAfterPwm i = if i = 0 then .cyPwm 1 else if i = 1 then .cyPwm 2 else if i = 2 then .cyPwm 3 else .drRun := by
  fin_cases i <;> rfl

/-- Settles O28: the reads listed play no part in these three phases, and the sub-step each phase names writes its register and
`ph`; at `CY_PWMi` the witness is `lat_pwm` with register `i` set. -/
theorem cycleSubStepsLatchOneRegisterEach : Obligations.CycleSubStepsLatchOneRegisterEach := by
  intro s watch hhalt hrst
  have enabled : s.seq.ph ≠ .idle → paEnabled s = true := fun hph => (paEnabled_iff s).2 ⟨hph, hhalt, hrst⟩
  have unwatched : s.seq.ph ≠ .pub → envStep (.pa watch) s = paStep s := paStepWatched_of_ph_ne_pub watch
  refine ⟨fun hp => ?cyOut, fun hp => ?cyIn, fun i hp => ?cyPwm⟩
  case cyOut =>
    rw [unwatched (by simp [hp]), paStep_cyOut (enabled (by simp [hp])) hp, cyOut_eq]
  case cyIn =>
    rw [unwatched (by simp [hp]), paStep_cyIn (enabled (by simp [hp])) hp, cyIn_eq]
  case cyPwm =>
    refine ⟨s.seq.latPwm.set i (s.pdu.pwmValue.get i), Quad.get_set_same _ i _, fun j hj => Quad.get_set_other _ _ hj, ?_⟩
    rw [unwatched (by simp [hp]), paStep_cyPwm (enabled (by simp [hp])) hp, cyPwm, phaseAfterPwm_eq]
    rfl

end Sys2Proof.Machine
end


section
/-! PROOF. Whatever the pieces of a step keep, every step keeps: the induction over the operations, the events and the owed steps
is made once here, for any predicate on states. -/

namespace Sys2Proof.Machine

/-- An event of the environment itself: neither a step it gives to an agent of the block nor an instant at the request ports. -/
def Event.OfEnvironment (e : Event) : Prop := e.isAgentStep = false ∧ ∀ rst p o r, e ≠ .instant rst p o r

/-- Each piece that an operation is made of keeps `P`, a `RESET` where its request is `ok`. -/
structure KeptByOperations (ok : Stimulus → Prop) (P : State → Prop) : Prop where
  acceptDrain : ∀ s, Accepting s → P s → P (acceptDrain s)
  acceptCycle : ∀ s, Accepting s → P s → P (acceptCycle s)
  paStep : ∀ watch s t, paStepWatched watch s = .next t → P s → P t
  eaStep : ∀ s, P s → P (eaStep s)
  latchEdge : ∀ s, P s → P (latchEdge s)
  resetRequest : ok (.request .r 1) → ∀ s, P s → P (s.resetBlock.setRst false)

/-- Each piece that a step is made of keeps `P`, where the next thing in the script, if there is one, is `ok`. -/
structure KeptByParts (ok : Stimulus → Prop) (P : State → Prop) : Prop extends KeptByOperations ok P where
  past : ∀ s rest, P s → P (s.past rest)
  undrive : ∀ s, P s → P s.undrive
  release : ∀ s, P s → P s.release
  countDraw : ∀ s, P s → P s.countDraw
  rstLow : ∀ s, P s → P (s.setRst false)
  resetInstant : ∀ p o r, ok (.event (.instant true p o r)) → ∀ s, P s → P (s.setRst true).resetBlock
  environment : ∀ e, ok (.event e) → e.OfEnvironment → ∀ s t, envStep e s = .next t → P s → P t

namespace KeptByOperations

variable {ok : Stimulus → Prop} {P : State → Prop} (h : KeptByOperations ok P)
include h

theorem paSteps {k : Nat} {s t : State} (hk : paSteps k s = .next t) (hs : P s) : P t :=
  paSteps_keeps (fun s t hst => h.paStep [] s t hst) k hk hs

theorem exec {i : Instr} {s t : State} (hi : i = .reset → ok (.request .r 1)) (he : exec i s = .next t) (hs : P s) :
    P t := by
  cases i with
  | reset =>
    injection he with he
    exact he ▸ h.resetRequest (hi rfl) s hs
  | drain =>
    by_cases ha : Accepting s
    · rw [Machine.exec, execDrain, if_pos (pSampled_of_accepting ha)] at he
      exact h.paSteps he (h.acceptDrain s ha hs)
    · rw [Machine.exec, execDrain_dropped ha] at he
      injection he with he
      exact he ▸ hs
  | cycle =>
    by_cases ha : Accepting s
    · rw [Machine.exec, execCycle, if_pos (pSampled_of_accepting ha)] at he
      exact h.paSteps he (h.acceptCycle s ha hs)
    · rw [Machine.exec, execCycle_dropped ha] at he
      injection he with he
      exact he ▸ hs
  | edge =>
    injection he with he
    exact he ▸ h.eaStep _ (h.latchEdge s hs)
  | pidle _ | eidle =>
    injection he with he
    exact he ▸ hs

end KeptByOperations

namespace KeptByParts

variable {ok : Stimulus → Prop} {P : State → Prop} (h : KeptByParts ok P)
include h

theorem sampleP (pReq pOp : Bool) {s : State} (hs : P s) : P (sampleP pReq pOp s) := by
  rw [sampleP_eq]
  split_ifs with hreq hop
  · exact h.acceptCycle s ((pSampled_iff s).1 hreq.2) hs
  · exact h.acceptDrain s ((pSampled_iff s).1 hreq.2) hs
  · exact hs

theorem sampleE (eReq : Bool) {s : State} (hs : P s) : P (sampleE eReq s) := by
  rw [sampleE_eq]
  split
  · exact h.latchEdge s hs
  · exact hs

theorem envStep {e : Event} {s t : State} (hok : ok (.event e)) (he : envStep e s = .next t) (hs : P s) : P t := by
  by_cases hagent : e.isAgentStep = true
  · obtain ⟨watch, rfl⟩ | rfl := (isAgentStep_iff e).1 hagent
    · exact h.paStep watch s t he hs
    · injection he with he
      exact he ▸ h.eaStep s hs
  by_cases hinst : ∃ rst p o r, e = .instant rst p o r
  · obtain ⟨rst, p, o, r, rfl⟩ := hinst
    injection he with he
    subst he
    cases rst with
    | true => exact h.resetInstant p o r hok s hs
    | false => exact h.sampleE r (h.sampleP p o (h.rstLow s hs))
  · exact h.environment e hok ⟨by simpa using hagent, fun rst p o r heq => hinst ⟨rst, p, o, r, heq⟩⟩ s t he hs

theorem owedStep {s t : State} (ho : owedStep s = .next t) (hs : P s) : P t := by
  obtain rfl | ⟨u, v, hu, hv, rfl⟩ := owedStep_cases ho
  · exact hs
  have hPu : P u := by
    obtain rfl | rfl := hu
    · exact h.undrive s hs
    · exact h.countDraw _ (h.undrive s hs)
  obtain hv | rfl := hv
  · exact h.release v (h.paStep [] u v hv hPu)
  · exact h.release _ (h.eaStep u hPu)

/-- A step keeps what its pieces keep. -/
theorem step {s t : State} (hok : ∀ x rest, s.script = x :: rest → ok x) (hst : step s = .next t) (hs : P s) : P t := by
  obtain ⟨-, ⟨f, w, rest, i, u, hscript, hd, hu, rfl⟩ | ⟨f, w, rest, -, -, rfl⟩ | ⟨e, rest, u, hscript, hu, rfl⟩ | ⟨-, ho⟩⟩ :=
    step_cases hst
  · refine h.release u (h.exec (fun hi => ?_) hu (h.past s rest hs))
    obtain ⟨rfl, rfl⟩ := decode_eq_reset (hi ▸ hd)
    exact hok _ _ hscript
  · exact h.rstLow _ (h.past s rest hs)
  · have hPu : P u := h.envStep (hok _ _ hscript) hu (h.past s rest hs)
    split
    · exact h.release u hPu
    · exact hPu
  · exact h.owedStep ho hs

end KeptByParts

/-! ### What a sub-step and an event of the environment can touch -/

/-- Everything an event of the environment can do: a step of the collaborator's, a location disturbed, or a level on an operand
port or a read on record. -/
theorem envStep_environment_cases {e : Event} (he : e.OfEnvironment) {s t : State} (h : envStep e s = .next t) :
    (∃ x, e = .dmaWrite x ∧ t = dmaWrite x s) ∨ (e = .dmaRearmed ∧ t = dmaRearmed s) ∨
      (∃ w ch, e = .dmaPlaced w ch ∧ t = dmaPlaced w ch s) ∨
      (∃ j, e = .disturb j ∧ t = s.modEnv fun v => { v with buf := v.buf.disturb j }) ∨
      ∃ r p c o l, t = { s with env := { s.env with rem := r, pins := p, cnt := c, outcmd := o }, seen := l } := by
  obtain ⟨hagent, hinst⟩ := he
  cases e with
  | instant rst p o r => exact absurd rfl (hinst rst p o r)
  | pa watch => cases hagent
  | ea => cases hagent
  | dmaWrite x => exact .inl ⟨x, rfl, (Host.Outcome.next.inj h).symm⟩
  | dmaRearmed => exact .inr (.inl ⟨rfl, (Host.Outcome.next.inj h).symm⟩)
  | dmaPlaced w ch => exact .inr (.inr (.inl ⟨w, ch, rfl, (Host.Outcome.next.inj h).symm⟩))
  | disturb j => exact .inr (.inr (.inr (.inl ⟨j, rfl, (Host.Outcome.next.inj h).symm⟩)))
  | driveRem _ | drivePins _ | driveCnt _ | driveOutcmd _ | observe _ =>
    exact .inr (.inr (.inr (.inr ⟨_, _, _, _, _, (Host.Outcome.next.inj h).symm⟩)))

/-- An event of the environment touches the ports' side and the list of reads; `rst` and `buf_idx` are not among the ports it
drives. -/
theorem envStep_environment_frame {e : Event} (he : e.OfEnvironment) {s t : State} (h : envStep e s = .next t) :
    t.cfg = s.cfg ∧ t.adu = s.adu ∧ t.pdu = s.pdu ∧ t.seq = s.seq ∧ t.flt = s.flt ∧ t.env.rst = s.env.rst ∧
      t.env.bufIdx = s.env.bufIdx := by
  obtain ⟨x, -, rfl⟩ | ⟨-, rfl⟩ | ⟨w, ch, -, rfl⟩ | ⟨j, -, rfl⟩ | ⟨r, p, c, o, l, rfl⟩ := envStep_environment_cases he h
  · exact ⟨rfl, rfl, rfl, rfl, rfl, rfl, rfl⟩
  · rw [dmaRearmed_eq]
    refine ⟨rfl, rfl, rfl, rfl, rfl, ?_, ?_⟩ <;> dsimp only <;> split <;> rfl
  · exact ⟨rfl, rfl, rfl, rfl, rfl, rfl, rfl⟩
  · exact ⟨rfl, rfl, rfl, rfl, rfl, rfl, rfl⟩
  · exact ⟨rfl, rfl, rfl, rfl, rfl, rfl, rfl⟩

/-- A sub-step leaves the configuration and the PDU alone, and the ports' side too, but for what `DR_RUN` does to it (R172). -/
theorem paStepWatched_frame {watch : List (List Watch)} {s t : State} (h : paStepWatched watch s = .next t) :
    t.cfg = s.cfg ∧ t.pdu = s.pdu ∧ (t.env = s.env ∨ t.env = drainedEnv s ∨ t.env = rearmedEnv s) := by
  obtain ⟨-, rfl⟩ | ⟨-, ⟨-, rfl⟩ | ⟨-, rfl⟩ | ⟨i, -, rfl⟩ | ⟨-, hd⟩ | ⟨-, rfl⟩⟩ := paStepWatched_cases h
  · exact ⟨rfl, rfl, .inl rfl⟩
  · exact ⟨rfl, rfl, .inl rfl⟩
  · exact ⟨rfl, rfl, .inl rfl⟩
  · exact ⟨rfl, rfl, .inl rfl⟩
  · obtain ⟨-, ⟨-, -, rfl⟩ | ⟨-, -, ch, -, -, rfl⟩ | ⟨-, rfl⟩⟩ := drRun_cases hd
    · exact ⟨rfl, rfl, .inr (.inl rfl)⟩
    · exact ⟨rfl, rfl, .inr (.inl rfl)⟩
    · exact ⟨rfl, rfl, .inr (.inr rfl)⟩
  · rw [publishWatched_eq, publish_eq]
    exact ⟨rfl, rfl, .inl rfl⟩

theorem paStepWatched_cfg {watch : List (List Watch)} {s t : State} (h : paStepWatched watch s = .next t) :
    t.cfg = s.cfg := (paStepWatched_frame h).1

theorem paStepWatched_pdu {watch : List (List Watch)} {s t : State} (h : paStepWatched watch s = .next t) :
    t.pdu = s.pdu := (paStepWatched_frame h).2.1

theorem paStepWatched_env {watch : List (List Watch)} {s t : State} (h : paStepWatched watch s = .next t) :
    t.env = s.env ∨ t.env = drainedEnv s ∨ t.env = rearmedEnv s := (paStepWatched_frame h).2.2

/-- The edge agent writes the PDU and `e_pend`, nothing else (R120, R172). -/
theorem eaStep_frame (s : State) : ∃ (p : Pdu) (b : Bool), eaStep s = { s with pdu := p, seq := { s.seq with ePend := b } } := by
  unfold eaStep edgeBody
  split_ifs
  · exact ⟨s.pdu, false, rfl⟩
  · exact ⟨_, false, rfl⟩
  · exact ⟨s.pdu, s.seq.ePend, rfl⟩

theorem latchEdge_frame (s : State) : ∃ b : Bool, latchEdge s = { s with seq := { s.seq with ePend := b } } := by
  unfold latchEdge
  split
  · exact ⟨s.seq.ePend, rfl⟩
  · exact ⟨true, rfl⟩

@[simp] theorem cfg_eaStep (s : State) : (eaStep s).cfg = s.cfg := by
  obtain ⟨p, b, h⟩ := eaStep_frame s
  rw [h]

@[simp] theorem flt_eaStep (s : State) : (eaStep s).flt = s.flt := by
  obtain ⟨p, b, h⟩ := eaStep_frame s
  rw [h]

@[simp] theorem env_eaStep (s : State) : (eaStep s).env = s.env := by
  obtain ⟨p, b, h⟩ := eaStep_frame s
  rw [h]

@[simp] theorem cfg_latchEdge (s : State) : (latchEdge s).cfg = s.cfg := by
  obtain ⟨b, h⟩ := latchEdge_frame s
  rw [h]

@[simp] theorem env_latchEdge (s : State) : (latchEdge s).env = s.env := by
  obtain ⟨b, h⟩ := latchEdge_frame s
  rw [h]

@[simp] theorem pdu_latchEdge (s : State) : (latchEdge s).pdu = s.pdu := by
  obtain ⟨b, h⟩ := latchEdge_frame s
  rw [h]

@[simp] theorem flt_latchEdge (s : State) : (latchEdge s).flt = s.flt := by
  obtain ⟨b, h⟩ := latchEdge_frame s
  rw [h]

/-! ### The configuration -/

/-- No piece of a step writes a parameter (R205). -/
theorem keptByParts_cfg (c : Config) : KeptByParts (fun _ => True) (fun s => s.cfg = c) where
  past _ _ h := h
  undrive _ h := h
  release _ h := h
  countDraw _ h := h
  rstLow _ h := h
  acceptDrain _ _ h := h
  acceptCycle _ _ h := h
  paStep _ _ _ hst h := (paStepWatched_cfg hst).trans h
  eaStep s h := (cfg_eaStep s).trans h
  latchEdge s h := (cfg_latchEdge s).trans h
  resetRequest _ _ h := h
  resetInstant _ _ _ _ _ h := h
  environment _ _ hof _ _ he h := (envStep_environment_frame hof he).1.trans h

theorem step_cfg {s t : State} (h : step s = .next t) : t.cfg = s.cfg :=
  (keptByParts_cfg s.cfg).step (fun _ _ _ => trivial) h rfl

/-- Settles O49: a parameter is kept by every piece of a step. -/
theorem noStepChangesTheConfiguration : Obligations.NoStepChangesTheConfiguration := fun _ _ => step_cfg

/-! ### The trace of re-arms -/

/-- One re-arm more makes a trace of `k` re-arms one of `k + 1` (R25, R41). -/
theorem traceOfRearms_succ {s t : State} {k : Nat} (hk : s.TraceOfRearms k) (hcfg : t.cfg = s.cfg)
    (hcount : t.adu.rearmCount = s.adu.rearmCount + 1) (hctl : t.adu.ctl = s.adu.ctl ++ rearmEvents s.cfg) :
    t.TraceOfRearms (k + 1) := by
  obtain ⟨htrace, hnum⟩ := hk
  refine ⟨?_, ?_⟩
  · rw [hctl, htrace, hcfg, List.replicate_succ', List.flatten_append, List.flatten_singleton]
  · rw [hcount, hnum, BitVec.ofNat_add]
    rfl

/-- Settles O44: a step leaves the trace alone, adds one re-arm, or is a reset, as `rearm_count` has it. -/
theorem stepKeepsTheTraceAWholeNumberOfRearms : Obligations.StepKeepsTheTraceAWholeNumberOfRearms := by
  intro s t k hk h
  have hcfg := step_cfg h
  obtain ⟨hcount, hctl⟩ | ⟨hcount, hctl, -, -⟩ | ⟨hreset, hcount, hctl⟩ := onlyRearmAndResetTouchRearmCount s t h
  · exact .inl ⟨by rw [hctl, hcfg]; exact hk.1, hcount.trans hk.2⟩
  · exact .inr (.inl (traceOfRearms_succ hk hcfg hcount hctl))
  · exact .inr (.inr ⟨⟨hctl, hcount⟩, hreset⟩)

/-! ### Locations and channels -/

/-- A step keeps location and channel together, unless it places the collaborator (R53, R59, U6). -/
theorem keptByParts_channelAligned :
    KeptByParts (fun x => ∀ w ch, x ≠ .event (.dmaPlaced w ch)) (fun s => s.cfg.wf = true ∧ ChannelAligned s) where
  past _ _ h := h
  undrive _ h := h
  release _ h := h
  countDraw _ h := h
  rstLow _ h := h
  acceptDrain _ _ h := h
  acceptCycle _ _ h := h
  paStep watch s t hst h := by
    unfold ChannelAligned at *
    obtain henv | henv | henv := paStepWatched_env hst <;> rw [paStepWatched_cfg hst, henv] <;> exact h
  eaStep s h := by
    unfold ChannelAligned at *
    simpa using h
  latchEdge s h := by
    unfold ChannelAligned at *
    simpa using h
  resetRequest _ _ h := h
  resetInstant _ _ _ _ _ h := h
  environment e hok hof s t he h := by
    obtain ⟨hw, haligned⟩ := h
    obtain ⟨x, -, rfl⟩ | ⟨-, rfl⟩ | ⟨w, ch, rfl, -⟩ | ⟨j, -, rfl⟩ | ⟨r, p, c, o, l, rfl⟩ := envStep_environment_cases hof he
    · exact ⟨hw, channelAligned_dmaWrite x (four_dvd_cap hw) haligned⟩
    · exact ⟨by rw [cfg_dmaRearmed]; exact hw, channelAligned_dmaRearmed haligned⟩
    · exact absurd rfl (hok w ch)
    · exact ⟨hw, haligned⟩
    · exact ⟨hw, haligned⟩

/-- Settles O56: with an accepted configuration every piece of a step keeps location and channel together. -/
theorem stepKeepsLocationsAndChannelsTogether : Obligations.StepKeepsLocationsAndChannelsTogether := by
  intro s t hplaced ha h
  obtain ⟨hw, -⟩ := step_cases h
  refine (keptByParts_channelAligned.step (fun x rest hs w ch => ?_) h ⟨hw, ha⟩).2
  rintro rfl
  exact hplaced w ch rest hs

/-! ### A lapped buffer -/

/-- A delivery either stays short of a lap since the last `DRAIN` or leaves no location with contents (U5). -/
theorem lapForgotten_dmaWrite (x : Sample) (s : State) : (dmaWrite x s).LapForgotten :=
  fun hle => bufferAfter_of_le _ hle

theorem keptByParts_lapForgotten : KeptByParts (fun _ => True) State.LapForgotten where
  past _ _ h := h
  undrive _ h := h
  release _ h := h
  countDraw _ h := h
  rstLow _ h := h
  acceptDrain _ _ h := h
  acceptCycle _ _ h := h
  paStep watch s t hst h := by
    have hpos := cap_pos s.cfg
    unfold State.LapForgotten at *
    obtain henv | henv | henv := paStepWatched_env hst <;> rw [paStepWatched_cfg hst, henv]
    · exact h
    · exact fun hle => absurd hle (Nat.not_le.2 hpos)
    · exact fun _ => rfl
  eaStep s h := by
    unfold State.LapForgotten at *
    simpa using h
  latchEdge s h := by
    unfold State.LapForgotten at *
    simpa using h
  resetRequest _ _ _ := fun _ => rfl
  resetInstant _ _ _ _ _ _ := fun _ => rfl
  environment e _ hof s t he h := by
    obtain ⟨x, -, rfl⟩ | ⟨-, rfl⟩ | ⟨w, ch, -, rfl⟩ | ⟨j, -, rfl⟩ | ⟨r, p, c, o, l, rfl⟩ := envStep_environment_cases hof he
    · exact lapForgotten_dmaWrite x s
    · unfold State.LapForgotten at *
      rw [dmaRearmed_eq]
      dsimp only
      split <;> exact h
    · exact h
    · intro hle
      have hbuf : s.env.buf = [] := h hle
      rw [State.env_modEnv, hbuf]
      rfl
    · exact h

/-- Settles O59: every piece of a step keeps a lapped buffer without contents. -/
theorem stepKeepsALappedBufferWithoutContents : Obligations.StepKeepsALappedBufferWithoutContents :=
  fun _ _ hs h => keptByParts_lapForgotten.step (fun _ _ _ => trivial) h hs

end Sys2Proof.Machine
end


section
/-! PROOF. The invariant of the machine (10_state.md section 7): its parts unit by unit, each kept by the pieces of a step that
write that unit. -/

namespace Sys2Proof.Machine

/-! ### The parts of the invariant -/

/-- The ADU's share of `InRange`. -/
def Adu.InRange (c : Config) (a : Adu) : Prop :=
  a.cursor < c.cap ∧ (∀ ch, (a.avg.get ch).toNat ≤ 32752) ∧ ∀ ch, (a.adcOut.get ch).toNat ≤ 32752

/-- The PDU's share of `InRange`. -/
def Pdu.InRange (c : Config) (p : Pdu) : Prop :=
  p.lastLevels &&& ~~~ monMask c = 0 ∧ ∀ i, p.riseTs.get i < c.cntMod

/-- The ports' and the collaborator's share of `InRange`. -/
def Env.InRange (c : Config) (e : Env) : Prop :=
  (∀ v ∈ e.cnt, v < c.cntMod) ∧ (∀ v ∈ e.rem, v < 2 * c.cap) ∧ e.wCur < c.cap ∧ Memory.wf c.cap e.buf

/-- `in_cycle` says whose sub-steps are running (R36). -/
def Seq.PhaseConsistent (q : Seq) : Prop := (q.ph = .idle → q.inCycle = false) ∧ (q.ph.cycleOnly = true → q.inCycle = true)

theorem inRange_iff (s : State) :
    s.InRange ↔ s.adu.InRange s.cfg ∧ s.pdu.InRange s.cfg ∧ s.env.InRange s.cfg := by
  unfold State.InRange Adu.InRange Pdu.InRange Env.InRange
  tauto

/-- `ControlConsistent` of a block that neither `halted` nor `rst` holds. -/
structure State.Running (s : State) : Prop where
  unmasked : s.seq.irqMask = false
  phase : s.seq.PhaseConsistent
  flt : s.flt = FaultRegs.reset
  rst : s.env.rst = false

theorem State.Running.consistent {s : State} (h : s.Running) : s.ControlConsistent := by
  obtain ⟨hmask, ⟨hidle, hcycle⟩, hflt, hrst⟩ := h
  refine ⟨hmask, hidle, hcycle, ?_, ?_, ?_⟩ <;> simp [hflt, hrst, FaultRegs.reset]

theorem State.ControlConsistent.running {s : State} (h : s.ControlConsistent) (hhalt : s.flt.halted = false)
    (hrst : s.env.rst = false) : s.Running := by
  obtain ⟨hmask, hidle, hcycle, -, hnone, -⟩ := h
  obtain ⟨hcode, hinfo⟩ := hnone hhalt
  refine ⟨hmask, ⟨hidle, hcycle⟩, ?_, hrst⟩
  show s.flt = ⟨false, .none, 0⟩
  rw [← hhalt, ← hcode, ← hinfo]

/-! ### Reset -/

theorem Adu.inRange_reset (c : Config) : Adu.reset.InRange c := by
  refine ⟨cap_pos c, fun ch => ?_, fun ch => ?_⟩ <;> simp [Adu.reset]

theorem Pdu.inRange_reset (c : Config) : Pdu.reset.InRange c := by
  refine ⟨by simp [Pdu.reset], fun i => ?_⟩
  simp only [Pdu.reset, Quad.get_fill]
  exact cntMod_pos c

/-- A reset meets the invariant whatever the registers held, at either level of `rst` (R190). -/
theorem inv_resetBlock {s : State} (b : Bool) (h : s.Inv) : ((s.setRst b).resetBlock).Inv := by
  obtain ⟨hw, hr, -⟩ := h
  obtain ⟨-, -, hcnt, hrem, hcur, -⟩ := (inRange_iff s).1 hr
  refine ⟨hw, (inRange_iff _).2 ⟨Adu.inRange_reset _, Pdu.inRange_reset _, hcnt, hrem, hcur, Memory.wf_nil _⟩, ?_⟩
  exact ⟨rfl, fun _ => rfl, nofun, nofun, fun _ => ⟨rfl, rfl⟩, fun _ => ⟨rfl, rfl, rfl, rfl⟩⟩

/-! ### The periodic agent -/

/-- An accepted request leaves `in_cycle` saying which it was (R141). -/
theorem inv_accept {s : State} (ha : Accepting s) (h : s.Inv) : (acceptDrain s).Inv ∧ (acceptCycle s).Inv := by
  obtain ⟨-, hhalt, hrst⟩ := ha
  obtain ⟨hw, hr, hc⟩ := h
  obtain ⟨hmask, -, hflt, -⟩ := hc.running hhalt hrst
  have running : ∀ (b : Bool) (p : Phase), ({ s.seq with inCycle := b, ph := p } : Seq).PhaseConsistent →
      (s.modSeq fun q => { q with inCycle := b, ph := p }).Running := fun b p hphase => ⟨hmask, hphase, hflt, hrst⟩
  exact ⟨⟨hw, hr, (running false .drRun ⟨nofun, nofun⟩).consistent⟩,
    ⟨hw, hr, (running true .cyOut ⟨nofun, fun _ => rfl⟩).consistent⟩⟩

theorem Adu.inRange_drained {s : State} {a : Adu} (hcur : a.cursor = filledOf s % s.cfg.cap)
    (havg : a.avg = channelAverages s ∨ a.avg = s.adu.avg) (hout : a.adcOut = s.adu.adcOut) (h : s.adu.InRange s.cfg) :
    a.InRange s.cfg := by
  refine ⟨hcur ▸ Nat.mod_lt _ (cap_pos _), ?_, hout ▸ h.2.2⟩
  obtain havg | havg := havg
  · exact fun ch => havg ▸ (channelAverages_toNat s ch).trans_le (channelAverage_le s ch)
  · exact havg ▸ h.2.1

/-- `DR_RUN` leaves the cursor at a location and the averages in range, and a fault recorded only where it halts (R101, R164). -/
theorem inv_drRun {s t : State} (hp : s.seq.ph = .drRun) (hrun : s.Running) (hd : drRun s = .next t) (h : s.Inv) :
    t.Inv := by
  obtain ⟨hw, hr, -⟩ := h
  obtain ⟨hadu, hpdu, henv⟩ := (inRange_iff s).1 hr
  obtain ⟨hmask, hphase, hflt, hrst⟩ := hrun
  obtain ⟨-, ⟨-, -, rfl⟩ | ⟨-, -, ch, -, -, rfl⟩ | ⟨-, rfl⟩⟩ := drRun_cases hd
  · refine ⟨hw, (inRange_iff _).2 ⟨Adu.inRange_drained (s := s) rfl (.inl rfl) rfl hadu, hpdu, henv⟩, ?_⟩
    exact State.Running.consistent ⟨hmask, ⟨nofun, nofun⟩, hflt, hrst⟩
  · refine ⟨hw, (inRange_iff _).2 ⟨Adu.inRange_drained (s := s) rfl (.inr rfl) rfl hadu, hpdu, henv⟩, ?_⟩
    exact ⟨hmask, hphase.1, hphase.2, fun _ => ⟨hp, rfl⟩, nofun,
      fun h => absurd (hrst.symm.trans h) (by decide)⟩
  · refine ⟨hw, (inRange_iff _).2 ⟨⟨cap_pos _, fun ch => ?_, hadu.2.2⟩, hpdu, henv.1, henv.2.1, henv.2.2.1,
      Memory.wf_nil _⟩, ?_⟩
    · simp [ranRearm, rearmedAdu]
    · exact State.Running.consistent ⟨rfl, ⟨nofun, nofun⟩, hflt, hrst⟩

theorem phaseConsistent_cyPwm {q : Seq} {i : Ch} (hp : q.ph = .cyPwm i) (h : q.PhaseConsistent) (l : Quad (BitVec 16)) :
    ({ q with latPwm := l, ph := phaseAfterPwm i } : Seq).PhaseConsistent := by
  have hcycle : q.inCycle = true := h.2 (by rw [hp]; rfl)
  refine ⟨fun hidle => ?_, fun _ => hcycle⟩
  revert hidle
  simp only [phaseAfterPwm]
  split <;> exact nofun

theorem inv_paStepWatched {watch : List (List Watch)} {s t : State} (hst : paStepWatched watch s = .next t) (h : s.Inv) :
    t.Inv := by
  obtain ⟨-, rfl⟩ | ⟨he, hsub⟩ := paStepWatched_cases hst
  · exact h
  obtain ⟨-, hhalt, hrst⟩ := (paEnabled_iff s).1 he
  have hrun := h.2.2.running hhalt hrst
  have hphase := hrun.phase
  have seqOnly : ∀ q : Seq, q.irqMask = s.seq.irqMask → q.PhaseConsistent → ({ s with seq := q } : State).Inv :=
    fun q hq hqp => ⟨h.1, h.2.1, State.Running.consistent ⟨hq.trans hrun.unmasked, hqp, hrun.flt, hrst⟩⟩
  obtain ⟨hp, rfl⟩ | ⟨hp, rfl⟩ | ⟨i, hp, rfl⟩ | ⟨hp, hd⟩ | ⟨-, rfl⟩ := hsub
  · exact seqOnly _ rfl ⟨nofun, fun _ => hphase.2 (by rw [hp]; rfl)⟩
  · exact seqOnly _ rfl ⟨nofun, fun _ => hphase.2 (by rw [hp]; rfl)⟩
  · exact seqOnly _ rfl (phaseConsistent_cyPwm hp hphase _)
  · exact inv_drRun hp hrun hd h
  · rw [publishWatched_eq, publish_eq]
    obtain ⟨hadu, hpdu, henv⟩ := (inRange_iff s).1 h.2.1
    refine ⟨h.1, (inRange_iff _).2 ⟨⟨hadu.1, hadu.2.1, hadu.2.1⟩, hpdu, henv⟩, ?_⟩
    exact State.Running.consistent ⟨hrun.unmasked, ⟨fun _ => rfl, nofun⟩, hrun.flt, hrst⟩

/-! ### The edge agent -/

theorem cntSeen_lt {s : State} (h : s.env.InRange s.cfg) : cntSeen s < s.cfg.cntMod := by
  unfold cntSeen
  cases hc : s.env.cnt with
  | none => exact Nat.mod_lt _ (cntMod_pos _)
  | some v => exact h.1 v (by simp [hc])

/-- An `EDGE` keeps the levels within `MON_MASK` and the stamps within the counter's width (R122, R125). -/
theorem Pdu.inRange_edgedPdu {s : State} (hp : s.pdu.InRange s.cfg) (he : s.env.InRange s.cfg) :
    (edgedPdu s).InRange s.cfg := by
  refine ⟨?_, fun i => ?_⟩
  · simp only [edgedPdu]
    ext b
    simp
  · simp only [edgedPdu, Quad.get_ofFn]
    split
    · exact cntSeen_lt he
    · exact hp.2 i

theorem inv_eaStep {s : State} (h : s.Inv) : (eaStep s).Inv := by
  by_cases he : eaEnabled s = true
  · obtain ⟨hpend, hmask, hhalt, hrst⟩ := (eaEnabled_iff s).1 he
    rw [eaStep_open h.1 ⟨hrst, hhalt, hmask⟩ hpend]
    obtain ⟨hadu, hpdu, henv⟩ := (inRange_iff s).1 h.2.1
    obtain ⟨-, hphase, hflt, -⟩ := h.2.2.running hhalt hrst
    exact ⟨h.1, (inRange_iff _).2 ⟨hadu, Pdu.inRange_edgedPdu hpdu henv, henv⟩,
      State.Running.consistent ⟨hmask, hphase, hflt, hrst⟩⟩
  · rw [eaStep_closed (by simpa using he)]
    exact h

theorem inv_latchEdge {s : State} (h : s.Inv) : (latchEdge s).Inv := by
  unfold latchEdge
  split_ifs with hrst
  · exact h
  · obtain ⟨hw, hr, hmask, hidle, hcycle, hhalt, hok, -⟩ := h
    exact ⟨hw, hr, hmask, hidle, hcycle, hhalt, hok, fun h => absurd h hrst⟩

/-! ### The environment -/

theorem mem_some_lt {v w m : Nat} (hv : v < m) (hw : w ∈ some v) : w < m := by
  obtain rfl : v = w := by simpa using hw
  exact hv

/-- Every event of the environment keeps the widths of what it drives (R42) and the buffer's canonical form. -/
theorem Env.inRange_envStep {e : Event} (hof : e.OfEnvironment) {s t : State} (he : envStep e s = .next t)
    (h : s.env.InRange s.cfg) : t.env.InRange s.cfg := by
  obtain ⟨hcnt, hrem, hcur, hbuf⟩ := h
  cases e with
  | instant rst p o r => exact absurd rfl (hof.2 rst p o r)
  | pa watch => cases hof.1
  | ea => cases hof.1
  | dmaWrite x =>
    injection he with he
    exact he ▸ ⟨hcnt, hrem, Nat.mod_lt _ (cap_pos _), wf_bufferAfter (Memory.wf_write x hcur hbuf)⟩
  | dmaRearmed =>
    injection he with he
    subst he
    rw [dmaRearmed_eq]
    dsimp only
    split
    · exact ⟨hcnt, nofun, cap_pos _, hbuf⟩
    · exact ⟨hcnt, hrem, hcur, hbuf⟩
  | dmaPlaced w ch =>
    injection he with he
    exact he ▸ ⟨hcnt, hrem, Nat.mod_lt _ (cap_pos _), hbuf⟩
  | disturb j =>
    injection he with he
    exact he ▸ ⟨hcnt, hrem, hcur, Memory.wf_disturb j hbuf⟩
  | driveRem v =>
    injection he with he
    exact he ▸ ⟨hcnt, fun _ hw => mem_some_lt (Nat.mod_lt _ (Nat.mul_pos Nat.two_pos (cap_pos _))) hw, hcur, hbuf⟩
  | driveCnt v =>
    injection he with he
    exact he ▸ ⟨fun _ hw => mem_some_lt (Nat.mod_lt _ (cntMod_pos _)) hw, hrem, hcur, hbuf⟩
  | drivePins _ | driveOutcmd _ | observe _ =>
    injection he with he
    exact he ▸ ⟨hcnt, hrem, hcur, hbuf⟩

theorem inv_environment {e : Event} (hof : e.OfEnvironment) {s t : State} (he : envStep e s = .next t) (h : s.Inv) :
    t.Inv := by
  obtain ⟨hcfg, hadu, hpdu, hseq, hflt, hrst, -⟩ := envStep_environment_frame hof he
  obtain ⟨hw, hr, hc⟩ := h
  obtain ⟨har, hpr, her⟩ := (inRange_iff s).1 hr
  refine ⟨hcfg ▸ hw, (inRange_iff t).2 ⟨?_, ?_, ?_⟩, ?_⟩
  · rw [hcfg, hadu]; exact har
  · rw [hcfg, hpdu]; exact hpr
  · rw [hcfg]; exact Env.inRange_envStep hof he her
  · unfold State.ControlConsistent State.RegistersReset
    rw [hadu, hpdu, hseq, hflt, hrst]
    exact hc

/-! ### The step -/

/-- With nothing driven on the ports the widths are met. -/
theorem inv_undriven {s : State} (h : s.Inv) (n : Nat) :
    (s.modEnv fun e => { e with rem := none, pins := none, cnt := none, outcmd := none, instant := n }).Inv := by
  obtain ⟨hw, hr, hc⟩ := h
  obtain ⟨hadu, hpdu, -, -, hcur, hbuf⟩ := (inRange_iff s).1 hr
  exact ⟨hw, (inRange_iff _).2 ⟨hadu, hpdu, nofun, nofun, hcur, hbuf⟩, hc⟩

theorem keptByParts_inv : KeptByParts (fun _ => True) State.Inv where
  past _ _ h := h
  undrive s h := inv_undriven h s.env.instant
  release s h := inv_undriven h (s.env.instant + 1)
  countDraw _ h := h
  rstLow s h := by
    obtain ⟨hw, hr, hmask, hidle, hcycle, hhalt, hok, -⟩ := h
    exact ⟨hw, hr, hmask, hidle, hcycle, hhalt, hok, nofun⟩
  acceptDrain _ ha h := (inv_accept ha h).1
  acceptCycle _ ha h := (inv_accept ha h).2
  paStep _ _ _ hst h := inv_paStepWatched hst h
  eaStep _ h := inv_eaStep h
  latchEdge _ h := inv_latchEdge h
  resetRequest _ _ h := inv_resetBlock false h
  resetInstant _ _ _ _ _ h := inv_resetBlock true h
  environment _ _ hof _ _ he h := inv_environment hof he h

/-- Every step keeps the invariant. -/
theorem step_inv {s t : State} (hs : s.Inv) (h : step s = .next t) : t.Inv :=
  keptByParts_inv.step (fun _ _ _ => trivial) h hs

/-- Settles O42: every piece of a step keeps the invariant. -/
theorem stepKeepsTheInvariant : Obligations.StepKeepsTheInvariant := fun _ _ => step_inv

/-- Settles O41: the registers of the reset state hold their reset values, and TC1 is an accepted configuration. -/
theorem resetStateMeetsTheInvariant : Obligations.ResetStateMeetsTheInvariant := by
  have hw : Config.tc1.wf = true := by decide
  have hcnt : ∀ v ∈ (some 0 : Option Nat), v < Config.tc1.cntMod := fun v hv => mem_some_lt (cntMod_pos _) hv
  have hrem : ∀ v ∈ some Config.tc1.cap, v < 2 * Config.tc1.cap := fun v hv =>
    mem_some_lt (by have := cap_pos Config.tc1; omega) hv
  refine ⟨⟨hw, (inRange_iff _).2 ⟨Adu.inRange_reset _, Pdu.inRange_reset _, hcnt, hrem, cap_pos _, Memory.wf_nil _⟩, ?_⟩,
    ⟨rfl, rfl⟩, ⟨rfl, rfl, rfl⟩, rfl, rfl, fun _ => rfl⟩
  exact State.Running.consistent ⟨rfl, ⟨fun _ => rfl, nofun⟩, rfl, rfl⟩

/-! ### A conforming configuration -/

/-- Under R13's constraint no `DR_RUN` halts the block (R102). -/
theorem drRun_conforming {s t : State} (hw : s.cfg.wf = true) (hc : s.cfg.conforming = true) (hd : drRun s = .next t) :
    t.flt = s.flt := by
  obtain ⟨-, ⟨-, -, rfl⟩ | ⟨hh, -, ch, hch, -, -⟩ | ⟨-, rfl⟩⟩ := drRun_cases hd
  · rfl
  · exact absurd hch (Nat.not_lt.2 (channelCount_le_cntMax hw hc hh ch))
  · rfl

theorem paStepWatched_conforming {watch : List (List Watch)} {s t : State} (hw : s.cfg.wf = true)
    (hc : s.cfg.conforming = true) (h : paStepWatched watch s = .next t) : t.flt = s.flt := by
  obtain ⟨-, rfl⟩ | ⟨-, ⟨-, rfl⟩ | ⟨-, rfl⟩ | ⟨i, -, rfl⟩ | ⟨-, hd⟩ | ⟨-, rfl⟩⟩ := paStepWatched_cases h
  · rfl
  · rfl
  · rfl
  · rfl
  · exact drRun_conforming hw hc hd
  · rw [publishWatched_eq, publish_eq]

theorem keptByParts_notHalted :
    KeptByParts (fun _ => True) (fun s => s.cfg.wf = true ∧ s.cfg.conforming = true ∧ s.flt.halted = false) where
  past _ _ h := h
  undrive _ h := h
  release _ h := h
  countDraw _ h := h
  rstLow _ h := h
  acceptDrain _ _ h := h
  acceptCycle _ _ h := h
  paStep _ _ _ hst h := by
    rw [paStepWatched_cfg hst, paStepWatched_conforming h.1 h.2.1 hst]
    exact h
  eaStep s h := by
    rw [cfg_eaStep, flt_eaStep]
    exact h
  latchEdge s h := by
    rw [cfg_latchEdge, flt_latchEdge]
    exact h
  resetRequest _ _ h := ⟨h.1, h.2.1, rfl⟩
  resetInstant _ _ _ _ _ h := ⟨h.1, h.2.1, rfl⟩
  environment _ _ hof _ _ he h := by
    obtain ⟨hcfg, -, -, -, hflt, -⟩ := envStep_environment_frame hof he
    rw [hcfg, hflt]
    exact h

/-- Settles O43: with an accepted and conforming configuration no piece of a step raises a fault. -/
theorem conformingBlockNeverHalts : Obligations.ConformingBlockNeverHalts := by
  intro s t hinv hconf hhalt h
  obtain ⟨-, hconf', hhalt'⟩ := keptByParts_notHalted.step (fun _ _ _ => trivial) h ⟨hinv.1, hconf, hhalt⟩
  exact ⟨hhalt', hconf'⟩

end Sys2Proof.Machine
end


section
/-! PROOF. The request words and their operations (30_encoding.md sections 1 and 3), and what a step does with the next thing in
the script. -/

namespace Sys2Proof.Machine

/-! ### Decoding and encoding -/

/-- An operation's request word selects it, under its own format (R76). -/
theorem decode_encode (i : Instr) : decode i.format (encode i) = .ok i := by
  cases i with
  | pidle pOp => cases pOp <;> decide
  | reset | drain | cycle | edge | eidle => decide

/-- What a word decodes to has that word as its encoding: the rows of a format are mutually exclusive (R76). -/
theorem encode_decode {f : Format} {w : Byte} {i : Instr} (h : decode f w = .ok i) : f = i.format ∧ w = encode i := by
  have key : ∀ n < 4, ∀ j ∈ (decode f (BitVec.ofNat 8 n)).toOption, f = j.format ∧ BitVec.ofNat 8 n = encode j := by
    cases f <;> decide
  have hw := key w.toNat (toNat_lt_four_of_decode h) i
  rw [BitVec.ofNat_toNat, BitVec.setWidth_eq, h] at hw
  exact hw rfl

/-- Settles O2: the two directions are `encode_decode` and `decode_encode`. -/
theorem decodeAnswersExactlyTheEncodedWord : Obligations.DecodeAnswersExactlyTheEncodedWord := by
  refine fun f w i => ⟨encode_decode, ?_⟩
  rintro ⟨rfl, rfl⟩
  exact decode_encode i

/-- `rst` reading 0 is the one word of format `R` that selects nothing (R71). -/
theorem decode_rst_low : decode .r 0 = .error .selectsNone := by decide

/-- Settles O1: seven words are encodings, and the eighth is `rst` reading 0. -/
theorem requestPatternsDecodeToTheirOperations : Obligations.RequestPatternsDecodeToTheirOperations :=
  ⟨decode_encode .reset, decode_encode .drain, decode_encode .cycle, decode_encode (.pidle false),
    decode_encode (.pidle true), decode_encode .edge, decode_encode .eidle, decode_rst_low⟩

/-- With `p_req` low the periodic agent does nothing (R149). -/
@[simp] theorem exec_pidle (pOp : Bool) (s : State) : exec (.pidle pOp) s = .next s := rfl

/-- Settles O9: both words are encodings of `PIDLE`, which answers the state it is given. -/
theorem pidleChangesNothing : Obligations.PidleChangesNothing :=
  ⟨decode_encode (.pidle false), decode_encode (.pidle true), exec_pidle⟩

theorem decode_of_bits_above {f : Format} {w : Byte} (h : 2 ^ f.width ≤ w.toNat) :
    decode f w = .error .bitsAboveFormat := by
  have hwf : requestWf f w = false := by simpa [requestWf] using h
  simp [decode, hwf]

/-! ### The step, by what comes next in the script -/

section

variable {s : State} (hw : s.cfg.wf = true)
include hw

theorem step_request {f : Format} {w : Byte} {rest : List Stimulus} {i : Instr} (hs : s.script = .request f w :: rest)
    (hd : decode f w = .ok i) : step s = thenRelease (exec i (s.past rest)) := by
  simp only [step, fetch, hw, hs, fetchRequest, hd, if_true]
  rfl

theorem step_noPattern {f : Format} {w : Byte} {rest : List Stimulus} (hs : s.script = .request f w :: rest)
    (hd : decode f w = .error .bitsAboveFormat) : step s = .refused .noSuchPattern := by
  simp only [step, fetch, hw, hs, fetchRequest, hd, if_true]

theorem step_selectsNone {f : Format} {w : Byte} {rest : List Stimulus} (hs : s.script = .request f w :: rest)
    (hd : decode f w = .error .selectsNone) : step s = .next ((s.past rest).setRst false) := by
  simp only [step, fetch, hw, hs, fetchRequest, hd, if_true]
  rfl

theorem step_agentEvent {e : Event} {rest : List Stimulus} (hs : s.script = .event e :: rest)
    (he : e.isAgentStep = true) : step s = thenRelease (envStep e (s.past rest)) := by
  simp only [step, fetch, hw, hs, he, if_true]
  rfl

theorem step_otherEvent {e : Event} {rest : List Stimulus} (hs : s.script = .event e :: rest)
    (he : e.isAgentStep = false) : step s = envStep e (s.past rest) := by
  simp only [step, fetch, hw, hs, he, if_true, Bool.false_eq_true, if_false]
  rfl

theorem step_owed (hs : s.script = []) : step s = owedStep s := by
  simp only [step, fetch, hw, hs, if_true]

end

/-- Settles O3: one clause for each of the things the script's head can be. -/
theorem stepRunsTheDecodedRequest : Obligations.StepRunsTheDecodedRequest := by
  refine ⟨fun s f w rest i hw hs hd => step_request hw hs hd, fun s e rest hw hs => ⟨fun he => ?_, fun he => ?_⟩,
    fun s f w rest hw hs hbits => step_noPattern hw hs (decode_of_bits_above hbits),
    fun s rest hw hs => step_selectsNone hw hs decode_rst_low⟩
  · exact step_agentEvent hw hs ((isAgentStep_iff e).2 he)
  · exact step_otherEvent hw hs (by simpa using mt (isAgentStep_iff e).1 he)

theorem step_badConfig {s : State} (hw : s.cfg.wf = false) : step s = .refused .configOutOfScope := by
  simp [step, fetch, hw]

/-- Settles O4: each of the broken constraints is one that `Config.wf` asks about. -/
theorem configurationOutsideTheConstraintsIsRefused : Obligations.ConfigurationOutsideTheConstraintsIsRefused := by
  intro s hbroken
  refine step_badConfig (Bool.eq_false_iff.2 fun hw => ?_)
  have hbit := wf_pwmBit_lt hw
  have hhigh := wf_tHigh_lt hw
  simp only [Config.wf, Bool.and_eq_true, decide_eq_true_eq] at hw
  obtain ⟨⟨⟨⟨⟨hcap, hcnt⟩, hlow⟩, -⟩, -⟩, hinj⟩ := hw
  obtain h | h | h | h | ⟨i, h⟩ | ⟨i, j, hij, h⟩ := hbroken
  · exact absurd hcap (Nat.not_le.2 h)
  · exact absurd hcnt (Nat.not_le.2 h)
  · exact absurd hlow (Nat.not_lt.2 h)
  · exact absurd hhigh (Nat.not_lt.2 h)
  · exact absurd (hbit i) (Nat.not_lt.2 h)
  · exact hij (hinj i j h)

/-! ### The request ports at one instant -/

theorem instant_low (pReq pOp eReq : Bool) (s : State) :
    instant false pReq pOp eReq s = sampleE eReq (sampleP pReq pOp (s.setRst false)) := rfl

/-- With `rst` low an edge request sets `e_pend` (R74). -/
theorem latchEdge_of_rst_low {s : State} (h : s.env.rst = false) : latchEdge s = s.setEPend true := by
  simp [latchEdge, h]

theorem rst_sampleP (pReq pOp : Bool) (s : State) : (sampleP pReq pOp s).env.rst = s.env.rst := by
  rw [sampleP_eq]
  split_ifs <;> rfl

theorem sampleP_accepting {s : State} (h : Accepting s) (pOp : Bool) :
    sampleP true pOp s = if pOp then acceptCycle s else acceptDrain s := by
  rw [sampleP_eq, if_pos ⟨rfl, pSampled_of_accepting h⟩]

/-- Settles O5: the block accepts what `p_op` selects and latches what `e_req` asks for. -/
theorem simultaneousRequestsAreBothTaken : Obligations.SimultaneousRequestsAreBothTaken := by
  intro s pOp eReq hp hhalt
  have ha : Accepting (s.setRst false) := ⟨hp, hhalt, rfl⟩
  show Host.Outcome.next (instant false true pOp eReq s) = _
  rw [instant_low, sampleP_accepting ha, sampleE_eq]
  cases eReq <;> cases pOp <;> rfl

/-- Where format `P` starts nothing an edge request sets `e_pend`, and that is all (R74). -/
theorem instant_eReq {s : State} {pReq pOp : Bool} (h : pReq = false ∨ s.seq.ph ≠ .idle ∨ s.flt.halted = true) :
    instant false pReq pOp true s =
      { s with seq := { s.seq with ePend := true }, env := { s.env with rst := false } } := by
  have hdropped : sampleP pReq pOp (s.setRst false) = s.setRst false := by
    obtain rfl | hbusy := h
    · rw [sampleP_eq, if_neg (by simp)]
    · exact sampleP_dropped (s := s.setRst false) ((not_accepting_iff _).2 (hbusy.imp_right .inl)) pReq pOp
  rw [instant_low, hdropped, sampleE_eq, if_pos rfl, latchEdge_of_rst_low rfl]
  rfl

/-- Settles O6: the request is latched after whatever format `P` did. -/
theorem edgeRequestIsLatchedInEveryState : Obligations.EdgeRequestIsLatchedInEveryState := by
  refine fun s pReq pOp => ⟨⟨_, rfl, ?_⟩, fun h => congrArg _ (instant_eReq h)⟩
  rw [instant_low, sampleE_eq, if_pos rfl, latchEdge_of_rst_low (rst_sampleP pReq pOp _)]
  rfl

/-! ### The level of `rst` -/

theorem paEnabled_of_rst {s : State} (h : s.env.rst = true) : paEnabled s = false := by simp [paEnabled, h]

theorem eaEnabled_of_rst {s : State} (h : s.env.rst = true) : eaEnabled s = false := by simp [eaEnabled, h]

theorem paStepWatched_off (watch : List (List Watch)) {s : State} (h : paEnabled s = false) :
    paStepWatched watch s = .next s := by
  simp [paStepWatched, h]

theorem not_accepting_of_rst {s : State} (h : s.env.rst = true) : ¬ Accepting s :=
  (not_accepting_iff s).2 (.inr (.inr h))

/-- Under `rst` an edge request is not even latched (R74). -/
theorem execEdge_of_rst {s : State} (h : s.env.rst = true) : execEdge s = .next s := by
  rw [execEdge, latchEdge, if_pos h, eaStep_closed (eaEnabled_of_rst h)]

/-- Settles O7: the reset state with `rst` held high, in which nothing is sampled and no agent has a step. -/
theorem resetLevelOverridesEveryOtherRequest : Obligations.ResetLevelOverridesEveryOtherRequest := by
  intro s pReq pOp eReq
  have hrst : ((s.setRst true).resetBlock).env.rst = true := rfl
  exact ⟨_, rfl, ⟨rfl, rfl, rfl, rfl⟩, hrst, fun watch => paStepWatched_off watch (paEnabled_of_rst hrst),
    congrArg _ (eaStep_closed (eaEnabled_of_rst hrst)), execDrain_dropped (not_accepting_of_rst hrst),
    execCycle_dropped (not_accepting_of_rst hrst), execEdge_of_rst hrst⟩

theorem execReset_eq (s : State) : execReset s =
    .next
      { s with
        adu := Adu.reset
        pdu := Pdu.reset
        seq := Seq.reset
        flt := FaultRegs.reset
        env := { s.env with rst := false, buf := [], delivered := 0 } } := rfl

/-- Settles O8: the reset values of the four units, written out. -/
theorem resetGivesEveryRegisterItsResetValue : Obligations.ResetGivesEveryRegisterItsResetValue := execReset_eq

/-! ### A quiescent block -/

/-- Neither agent has a step (R194). -/
theorem owedStep_quiescent {s : State} (h : s.Quiescent) : owedStep s = .next s := by
  obtain ⟨hp, hpend, -⟩ := h
  simp [owedStep, paEnabled, pBusy, eaEnabled, hp, hpend]

/-- Settles O50: the script has run out and nothing is owed. -/
theorem quiescentBlockWithoutStimulusStays : Obligations.QuiescentBlockWithoutStimulusStays :=
  fun _ hw hs hq => (step_owed hw hs).trans (owedStep_quiescent hq)

end Sys2Proof.Machine
end


section
/-! PROOF. `DRAIN` and `CYCLE` as whole operations (40_adc_drain.md, 42_cycle_io.md): both end in `DR_RUN` and the sub-step after
it, which has three outcomes and two stops. -/

namespace Sys2Proof.Machine

/-! ### `DR_RUN` and the sub-step after it -/

/-- The state after a drain that consumed its samples, with `q` in the sequencer. -/
def drainedState (s : State) (q : Seq) : State :=
  { s with adu := drainedAdu s, seq := q, env := drainedEnv s, draws := s.draws + unread s }

/-- The state after a drain that re-armed, with `q` in the sequencer. -/
def rearmedState (s : State) (q : Seq) : State :=
  { s with adu := rearmedAdu s, seq := { q with irqMask := false }, env := rearmedEnv s }

section

variable {s : State} (hhalt : s.flt.halted = false) (hrst : s.env.rst = false)
include hhalt hrst

/-- A block at `PUB` that nothing holds off publishes next. -/
theorem paSteps_one_of_ph_pub (hp : s.seq.ph = .pub) : paSteps 1 s = .next (publish s) :=
  paSteps_one_pub ((paEnabled_iff s).2 ⟨by simp [hp], hhalt, hrst⟩) hp

theorem drain_healthy (hr : DrainReady s) (hh : Healthy s) (hc : CountsAllowed s) :
    andThen (drRun s) (paSteps 1) = .next (drainedState s (publishedSeq s.seq)) := by
  rw [drRun_healthy hr hh hc]
  refine (paSteps_one_of_ph_pub (s := ((ranOk s).modAdu _).setPh .pub) hhalt hrst rfl).trans ?_
  rw [publish_eq]
  rfl

theorem drain_rearm (hr : DrainReady s) (hh : ¬ Healthy s) :
    andThen (drRun s) (paSteps 1) = .next (rearmedState s (publishedSeq s.seq)) := by
  rw [drRun_rearm hr hh]
  refine (paSteps_one_of_ph_pub (s := ranRearm s) hhalt hrst rfl).trans ?_
  rw [publish_eq]
  rfl

end

section

variable {s : State}

theorem paEnabled_of_halted (h : s.flt.halted = true) : paEnabled s = false := by simp [paEnabled, h]

theorem drain_countFault {ch : Ch} (hr : DrainReady s) (hh : Healthy s) (hd : s.cfg.debugAssert = true)
    (hch : FirstOverCount s ch) : andThen (drRun s) (paSteps 1) = .next (countFaulted s s.seq ch) := by
  rw [drRun_countFault hr hh hd hch.1 hch.2, andThen_next, paSteps_off (paEnabled_of_halted rfl)]
  rfl

theorem drain_rem (h : s.cfg.cap < remSeen s) : andThen (drRun s) (paSteps 1) = .refused .remOutOfContract := by
  rw [drRun_rem h]
  rfl

theorem drain_cursor (hr : remSeen s ≤ s.cfg.cap) (h : s.cfg.cap ≤ s.adu.cursor) :
    andThen (drRun s) (paSteps 1) = .fault .noSuchLocation := by
  rw [drRun_cursor hr h]
  rfl

/-- Everything the end of a drain can do when it answers a next state. -/
theorem drain_cases {t : State} (hhalt : s.flt.halted = false) (hrst : s.env.rst = false)
    (h : andThen (drRun s) (paSteps 1) = .next t) :
    DrainReady s ∧
      ((Healthy s ∧ CountsAllowed s ∧ t = drainedState s (publishedSeq s.seq)) ∨
        (Healthy s ∧ s.cfg.debugAssert = true ∧ ∃ ch, FirstOverCount s ch ∧ t = countFaulted s s.seq ch) ∨
        (¬ Healthy s ∧ t = rearmedState s (publishedSeq s.seq))) := by
  obtain ⟨u, hu, -⟩ := andThen_eq_next h
  obtain ⟨hr, ⟨hh, hc, -⟩ | ⟨hh, hd, ch, hch, hlt, -⟩ | ⟨hh, -⟩⟩ := drRun_cases hu
  · rw [drain_healthy hhalt hrst hr hh hc] at h
    exact ⟨hr, .inl ⟨hh, hc, by injection h with h; exact h.symm⟩⟩
  · rw [drain_countFault hr hh hd ⟨hch, hlt⟩] at h
    exact ⟨hr, .inr (.inl ⟨hh, hd, ch, ⟨hch, hlt⟩, by injection h with h; exact h.symm⟩)⟩
  · rw [drain_rearm hhalt hrst hr hh] at h
    exact ⟨hr, .inr (.inr ⟨hh, by injection h with h; exact h.symm⟩)⟩

end

/-! ### The two operations

Neither the acceptance nor the sub-steps before `DR_RUN` touch what a drain reads, so each of its outcomes is stated of the state
the operation starts in. -/

section

variable {s : State} (ha : Accepting s)
include ha

theorem execDrain_healthy (hr : DrainReady s) (hh : Healthy s) (hc : CountsAllowed s) :
    execDrain s = .next (drainedState s (drainedSeq s)) :=
  (execDrain_accepted ha).trans (drain_healthy (s := acceptDrain s) ha.2.1 ha.2.2 hr hh hc)

theorem execDrain_rearm (hr : DrainReady s) (hh : ¬ Healthy s) :
    execDrain s = .next (rearmedState s (drainedSeq s)) :=
  (execDrain_accepted ha).trans (drain_rearm (s := acceptDrain s) ha.2.1 ha.2.2 hr hh)

theorem execDrain_countFault {ch : Ch} (hr : DrainReady s) (hh : Healthy s) (hd : s.cfg.debugAssert = true)
    (hch : FirstOverCount s ch) :
    execDrain s = .next (countFaulted s { s.seq with ph := .drRun, inCycle := false } ch) :=
  (execDrain_accepted ha).trans (drain_countFault (s := acceptDrain s) hr hh hd hch)

/-- Everything an accepted `DRAIN` can do when it answers a next state. -/
theorem execDrain_cases {t : State} (h : execDrain s = .next t) :
    DrainReady s ∧
      ((Healthy s ∧ CountsAllowed s ∧ t = drainedState s (drainedSeq s)) ∨
        (Healthy s ∧ s.cfg.debugAssert = true ∧
          ∃ ch, FirstOverCount s ch ∧ t = countFaulted s { s.seq with ph := .drRun, inCycle := false } ch) ∨
        (¬ Healthy s ∧ t = rearmedState s (drainedSeq s))) := by
  rw [execDrain_accepted ha] at h
  exact drain_cases (s := acceptDrain s) ha.2.1 ha.2.2 h

theorem execCycle_healthy (hr : DrainReady s) (hh : Healthy s) (hc : CountsAllowed s) :
    execCycle s = .next (drainedState s (cycledSeq s)) :=
  (execCycle_accepted ha).trans (drain_healthy (s := { s with seq := latchedSeq s }) ha.2.1 ha.2.2 hr hh hc)

theorem execCycle_rearm (hr : DrainReady s) (hh : ¬ Healthy s) :
    execCycle s = .next (rearmedState s (cycledSeq s)) :=
  (execCycle_accepted ha).trans (drain_rearm (s := { s with seq := latchedSeq s }) ha.2.1 ha.2.2 hr hh)

theorem execCycle_countFault {ch : Ch} (hr : DrainReady s) (hh : Healthy s) (hd : s.cfg.debugAssert = true)
    (hch : FirstOverCount s ch) : execCycle s = .next (countFaulted s (latchedSeq s) ch) :=
  (execCycle_accepted ha).trans (drain_countFault (s := { s with seq := latchedSeq s }) hr hh hd hch)

/-- Everything an accepted `CYCLE` can do when it answers a next state. -/
theorem execCycle_cases {t : State} (h : execCycle s = .next t) :
    DrainReady s ∧
      ((Healthy s ∧ CountsAllowed s ∧ t = drainedState s (cycledSeq s)) ∨
        (Healthy s ∧ s.cfg.debugAssert = true ∧ ∃ ch, FirstOverCount s ch ∧ t = countFaulted s (latchedSeq s) ch) ∨
        (¬ Healthy s ∧ t = rearmedState s (cycledSeq s))) := by
  rw [execCycle_accepted ha] at h
  exact drain_cases (s := { s with seq := latchedSeq s }) ha.2.1 ha.2.2 h

end

/-- Settles O11: the drain is accepted, consumes its samples and publishes. -/
theorem healthyDrainPublishesTheChannelAverages : Obligations.HealthyDrainPublishesTheChannelAverages :=
  fun _ => execDrain_healthy

/-- Settles O12: the drain is accepted, re-arms and publishes zeros. -/
theorem desynchronizedDrainRearmsAndPublishesZeros : Obligations.DesynchronizedDrainRearmsAndPublishesZeros :=
  fun _ => execDrain_rearm

/-- Settles O13: the drain is accepted, and its `DR_RUN` halts the block. -/
theorem overfullDrainHaltsPrecisely : Obligations.OverfullDrainHaltsPrecisely :=
  fun _ _ ha hr hh hd hch => execDrain_countFault ha hr hh hd hch

/-- Settles O14: both operations come to a `DR_RUN` that samples the same `rem` at the same cursor, and it stops. -/
theorem drainOutsideTheContractStops : Obligations.DrainOutsideTheContractStops := by
  refine fun s ha => ⟨fun h => ⟨?_, ?_⟩, fun hr h => ⟨?_, ?_⟩⟩
  · exact (execDrain_accepted ha).trans (drain_rem h)
  · exact (execCycle_accepted ha).trans (drain_rem h)
  · exact (execDrain_accepted ha).trans (drain_cursor hr h)
  · exact (execCycle_accepted ha).trans (drain_cursor hr h)

/-- Settles O25: the `DRAIN` part as on its own, the rest latched and published around it. -/
theorem healthyCyclePublishesEverything : Obligations.HealthyCyclePublishesEverything :=
  fun _ => execCycle_healthy

/-- Settles O26: a re-arm changes nothing in what the other sub-steps do. -/
theorem desynchronizedCycleStillPublishesDigitalAndPwm : Obligations.DesynchronizedCycleStillPublishesDigitalAndPwm :=
  fun _ => execCycle_rearm

/-- Settles O27: the sub-steps before `DR_RUN` have taken effect, and it halts the block before its `PUB`. -/
theorem overfullCycleHaltsAndPublishesNothing : Obligations.OverfullCycleHaltsAndPublishesNothing :=
  fun _ _ ha hr hh hd hch => execCycle_countFault ha hr hh hd hch

/-! ### The sub-step `DR_RUN` on its own -/

theorem rearmedAdu_drainStatus {s : State} (h : ¬ Healthy s) :
    (rearmedAdu s).drainStatus =
      if unread s = 0 then .stall else if 8 * unread s > 7 * s.cfg.cap then .overrun else .ok := by
  simp only [rearmedAdu]
  split_ifs with h0 hover
  · rfl
  · rfl
  · exact absurd ⟨Nat.pos_of_ne_zero h0, Nat.not_lt.1 hover⟩ h

theorem healthCheck_of_healthy {s : State} (h : Healthy s) :
    (.ok : DrainStatus) = if unread s = 0 then .stall else if 8 * unread s > 7 * s.cfg.cap then .overrun else .ok := by
  rw [if_neg (Nat.ne_of_gt h.1), if_neg (Nat.not_lt.2 h.2)]

/-- A `DR_RUN` records the health check, and re-arms exactly when it is not OK (R94). -/
theorem drRun_drainStatus {s t : State} (h : drRun s = .next t) :
    (t.adu.drainStatus =
        if unread s = 0 then .stall else if 8 * unread s > 7 * s.cfg.cap then .overrun else .ok) ∧
      t.adu.ctl = if t.adu.drainStatus = .ok then s.adu.ctl else s.adu.ctl ++ rearmEvents s.cfg := by
  obtain ⟨-, ⟨hh, -, rfl⟩ | ⟨hh, -, ch, -, -, rfl⟩ | ⟨hh, rfl⟩⟩ := drRun_cases h
  · exact ⟨healthCheck_of_healthy hh, rfl⟩
  · exact ⟨healthCheck_of_healthy hh, rfl⟩
  · exact ⟨rearmedAdu_drainStatus hh, (if_neg (rearmedAdu_drainStatus_ne_ok s)).symm⟩

/-- Settles O16: no reads are made in a `DR_RUN`, so the event is `drRun` with its three outcomes and two stops. -/
theorem healthCheckSetsDrainStatus : Obligations.HealthCheckSetsDrainStatus := by
  refine ⟨fun s t h => drRun_drainStatus h, fun s watch hp hhalt hrst => ?_⟩
  have hrun : envStep (.pa watch) s = drRun s := by
    have he : paEnabled s = true := (paEnabled_iff s).2 ⟨by simp [hp], hhalt, hrst⟩
    exact (paStepWatched_of_ph_ne_pub watch (by simp [hp])).trans (paStep_drRun he hp)
  rw [hrun]
  exact ⟨drRun_healthy, fun ch hr hh hd hch => drRun_countFault hr hh hd hch.1 hch.2, drRun_rearm, drRun_rem, drRun_cursor⟩

end Sys2Proof.Machine
end


section
/-! PROOF. The laws of `DRAIN` (40_adc_drain.md section 4): what it publishes as a function of the samples it reads, and what it
does not depend on. -/

namespace Sys2Proof.Machine

/-! ### What a channel publishes -/

/-- What a `DRAIN` that does not halt publishes (R100, R103). -/
theorem adcOut_of_execDrain {s t : State} (ha : Accepting s) (h : execDrain s = .next t) (ht : t.flt.halted = false) :
    (Healthy s ∧ t.adu.adcOut = channelAverages s) ∨ (¬ Healthy s ∧ t.adu.adcOut = Quad.fill 0) := by
  obtain ⟨-, ⟨hh, -, rfl⟩ | ⟨-, -, ch, -, rfl⟩ | ⟨hh, rfl⟩⟩ := execDrain_cases ha h
  · exact .inl ⟨hh, rfl⟩
  · cases ht
  · exact .inr ⟨hh, rfl⟩

theorem channelCount_eq_zero_iff (s : State) (ch : Ch) :
    channelCount s ch = 0 ↔ ∀ k < unread s, sampleIndex s k % 4 ≠ ch.val := by
  simp [channelCount, countOver]

/-- Settles O18: a re-arm publishes zeros, and the average of no sample is 0. -/
theorem channelWithoutSamplesPublishesZero : Obligations.ChannelWithoutSamplesPublishesZero := by
  intro s t ch ha h ht hnone
  obtain ⟨hh, hout⟩ | ⟨-, hout⟩ := adcOut_of_execDrain ha h ht
  · have hcount : channelCount s ch = 0 :=
      (channelCount_eq_zero_iff s ch).2 (hnone.resolve_left (not_not_intro hh))
    simp [hout, channelAverages, channelAverage, hcount]
  · simp [hout]

/-- Samples that are all `v` sum to `v` times their number. -/
theorem channelTotal_of_constant {s : State} {ch : Ch} {v : Nat}
    (h : ∀ k < unread s, sampleIndex s k % 4 = ch.val → saturated (sampleRead s k) = v) :
    channelTotal s ch = v * channelCount s ch := by
  rw [channelTotal, channelCount, totalOver, countOver, Finset.mul_sum]
  refine Finset.sum_congr rfl fun k hk => ?_
  split_ifs with hch
  · rw [h k (Finset.mem_range.1 hk) hch, mul_one]
  · rw [mul_zero]

/-- The samples R99 leaves as they are. -/
theorem saturated_of_toInt_eq {x : Sample} {v : Nat} (hv : v ≤ 2047) (h : x.toInt = v) : saturated x = v := by
  rw [saturated, h]
  omega

/-- Settles O19: the total is `v` times the count, which is not 0. -/
theorem constantInputPublishesSixteenTimesTheInput : Obligations.ConstantInputPublishesSixteenTimesTheInput := by
  rintro s t ch v ha h ht hh hv ⟨k, hk, hch⟩ hconst
  have hcount : channelCount s ch ≠ 0 := fun h0 => (channelCount_eq_zero_iff s ch).1 h0 k hk hch
  have htotal : channelTotal s ch = v * channelCount s ch :=
    channelTotal_of_constant fun k hk hch => saturated_of_toInt_eq hv (hconst k hk hch)
  obtain ⟨-, hout⟩ | ⟨hno, -⟩ := adcOut_of_execDrain ha h ht
  · rw [hout, channelAverages_toNat, channelAverage, if_neg hcount, htotal, Nat.mul_right_comm,
      Nat.mul_div_cancel _ (Nat.pos_of_ne_zero hcount)]
  · exact absurd hh hno

/-! ### Other contents in the buffer

How many samples a `DRAIN` reads, at which indices and of which channels, does not depend on what they are. -/

/-- The average depends on the clamped values of the samples only (R107 c). -/
theorem channelAverages_withBuf {s : State} {m : Memory}
    (h : ∀ k < unread s, saturated (sampleRead (s.withBuf m) k) = saturated (sampleRead s k)) :
    channelAverages (s.withBuf m) = channelAverages s := by
  have htotal : ∀ ch, channelTotal (s.withBuf m) ch = channelTotal s ch := fun ch => by
    unfold channelTotal totalOver
    refine Finset.sum_congr rfl fun k hk => ?_
    rw [h k (Finset.mem_range.1 hk)]
    rfl
  refine congrArg Quad.ofFn (funext fun ch => congrArg (BitVec.ofNat 16) ?_)
  unfold channelAverage
  rw [htotal ch]
  rfl

theorem lookup_clampedBuf (m : Memory) (j : Nat) :
    Memory.lookup j (clampedBuf m) = (Memory.lookup j m).map fun x => BitVec.ofNat 16 (saturated x) := by
  induction m with
  | nil => rfl
  | cons p m ih =>
    obtain ⟨a, x⟩ := p
    have hcons : clampedBuf ((a, x) :: m) = (a, BitVec.ofNat 16 (saturated x)) :: clampedBuf m := rfl
    rw [hcons, Memory.lookup_cons, Memory.lookup_cons, ih]
    split <;> rfl

theorem saturated_saturated (x : Sample) : saturated (BitVec.ofNat 16 (saturated x)) = saturated x := by
  rw [← clampSample_eq, ← clampSample_eq]
  exact clampSample_of_clamped x

theorem saturated_sampleRead_clampedBuf (s : State) (k : Nat) :
    saturated (sampleRead (s.withBuf (clampedBuf s.env.buf)) k) = saturated (sampleRead s k) := by
  show saturated ((Memory.lookup (sampleIndex s k) (clampedBuf s.env.buf)).getD _) = _
  rw [lookup_clampedBuf, sampleRead]
  cases Memory.lookup (sampleIndex s k) s.env.buf with
  | none => rfl
  | some x => exact saturated_saturated x

/-- Settles O20: the two drains read samples of the same clamped values, and so take the same course. -/
theorem clampingTheBufferChangesNoOutput : Obligations.ClampingTheBufferChangesNoOutput := by
  intro s t h
  have havg := channelAverages_withBuf fun k _ => saturated_sampleRead_clampedBuf s k
  by_cases ha : Accepting s
  · obtain ⟨hr, ⟨hh, hc, rfl⟩ | ⟨hh, hd, ch, hch, rfl⟩ | ⟨hh, rfl⟩⟩ := execDrain_cases ha h
    · refine ⟨_, execDrain_healthy (s := s.withBuf _) ha hr hh hc, ?_, rfl, rfl⟩
      simp only [drainedState, drainedAdu, havg]
      rfl
    · exact ⟨_, execDrain_countFault (s := s.withBuf (clampedBuf s.env.buf)) ha hr hh hd hch, rfl, rfl, rfl⟩
    · exact ⟨_, execDrain_rearm (s := s.withBuf _) ha hr hh, rfl, rfl, rfl⟩
  · obtain rfl : s = t := by simpa [exec, execDrain_dropped ha] using h
    exact ⟨_, execDrain_dropped (s := s.withBuf _) ha, rfl, rfl, rfl⟩

theorem saturated_mono {x y : Sample} (h : x.toInt ≤ y.toInt) : saturated x ≤ saturated y := by
  rw [← clampSample_eq, ← clampSample_eq]
  exact clampSample_mono h

/-- Raising samples lowers no average (R107 e). -/
theorem channelAverage_mono {s : State} {m : Memory}
    (h : ∀ k < unread s, (sampleRead s k).toInt ≤ (sampleRead (s.withBuf m) k).toInt) (ch : Ch) :
    channelAverage s ch ≤ channelAverage (s.withBuf m) ch := by
  have htotal : channelTotal s ch ≤ channelTotal (s.withBuf m) ch :=
    Finset.sum_le_sum fun k hk => by
      show (if sampleIndex s k % 4 = ch.val then saturated (sampleRead s k) else 0) ≤
        if sampleIndex s k % 4 = ch.val then saturated (sampleRead (s.withBuf m) k) else 0
      split_ifs
      · exact saturated_mono (h k (Finset.mem_range.1 hk))
      · exact le_refl 0
  have hcount : channelCount (s.withBuf m) ch = channelCount s ch := rfl
  simp only [channelAverage, hcount]
  split
  · exact le_refl 0
  · exact Nat.div_le_div_right (Nat.mul_le_mul_right 16 htotal)

/-- Settles O21: the two drains take the same course, and where they publish averages those are monotone. -/
theorem outputsAreMonotoneInTheSamples : Obligations.OutputsAreMonotoneInTheSamples := by
  intro s t u m hle h hu ch
  by_cases ha : Accepting s
  · obtain ⟨hr, ⟨hh, hc, rfl⟩ | ⟨hh, hd, i, hi, rfl⟩ | ⟨hh, rfl⟩⟩ := execDrain_cases ha h
    · obtain rfl : _ = u := Host.Outcome.next.inj ((execDrain_healthy (s := s.withBuf m) ha hr hh hc).symm.trans hu)
      show ((channelAverages s).get ch).toNat ≤ ((channelAverages (s.withBuf m)).get ch).toNat
      rw [channelAverages_toNat, channelAverages_toNat]
      exact channelAverage_mono hle ch
    · obtain rfl : _ = u := Host.Outcome.next.inj ((execDrain_countFault (s := s.withBuf m) ha hr hh hd hi).symm.trans hu)
      exact le_refl _
    · obtain rfl : _ = u := Host.Outcome.next.inj ((execDrain_rearm (s := s.withBuf m) ha hr hh).symm.trans hu)
      exact le_refl _
  · obtain rfl : s = t := Host.Outcome.next.inj ((execDrain_dropped ha).symm.trans h)
    obtain rfl : _ = u := Host.Outcome.next.inj ((execDrain_dropped (s := s.withBuf m) ha).symm.trans hu)
    exact le_refl _

/-! ### Levels of `rem` -/

theorem not_healthy_of_unread_eq_zero {s : State} (h : unread s = 0) : ¬ Healthy s :=
  fun hh => Nat.lt_irrefl 0 (h ▸ hh.1)

/-- A cursor at 0 with `rem` reading `CAP` has nothing unread (R105 a, R106). -/
theorem unread_of_rem_cap {s : State} (hcur : s.adu.cursor = 0) (hrem : remSeen s = s.cfg.cap) : unread s = 0 := by
  have hfilled : filledOf s = 0 := by rw [filledOf, hrem, Nat.sub_self]
  rw [unread, hfilled, hcur, if_pos (le_refl 0)]

/-- Settles O22: the first `DRAIN` leaves the cursor at 0, so the second stalls too. -/
theorem repeatedStallPublishesZerosAndRearmsOncePerCall : Obligations.RepeatedStallPublishesZerosAndRearmsOncePerCall := by
  intro s ha hr h0
  obtain ⟨-, hhalt, hrst⟩ := id ha
  refine ⟨_, execDrain_rearm ha hr (not_healthy_of_unread_eq_zero h0), rfl, rfl, rfl, ?_⟩
  have hunread := unread_of_rem_cap (s := (rearmedState s (drainedSeq s)).withRem s.cfg.cap) rfl rfl
  refine ⟨_, execDrain_rearm (s := (rearmedState s (drainedSeq s)).withRem s.cfg.cap) ⟨rfl, hhalt, hrst⟩
    ⟨le_refl _, cap_pos _⟩ (not_healthy_of_unread_eq_zero hunread), rfl, rfl, if_pos hunread, ?_, rfl⟩
  show s.adu.rearmCount + 1 + 1 = _
  rw [add_assoc]
  rfl

/-- The two forms of write cursor 0 leave the same number unread at a nonzero cursor (R105 c, d). -/
theorem unread_withRem_zero {s : State} (hpos : 0 < s.adu.cursor) (hlt : s.adu.cursor < s.cfg.cap) :
    unread (s.withRem 0) = unread (s.withRem s.cfg.cap) := by
  have h0 : filledOf (s.withRem 0) = s.cfg.cap := Nat.sub_zero _
  have hcap : filledOf (s.withRem s.cfg.cap) = 0 := Nat.sub_self _
  rw [unread, unread, h0, hcap]
  show (if s.adu.cursor ≤ s.cfg.cap then _ else _) = if s.adu.cursor ≤ 0 then _ else _
  rw [if_pos hlt.le, if_neg (Nat.not_le.2 hpos)]
  rfl

theorem filledOf_withRem_zero_mod (s : State) :
    filledOf (s.withRem 0) % s.cfg.cap = filledOf (s.withRem s.cfg.cap) % s.cfg.cap := by
  have h0 : filledOf (s.withRem 0) = s.cfg.cap := Nat.sub_zero _
  have hcap : filledOf (s.withRem s.cfg.cap) = 0 := Nat.sub_self _
  rw [h0, hcap, Nat.mod_self, Nat.zero_mod]

section

variable {s : State} {r : Nat} (hu : unread (s.withRem r) = unread s)
include hu

/-- Which samples a `DRAIN` reads depends on `rem` through their number only. -/
theorem channelCount_withRem (ch : Ch) : channelCount (s.withRem r) ch = channelCount s ch := by
  show countOver s (unread (s.withRem r)) ch = _
  rw [hu]
  rfl

theorem channelAverages_withRem : channelAverages (s.withRem r) = channelAverages s := by
  refine congrArg Quad.ofFn (funext fun ch => congrArg (BitVec.ofNat 16) ?_)
  have htotal : channelTotal (s.withRem r) ch = channelTotal s ch := by
    show totalOver s (unread (s.withRem r)) ch = _
    rw [hu]
    rfl
  rw [channelAverage, channelAverage, channelCount_withRem hu, htotal]

theorem healthy_withRem : Healthy (s.withRem r) ↔ Healthy s := by
  unfold Healthy
  rw [hu]
  rfl

/-- Two levels of `rem` that name the same write cursor with the same number unread give the same `DRAIN` (R105). -/
theorem execDrain_withRem {t : State} (hr : r ≤ s.cfg.cap) (hf : filledOf (s.withRem r) % s.cfg.cap = filledOf s % s.cfg.cap)
    (h : execDrain s = .next t) : execDrain (s.withRem r) = .next (t.withRem r) := by
  by_cases ha : Accepting s
  · obtain ⟨⟨-, hcur⟩, ⟨hh, hc, rfl⟩ | ⟨hh, hd, ch, ⟨hch, hlt⟩, rfl⟩ | ⟨hh, rfl⟩⟩ := execDrain_cases ha h
    · have hc' : CountsAllowed (s.withRem r) := fun hd ch => (channelCount_withRem hu ch).trans_le (hc hd ch)
      rw [execDrain_healthy (s := s.withRem r) ha ⟨hr, hcur⟩ ((healthy_withRem hu).2 hh) hc']
      simp only [drainedState, drainedAdu, drainedEnv, hu, channelAverages_withRem hu]
      rw [show filledOf (s.withRem r) % (s.withRem r).cfg.cap = _ from hf]
      rfl
    · have hch' : FirstOverCount (s.withRem r) ch :=
        ⟨hch.trans_eq (channelCount_withRem hu ch).symm, fun i hi => (channelCount_withRem hu i).trans_le (hlt i hi)⟩
      rw [execDrain_countFault (s := s.withRem r) ha ⟨hr, hcur⟩ ((healthy_withRem hu).2 hh) hd hch']
      simp only [countFaulted, drainedEnv, hu]
      rw [show filledOf (s.withRem r) % (s.withRem r).cfg.cap = _ from hf]
      rfl
    · rw [execDrain_rearm (s := s.withRem r) ha ⟨hr, hcur⟩ (mt (healthy_withRem hu).1 hh)]
      simp only [rearmedState, rearmedAdu, hu]
      rfl
  · obtain rfl : s = t := Host.Outcome.next.inj ((execDrain_dropped ha).symm.trans h)
    exact execDrain_dropped (s := s.withRem r) ha

end

/-- Settles O23: at a nonzero cursor the two levels leave the same number unread. -/
theorem bothFormsOfWriteCursorZeroDrainAlike : Obligations.BothFormsOfWriteCursorZeroDrainAlike := by
  intro s t hpos hlt h
  exact execDrain_withRem (s := s.withRem s.cfg.cap) (r := 0) (unread_withRem_zero hpos hlt) (Nat.zero_le _)
    (filledOf_withRem_zero_mod s) h

end Sys2Proof.Machine
end


section
/-! PROOF. Under R13's constraint the two settings of `DEBUG_ASSERT` behave alike (R166, U8): the parameter is read by the
assertions only, and none fails. -/

namespace Sys2Proof.Machine

theorem countsAllowed_of_conforming {s : State} (hw : s.cfg.wf = true) (hc : s.cfg.conforming = true) (hh : Healthy s) :
    CountsAllowed s := fun _ => channelCount_le_cntMax hw hc hh

theorem drain_withDebugAssert {s t : State} (b : Bool) (hw : s.cfg.wf = true) (hc : s.cfg.conforming = true)
    (hhalt : s.flt.halted = false) (hrst : s.env.rst = false) (h : andThen (drRun s) (paSteps 1) = .next t) :
    andThen (drRun (s.withDebugAssert b)) (paSteps 1) = .next (t.withDebugAssert b) := by
  obtain ⟨hr, ⟨hh, -, rfl⟩ | ⟨hh, -, ch, ⟨hch, -⟩, -⟩ | ⟨hh, rfl⟩⟩ := drain_cases hhalt hrst h
  · exact drain_healthy (s := s.withDebugAssert b) hhalt hrst hr hh
      (countsAllowed_of_conforming (s := s.withDebugAssert b) hw hc hh)
  · exact absurd (channelCount_le_cntMax hw hc hh ch) (Nat.not_le.2 hch)
  · exact drain_rearm (s := s.withDebugAssert b) hhalt hrst hr hh

theorem eaStep_withDebugAssert (s : State) (b : Bool) : eaStep (s.withDebugAssert b) = (eaStep s).withDebugAssert b := by
  have hen : eaEnabled (s.withDebugAssert b) = eaEnabled s := rfl
  have hch : edgeChanged (s.withDebugAssert b) = edgeChanged s := rfl
  unfold eaStep edgeBody
  rw [hen, hch]
  split_ifs <;> rfl

theorem latchEdge_withDebugAssert (s : State) (b : Bool) :
    latchEdge (s.withDebugAssert b) = (latchEdge s).withDebugAssert b := by
  have hrst : (s.withDebugAssert b).env.rst = s.env.rst := rfl
  unfold latchEdge
  rw [hrst]
  split <;> rfl

/-- Settles O24: only the end of a drain reads the parameter, and there no assertion fails. -/
theorem conformingConfigurationsIgnoreDebugAssert : Obligations.ConformingConfigurationsIgnoreDebugAssert := by
  intro s t b i hw hc h
  cases i with
  | drain =>
    by_cases ha : Accepting s
    · refine (execDrain_accepted (s := s.withDebugAssert b) ha).trans ?_
      exact drain_withDebugAssert (s := acceptDrain s) b hw hc ha.2.1 ha.2.2 ((execDrain_accepted ha).symm.trans h)
    · obtain rfl : s = t := Host.Outcome.next.inj ((execDrain_dropped ha).symm.trans h)
      exact execDrain_dropped (s := s.withDebugAssert b) ha
  | cycle =>
    by_cases ha : Accepting s
    · refine (execCycle_accepted (s := s.withDebugAssert b) ha).trans ?_
      exact drain_withDebugAssert (s := { s with seq := latchedSeq s }) b hw hc ha.2.1 ha.2.2
        ((execCycle_accepted ha).symm.trans h)
    · obtain rfl : s = t := Host.Outcome.next.inj ((execCycle_dropped ha).symm.trans h)
      exact execCycle_dropped (s := s.withDebugAssert b) ha
  | edge =>
    injection h with h
    subst h
    show execEdge (s.withDebugAssert b) = _
    rw [execEdge, latchEdge_withDebugAssert, eaStep_withDebugAssert]
  | reset | pidle _ | eidle =>
    injection h with h
    exact h ▸ rfl

end Sys2Proof.Machine
end


section
/-! PROOF. `EDGE` (41_pwm_edge.md): what it writes and leaves alone, the width a pulse decodes to, and how it goes with the steps
of the periodic agent. -/

namespace Sys2Proof.Machine

/-! ### The whole operation -/

theorem execEdge_open {s : State} (hw : s.cfg.wf = true) (h : EdgeOpen s) :
    execEdge s = .next { s with seq := servedSeq s, pdu := edgedPdu s } := by
  rw [execEdge, latchEdge_of_rst_low h.1]
  exact congrArg _ (eaStep_open (s := s.setEPend true) hw h rfl)

/-- Settles O33: latched and, as nothing holds the edge agent off, executed. -/
theorem edgeStampsAndDecodesEveryChangedChannel : Obligations.EdgeStampsAndDecodesEveryChangedChannel :=
  fun _ => execEdge_open

theorem eaEnabled_eq_false {s : State} (h : ¬ EdgeOpen s) : eaEnabled s = false :=
  Bool.eq_false_iff.2 fun he => by
    obtain ⟨-, hmask, hhalt, hrst⟩ := (eaEnabled_iff s).1 he
    exact h ⟨hrst, hhalt, hmask⟩

theorem execEdge_closed {s : State} (h : ¬ EdgeOpen s) : execEdge s = .next (latchEdge s) := by
  refine congrArg _ (eaStep_closed (eaEnabled_eq_false ?_))
  obtain ⟨b, hb⟩ := latchEdge_frame s
  rw [hb]
  exact h

/-- Settles O34: the request is latched unless `rst` is high, and the edge agent has no step. -/
theorem heldOffEdgeStaysPending : Obligations.HeldOffEdgeStaysPending := by
  refine fun s => ⟨fun hrst hheld => ?_, execEdge_of_rst⟩
  have hclosed : ¬ EdgeOpen s := fun ⟨_, hhalt, hmask⟩ => by simp [hhalt, hmask] at hheld
  refine (execEdge_closed hclosed).trans ?_
  rw [latchEdge_of_rst_low hrst]
  rfl

/-- Settles O35: no bit of `changed` is set, so only the pending latch is cleared. -/
theorem edgeWithoutMonitoredChangeWritesNothing : Obligations.EdgeWithoutMonitoredChangeWritesNothing := by
  intro s hopen hsame
  obtain ⟨hrst, hhalt, hmask⟩ := hopen
  have hen : eaEnabled (s.setEPend true) = true := (eaEnabled_iff _).2 ⟨rfl, hmask, hhalt, hrst⟩
  have hchanged : edgeChanged (s.setEPend true) = 0 := by
    show (portPins s &&& monMask s.cfg) ^^^ s.pdu.lastLevels = 0
    rw [portPins_eq, hsame, BitVec.xor_self]
    rfl
  show execEdge s = _
  rw [execEdge, latchEdge_of_rst_low hrst, eaStep, if_pos hen, edgeBody, if_pos hchanged]
  rfl

/-- Settles O48: latching writes `e_pend`, and the edge agent's step writes the PDU and `e_pend`. -/
theorem edgeAgentWritesOnlyItsOwnRegisters : Obligations.EdgeAgentWritesOnlyItsOwnRegisters := by
  rintro s t (h | h)
  · obtain ⟨b, hb⟩ := latchEdge_frame s
    obtain ⟨p, c, hc⟩ := eaStep_frame (latchEdge s)
    injection h with h
    exact ⟨p, c, by rw [← h, hc, hb]⟩
  · obtain ⟨p, b, hb⟩ := eaStep_frame s
    injection h with h
    exact ⟨p, b, h ▸ hb⟩

/-- What an `EDGE` makes of the PDU: nothing, or what the spec's formulas say where nothing holds the agent off. -/
theorem execEdge_pdu {s t : State} (hw : s.cfg.wf = true) (h : execEdge s = .next t) :
    t.pdu = s.pdu ∨ (EdgeOpen s ∧ t.pdu = edgedPdu s) := by
  by_cases hopen : EdgeOpen s
  · rw [execEdge_open hw hopen] at h
    injection h with h
    exact .inr ⟨hopen, h ▸ rfl⟩
  · rw [execEdge_closed hopen] at h
    injection h with h
    exact .inl (h ▸ pdu_latchEdge s)

/-! ### One channel -/

theorem riseTs_edgedPdu (s : State) (i : Ch) :
    (edgedPdu s).riseTs.get i = if edged s i then cntSeen s else s.pdu.riseTs.get i := Quad.get_ofFn _ i

theorem pwmValue_edgedPdu (s : State) (i : Ch) :
    (edgedPdu s).pwmValue.get i =
      if fell s i then BitVec.ofNat 16 (dutyNumber s.cfg (interval s i)) else s.pdu.pwmValue.get i := Quad.get_ofFn _ i

/-- `EDGE` keeps the level of every PWM pin (R12, R126). -/
theorem lastLevels_edgedPdu {s : State} (hw : s.cfg.wf = true) (i : Ch) :
    (edgedPdu s).lastLevels.getLsbD (s.cfg.pwmBit.get i) = (pinsSeen s).getLsbD (s.cfg.pwmBit.get i) := by
  rw [edgedPdu, BitVec.getLsbD_and, monMask_getLsbD hw, Bool.and_true]

theorem edged_of_fell {s : State} {i : Ch} (h : fell s i) : edged s i := by
  simp [edged, h.1, h.2]

/-- Settles O38: the formulas of R123 to R125 change a channel only where its pin differs, its value only where it fell. -/
theorem edgeLeavesOtherChannelsAlone : Obligations.EdgeLeavesOtherChannelsAlone := by
  intro s t i hw h
  obtain hpdu | ⟨-, hpdu⟩ := execEdge_pdu hw h
  · exact ⟨fun _ => by rw [hpdu]; exact ⟨rfl, rfl⟩, fun hne => absurd (by rw [hpdu]) hne⟩
  rw [hpdu, riseTs_edgedPdu, pwmValue_edgedPdu]
  refine ⟨fun hno => ⟨if_neg hno, if_neg fun hf => hno (edged_of_fell hf)⟩, fun hne => ?_⟩
  by_contra hno
  exact hne (if_neg hno)

/-! ### A pulse -/

/-- From `t0` to `t0 + d` modulo the counter's modulus there are `d` ticks (R123, R131). -/
theorem interval_eq {s : State} {i : Ch} {t0 d : Nat} (hd : d < 2 ^ s.cfg.wCnt)
    (hcnt : cntSeen s = (t0 + d) % 2 ^ s.cfg.wCnt) (hrise : s.pdu.riseTs.get i = t0) : interval s i = d := by
  rw [interval, hcnt, hrise, Int.natCast_mod, Int.emod_sub_emod, Nat.cast_add, add_sub_cancel_left,
    Int.emod_eq_of_lt (Int.natCast_nonneg d) (by exact_mod_cast hd), Int.toNat_natCast]

section

variable {s : State} {i : Ch} {p q : Byte} {t0 d : Nat} (hw : s.cfg.wf = true)
include hw

/-- What a rising edge at `t0` leaves for the falling edge to find. -/
theorem pdu_after_rise (hlow : s.pdu.lastLevels.getLsbD (s.cfg.pwmBit.get i) = false)
    (hp : (pinsSeen s).getLsbD (s.cfg.pwmBit.get i) = true) :
    (edgedPdu s).riseTs.get i = cntSeen s ∧ (edgedPdu s).lastLevels.getLsbD (s.cfg.pwmBit.get i) = true :=
  ⟨(riseTs_edgedPdu s i).trans (if_pos (by simp [edged, hlow, hp])), (lastLevels_edgedPdu hw i).trans hp⟩

omit hw in
/-- A falling edge `d` ticks after the stamp decodes to the map of `d` (R124). -/
theorem pwmValue_after_fall (hd : d < 2 ^ s.cfg.wCnt) (hcnt : cntSeen s = (t0 + d) % 2 ^ s.cfg.wCnt)
    (hrise : s.pdu.riseTs.get i = t0) (hhigh : s.pdu.lastLevels.getLsbD (s.cfg.pwmBit.get i) = true)
    (hq : (pinsSeen s).getLsbD (s.cfg.pwmBit.get i) = false) :
    ((edgedPdu s).pwmValue.get i).toNat = dutyNumber s.cfg d := by
  rw [pwmValue_edgedPdu, if_pos ⟨hhigh, hq⟩, interval_eq hd hcnt hrise, BitVec.toNat_ofNat,
    Nat.mod_eq_of_lt (dutyNumber_lt s.cfg d)]

end

/-- Settles O36: the first edge stamps `t0` and sees the level high, the second one is `d` ticks later. -/
theorem pulseDecodesToItsMappedWidth : Obligations.PulseDecodesToItsMappedWidth := by
  intro s i p q t0 d hw hopen _ hd hlow hp hq
  obtain ⟨hrise, hhigh⟩ := pdu_after_rise (s := s.withPins p t0) hw hlow hp
  refine ⟨_, _, execEdge_open (s := s.withPins p t0) hw hopen, execEdge_open (s := State.withPins _ q _) hw hopen, ?_⟩
  exact pwmValue_after_fall (s := State.withPins _ q _) hd rfl hrise hhigh hq

/-! ### Between two sub-steps of the periodic agent -/

/-- The edge agent's registers at other values. -/
def State.withEdge (s : State) (p : Pdu) (b : Bool) : State := { s with pdu := p, seq := { s.seq with ePend := b } }

/-- `DR_RUN` neither reads nor writes the edge agent's registers. -/
theorem drRun_withEdge {s t : State} (p : Pdu) (b : Bool) (h : drRun s = .next t) :
    drRun (s.withEdge p b) = .next (t.withEdge p b) := by
  obtain ⟨hr, ⟨hh, hc, rfl⟩ | ⟨hh, hd, ch, hch, hlt, rfl⟩ | ⟨hh, rfl⟩⟩ := drRun_cases h
  · exact drRun_healthy (s := s.withEdge p b) hr hh hc
  · exact drRun_countFault (s := s.withEdge p b) hr hh hd hch hlt
  · exact drRun_rearm (s := s.withEdge p b) hr hh

/-- Of the sub-steps only `CY_PWMi` reads a register of the edge agent's, and none writes one (R144, R172). -/
theorem paStep_withEdge {s t : State} (p : Pdu) (b : Bool) (hno : ∀ i, s.seq.ph ≠ .cyPwm i) (h : paStep s = .next t) :
    paStep (s.withEdge p b) = .next (t.withEdge p b) := by
  have hph : (s.withEdge p b).seq.ph = s.seq.ph := rfl
  have hen : paEnabled (s.withEdge p b) = paEnabled s := rfl
  obtain ⟨he, rfl⟩ | ⟨he, ⟨hp, rfl⟩ | ⟨hp, rfl⟩ | ⟨i, hp, -⟩ | ⟨hp, hd⟩ | ⟨hp, rfl⟩⟩ := paStepWatched_cases h
  · exact paStep_off (hen.trans he)
  · exact paStep_cyOut (hen.trans he) (hph.trans hp)
  · exact paStep_cyIn (hen.trans he) (hph.trans hp)
  · exact absurd hp (hno i)
  · rw [paStep_drRun (hen.trans he) (hph.trans hp), drRun_withEdge p b hd]
  · rw [paStep_pub (hen.trans he) (hph.trans hp), publishWatched_nil, publish_eq, publish_eq]
    rfl

/-- What the edge agent's step makes of its registers depends on these things only. -/
structure SameEdge (s t : State) : Prop where
  cfg : t.cfg = s.cfg
  pdu : t.pdu = s.pdu
  ePend : t.seq.ePend = s.seq.ePend
  irqMask : t.seq.irqMask = s.seq.irqMask
  halted : t.flt.halted = s.flt.halted
  rst : t.env.rst = s.env.rst
  pins : t.env.pins = s.env.pins
  cnt : t.env.cnt = s.env.cnt
  instant : t.env.instant = s.env.instant

theorem SameEdge.eaStep {s t : State} (h : SameEdge s t) :
    ∃ p b, Machine.eaStep s = s.withEdge p b ∧ Machine.eaStep t = t.withEdge p b := by
  obtain ⟨hcfg, hpdu, hpend, hmask, hhalt, hrst, hpins, hcnt, hinst⟩ := h
  have hen : eaEnabled t = eaEnabled s := by simp only [eaEnabled, hpend, hmask, hhalt, hrst]
  have hlev : edgeLevels t = edgeLevels s := by simp only [edgeLevels, portPins, hpins, hinst, hcfg]
  have hch : edgeChanged t = edgeChanged s := by simp only [edgeChanged, hlev, hpdu]
  have hnow : portCnt t = portCnt s := by simp only [portCnt, hcnt, hinst, hcfg]
  have hst : edgeStamp t = edgeStamp s := funext fun i => by simp only [edgeStamp, hch, hnow, hcfg, hpdu]
  have hval : edgeValue t = edgeValue s := funext fun i => by simp only [edgeValue, hch, hnow, hcfg, hpdu]
  unfold Machine.eaStep edgeBody
  simp only [hen, hch, hlev, hst, hval]
  split_ifs
  · exact ⟨s.pdu, false, rfl, by rw [← hpdu]; rfl⟩
  · exact ⟨_, false, rfl, rfl⟩
  · exact ⟨s.pdu, s.seq.ePend, rfl, by rw [← hpdu, ← hpend]; rfl⟩

/-- Neither `DR_RUN` nor another sub-step moves what the edge agent's step reads, `irq_mask` and `halted` being low before and
after. -/
theorem sameEdge_paStep {s t : State} (hmask : s.seq.irqMask = false) (h : paStep s = .next t)
    (hhalt : t.flt.halted = false) : SameEdge s t := by
  obtain ⟨-, rfl⟩ | ⟨he, ⟨-, rfl⟩ | ⟨-, rfl⟩ | ⟨i, -, rfl⟩ | ⟨-, hd⟩ | ⟨-, rfl⟩⟩ := paStepWatched_cases h
  · constructor <;> rfl
  · constructor <;> rfl
  · constructor <;> rfl
  · constructor <;> rfl
  · obtain ⟨-, ⟨-, -, rfl⟩ | ⟨-, -, ch, -, -, rfl⟩ | ⟨-, rfl⟩⟩ := drRun_cases hd
    · constructor <;> rfl
    · cases hhalt
    · exact ⟨rfl, rfl, rfl, hmask.symm, rfl, rfl, rfl, rfl, rfl⟩
  · rw [publishWatched_nil, publish_eq]
    constructor <;> rfl

/-- Settles O39: the edge agent's step does the same before and after the sub-step, which reads nothing it writes. -/
theorem edgeCommutesWithSubStepsThatReadNoPwmValue : Obligations.EdgeCommutesWithSubStepsThatReadNoPwmValue := by
  intro s t hno hmask h hhalt
  obtain ⟨p, b, hs, ht⟩ := (sameEdge_paStep hmask h hhalt).eaStep
  exact ⟨_, congrArg Host.Outcome.next hs, _, paStep_withEdge p b hno h, congrArg Host.Outcome.next ht⟩

theorem phaseAfterPwm_of_lt {i j : Ch} (hi : i < 3) (hj : j.val = i.val + 1) : phaseAfterPwm i = .cyPwm j := by
  revert i j
  decide

/-- Settles O40: the first sub-step has read its channel, the `EDGE` then writes the PDU, the second reads what it wrote. -/
theorem edgeBetweenPwmReadsGivesAMixedSnapshot : Obligations.EdgeBetweenPwmReadsGivesAMixedSnapshot := by
  intro s i j hw hhalt hrst hmask hpend hp hi hj
  have enabled : ∀ u : State, u.flt = s.flt → u.env = s.env → ∀ k, u.seq.ph = .cyPwm k → paEnabled u = true :=
    fun u hflt henv k hk => (paEnabled_iff u).2 ⟨by simp [hk], hflt ▸ hhalt, henv ▸ hrst⟩
  have hph : (cyPwm i s).seq.ph = .cyPwm j := phaseAfterPwm_of_lt hi hj
  have hij : i ≠ j := fun heq => by rw [heq] at hj; omega
  refine ⟨_, _, _, paStep_cyPwm (enabled s rfl rfl i hp) hp,
    congrArg Host.Outcome.next (eaStep_open (s := cyPwm i s) hw ⟨hrst, hhalt, hmask⟩ hpend),
    paStep_cyPwm (enabled _ rfl rfl j hph) hph, ?_, ?_⟩
  · exact (Quad.get_set_other _ _ hij).trans (Quad.get_set_same _ i _)
  · exact Quad.get_set_same _ j _

end Sys2Proof.Machine
end


section
/-! PROOF. Observers reading inside a `PUB` (R103, R146, U22): the block between two of its setter calls, and what each read
gives. -/

namespace Sys2Proof.Machine

/-- What an observer reads is what stands on the port it names (R43). -/
theorem observed_eq (s : State) (r : Watch) : observed s r = portReads s r := by
  cases r with
  | irqMask => cases h : s.seq.irqMask <;> simp [observed, portReads, h]
  | pBusy => cases h : s.seq.ph <;> simp [observed, portReads, pBusy, h]
  | halted => cases h : s.flt.halted <;> simp [observed, portReads, h]
  | faultCode => cases h : s.flt.code <;> simp [observed, portReads, FaultCode.code, h]
  | drainStatus => cases h : s.adu.drainStatus <;> simp [observed, portReads, DrainStatus.code, h]
  | ph =>
    cases h : s.seq.ph with
    | cyPwm i =>
      have hcode : ∀ i : Ch, (Phase.cyPwm i).code.toNat = phaseNumber (.cyPwm i) := by decide
      simp only [observed, portReads, h, hcode]
    | _ => simp [observed, portReads, h, Phase.code, phaseNumber]
  | _ => rfl

/-- The number of setter calls of a `PUB` up to and including the one that writes `adc_out[ch]` (R103, R146). -/
def adcOutCall (inCycle : Bool) (ch : Ch) : Nat := (if inCycle then 2 else 0) + if ch = 0 then 1 else if ch = 3 then 3 else 2

/-- The block after `k` of the setter calls of a `PUB`. -/
def insidePub (s : State) (k : Nat) : State :=
  { s with
    adu :=
      { s.adu with
        adcOut := Quad.ofFn fun ch => (if adcOutCall s.seq.inCycle ch ≤ k then s.adu.avg else s.adu.adcOut).get ch }
    seq :=
      { s.seq with
        dinState := if s.seq.inCycle = true ∧ 1 ≤ k then s.seq.latDin else s.seq.dinState
        pwmOut := if s.seq.inCycle = true ∧ 2 ≤ k then s.seq.latPwm else s.seq.pwmOut } }

theorem insidePub_zero (s : State) : insidePub s 0 = s := by
  have hcall : ∀ ch, ¬ adcOutCall s.seq.inCycle ch ≤ 0 := by
    cases s.seq.inCycle <;> decide
  simp [insidePub, hcall]

/-- The `k`-th setter call takes the block on from `k` calls to `k + 1`. -/
theorem setterCall_insidePub {s : State} {k : Nat} {f : State → State} (hf : (setterCalls s.seq.inCycle)[k]? = some f) :
    f (insidePub s k) = insidePub s (k + 1) := by
  cases hc : s.seq.inCycle with
  | false =>
    rw [hc] at hf
    match k, hf with
    | 0, rfl | 1, rfl | 2, rfl =>
      simp [setPrimaryChannel, setCurrentVoltage, setAuxiliaryChannel, State.modAdu, insidePub, hc, Quad.set, Quad.ofFn,
        Quad.get, adcOutCall]
  | true =>
    rw [hc] at hf
    match k, hf with
    | 0, rfl | 1, rfl =>
      simp [setInputPinState, setPwmValues, State.modSeq, insidePub, hc, Quad.ofFn, Quad.get, adcOutCall]
    | 2, rfl | 3, rfl | 4, rfl =>
      simp [setPrimaryChannel, setCurrentVoltage, setAuxiliaryChannel, State.modAdu, insidePub, hc, Quad.set, Quad.ofFn,
        Quad.get, adcOutCall]

/-- After the last call no register changes any more. -/
theorem insidePub_of_length_le {s : State} {k : Nat} (h : (setterCalls s.seq.inCycle).length ≤ k) :
    insidePub s (k + 1) = insidePub s k := by
  have hcall : ∀ ch, adcOutCall s.seq.inCycle ch ≤ (setterCalls s.seq.inCycle).length := by
    cases s.seq.inCycle <;> decide
  have hlong : 3 ≤ (setterCalls s.seq.inCycle).length := by
    cases s.seq.inCycle <;> decide
  have hdone : ∀ ch, adcOutCall s.seq.inCycle ch ≤ k := fun ch => (hcall ch).trans h
  have hdone' : ∀ ch, adcOutCall s.seq.inCycle ch ≤ k + 1 := fun ch => Nat.le_succ_of_le (hdone ch)
  have h1 : 1 ≤ k := by omega
  have h2 : 2 ≤ k := by omega
  simp [insidePub, hdone, hdone', h1, h2, Nat.le_succ_of_le h2]

theorem portReads_insidePub (s : State) (k : Nat) (r : Watch) : portReads (insidePub s k) r = readInsidePub s k r := by
  cases r with
  | adcOut ch => exact congrArg BitVec.toNat (Quad.get_ofFn _ ch)
  | _ => rfl

/-- The reads made from `k` calls on. -/
theorem readings_insidePub (s : State) (watch : List (List Watch)) (k : Nat) :
    readings ((setterCalls s.seq.inCycle).drop k) watch (insidePub s k) = readsInsidePub s k watch := by
  have hread : ∀ (k : Nat) (rs : List Watch),
      rs.map (fun r => (r, observed (insidePub s k) r)) = rs.map fun r => (r, readInsidePub s k r) :=
    fun k rs => List.map_congr_left fun r _ => by rw [observed_eq, portReads_insidePub]
  induction watch generalizing k with
  | nil => cases (setterCalls s.seq.inCycle).drop k <;> rfl
  | cons rs watch ih =>
    cases hk : (setterCalls s.seq.inCycle)[k]? with
    | none =>
      have hlen := List.getElem?_eq_none_iff.1 hk
      have ih' := ih (k + 1)
      rw [List.drop_eq_nil_of_le (Nat.le_succ_of_le hlen), insidePub_of_length_le hlen] at ih'
      rw [List.drop_eq_nil_of_le hlen, readings, readsInsidePub, hread, ih']
    | some f =>
      have hdrop : (setterCalls s.seq.inCycle).drop k = f :: (setterCalls s.seq.inCycle).drop (k + 1) := by
        obtain ⟨hlt, rfl⟩ := List.getElem?_eq_some_iff.1 hk
        exact List.drop_eq_getElem_cons hlt
      rw [hdrop, readings, readsInsidePub, hread, setterCall_insidePub hk, ih]

/-- Settles O29: the event is the whole `PUB`, and the reads are those made in the block between its calls. -/
theorem observerInsidePublicationSeesSettersInOrder : Obligations.ObserverInsidePublicationSeesSettersInOrder := by
  intro s watch hhalt hrst hp
  have he : paEnabled s = true := (paEnabled_iff s).2 ⟨by simp [hp], hhalt, hrst⟩
  have hstep : envStep (.pa watch) s = .next (publishWatched watch s) := by
    simp only [envStep, paStepWatched, he, hp, if_true]
  have hreads : readings (setterCalls s.seq.inCycle) watch s = readsInsidePub s 0 watch := by
    have h := readings_insidePub s watch 0
    rwa [List.drop_zero, insidePub_zero] at h
  rw [hstep, publishWatched_eq, hreads, publish_eq]
  rfl

end Sys2Proof.Machine
end


section
/-! PROOF. Scripts run one stimulus at a time (30_encoding.md section 4): the coarse lines of a trace, and that an operation is its
acceptance and sub-steps. -/

namespace Sys2Proof.Machine

/-! ### Runs -/

theorem decode_reset : decode .r 1 = .ok .reset := decode_encode .reset

theorem decode_drain : decode .p 0b10 = .ok .drain := decode_encode .drain

theorem decode_cycle : decode .p 0b11 = .ok .cycle := decode_encode .cycle

theorem decode_edge : decode .e 1 = .ok .edge := decode_encode .edge

@[simp] theorem runFor_one (s : State) : s.runFor 1 = step s := by
  rw [runFor_succ]
  cases step s <;> rfl

section

variable {s : State} (hw : s.cfg.wf = true) (rest : List Stimulus)
include hw

theorem step_past_request {f : Format} {w : Byte} {i : Instr} (hd : decode f w = .ok i) :
    step (s.past (.request f w :: rest)) = thenRelease (exec i (s.past rest)) :=
  step_request (s := s.past (.request f w :: rest)) hw rfl hd

theorem step_past_agentEvent {e : Event} (he : e.isAgentStep = true) :
    step (s.past (.event e :: rest)) = thenRelease (envStep e (s.past rest)) :=
  step_agentEvent (s := s.past (.event e :: rest)) hw rfl he

theorem step_past_otherEvent {e : Event} (he : e.isAgentStep = false) :
    step (s.past (.event e :: rest)) = envStep e (s.past rest) :=
  step_otherEvent (s := s.past (.event e :: rest)) hw rfl he

theorem runFor_request {f : Format} {w : Byte} {i : Instr} (hd : decode f w = .ok i) (k : Nat) :
    (s.past (.request f w :: rest)).runFor (k + 1) =
      andThen (thenRelease (exec i (s.past rest))) fun t => t.runFor k := by
  rw [runFor_succ, step_past_request hw rest hd]

/-- An event of the environment or an instant. -/
theorem runFor_event {e : Event} {u : State} (he : e.isAgentStep = false)
    (h : ∀ l, envStep e (s.past l) = .next (u.past l)) (k : Nat) :
    (s.past (.event e :: rest)).runFor (k + 1) = (u.past rest).runFor k := by
  rw [runFor_succ, step_past_otherEvent hw rest he, h, andThen_next]

/-- A sub-step, after which the ports are released. -/
theorem runFor_pa {u : State} (h : paStep s = .next u) (k : Nat) :
    (s.past (.event (.pa []) :: rest)).runFor (k + 1) = (u.release.past rest).runFor k := by
  have hpast : envStep (.pa []) (s.past rest) = .next (u.past rest) := (paStep_past rest s).trans (by rw [h]; rfl)
  rw [runFor_succ, step_past_agentEvent hw rest rfl, hpast]
  rfl

end

/-- A state is itself past its own script. -/
theorem past_of_script_eq {s : State} {l : List Stimulus} (h : s.script = l) : s.past l = s := by
  subst h
  rfl

/-! ### The script plays no part in an operation -/

theorem thenRelease_withScript (r : List Stimulus) (o : Result) :
    thenRelease (withScript r o) = withScript r (thenRelease o) := by
  cases o <;> rfl

theorem paSteps_one (s : State) : paSteps 1 s = paStep s := by
  rw [paSteps_succ]
  cases paStep s <;> rfl

theorem paSteps_past (r : List Stimulus) (k : Nat) (s : State) : paSteps k (s.past r) = withScript r (paSteps k s) := by
  induction k generalizing s with
  | zero => rfl
  | succ k ih =>
    rw [paSteps_succ, paSteps_succ, paStep_past]
    cases paStep s with
    | next t => exact ih t
    | fault _ | refused _ => rfl

theorem execDrain_past (r : List Stimulus) (s : State) : execDrain (s.past r) = withScript r (execDrain s) := by
  have hsampled : pSampled (s.past r) = pSampled s := rfl
  unfold execDrain
  rw [hsampled]
  split
  · exact paSteps_past r 2 (acceptDrain s)
  · rfl

theorem execCycle_past (r : List Stimulus) (s : State) : execCycle (s.past r) = withScript r (execCycle s) := by
  have hsampled : pSampled (s.past r) = pSampled s := rfl
  unfold execCycle
  rw [hsampled]
  split
  · exact paSteps_past r 8 (acceptCycle s)
  · rfl

/-! ### Acceptance and sub-steps -/

/-- An instant at which a `P` request is sampled accepts it (R73, R141). -/
theorem instant_accepting {s : State} (h : Accepting s) (pOp : Bool) :
    instant false true pOp false s = if pOp then acceptCycle s else acceptDrain s := by
  rw [instant_low, setRst_of_rst_eq h.2.2, sampleP_accepting h, sampleE_eq, if_neg Bool.false_ne_true]

/-- Publishing samples no port, so the ports may be released before it or after it. -/
theorem paStep_release {s : State} (h : s.seq.ph = .pub ∨ s.flt.halted = true) :
    paStep s.release = thenRelease (paStep s) := by
  have hen : paEnabled s.release = paEnabled s := rfl
  by_cases he : paEnabled s = true
  · have hp : s.seq.ph = .pub := h.resolve_right (by simp [((paEnabled_iff s).1 he).2.1])
    rw [paStep_pub (hen.trans he) hp, paStep_pub he hp, publish_eq, publish_eq]
    rfl
  · have he' : paEnabled s = false := by simpa using he
    rw [paStep_off (hen.trans he'), paStep_off he']
    rfl

/-- `DR_RUN` and the sub-step after it, step by step: the same as back to back, but for one release more. -/
theorem runFor_two_pa {s : State} (hw : s.cfg.wf = true) (he : paEnabled s = true) (hp : s.seq.ph = .drRun)
    (rest : List Stimulus) :
    (s.past (.event (.pa []) :: .event (.pa []) :: rest)).runFor 2 =
      thenRelease (thenRelease (withScript rest (andThen (drRun s) (paSteps 1)))) := by
  have hrun := paStep_drRun he hp
  cases hd : drRun s with
  | next u =>
    have hcfg : u.cfg = s.cfg := paStepWatched_cfg (hrun.trans hd)
    have hw' : u.release.cfg.wf = true := by rw [State.cfg_release, hcfg]; exact hw
    rw [runFor_pa hw _ (hrun.trans hd), runFor_one, step_past_agentEvent hw' rest rfl]
    show thenRelease (paStep (u.release.past rest)) = thenRelease (thenRelease (withScript rest (paSteps 1 u)))
    rw [paStep_past, paStep_release (drRun_ph_or_halted hd), paSteps_one, thenRelease_withScript rest (paStep u)]
  | fault r | refused r =>
    rw [runFor_succ, step_past_agentEvent hw _ rfl]
    show andThen (thenRelease (paStep (s.past _))) _ = _
    rw [paStep_past, hrun, hd]
    rfl

/-- Settles O30: the fine-grained form accepts and takes the two sub-steps one at a time. -/
theorem coarseDrainIsItsSubSteps : Obligations.CoarseDrainIsItsSubSteps := by
  intro s rest hw ha
  have he : paEnabled (acceptDrain s) = true := (paEnabled_iff _).2 ⟨by simp [acceptDrain], ha.2.1, ha.2.2⟩
  have haccept : ∀ l, envStep (.instant false true false false) (s.past l) = .next ((acceptDrain s).past l) :=
    fun l => congrArg Host.Outcome.next (instant_accepting (s := s.past l) ha false)
  rw [runFor_event hw _ rfl haccept, runFor_one, step_past_request hw rest decode_drain]
  refine (runFor_two_pa (s := acceptDrain s) hw he rfl rest).trans ?_
  show _ = thenRelease (thenRelease (execDrain (s.past rest)))
  rw [execDrain_past, execDrain_accepted ha]

/-! ### The sub-steps of a `CYCLE` one at a time -/

/-- The ports' side with nothing driven on an operand port and `n` instants later. -/
def Env.later (e : Env) (n : Nat) : Env :=
  { e with rem := none, pins := none, cnt := none, outcmd := none, instant := e.instant + n }

/-- `n` instants later, with nothing driven on the ports other than `rem`. -/
def State.laterWithRem (s : State) (n : Nat) : State :=
  { s with env := { s.env with pins := none, cnt := none, outcmd := none, instant := s.env.instant + n } }

/-- The three courses a drain within the contract can take. -/
theorem drain_course {s : State} (hr : DrainReady s) :
    (Healthy s ∧ CountsAllowed s) ∨ (Healthy s ∧ s.cfg.debugAssert = true ∧ ∃ ch, FirstOverCount s ch) ∨ ¬ Healthy s := by
  obtain ⟨-, ⟨hh, hc, -⟩ | ⟨hh, hd, ch, hch, hlt, -⟩ | ⟨hh, -⟩⟩ := drRun_cases (drRun_ready hr)
  · exact .inl ⟨hh, hc⟩
  · exact .inr (.inl ⟨hh, hd, ch, hch, hlt⟩)
  · exact .inr (.inr hh)

/-- With `rem` driven, a drain samples no other port and no free value of an instant. -/
theorem drain_laterWithRem {s : State} (r n : Nat) (hhalt : s.flt.halted = false) (hrst : s.env.rst = false) :
    andThen (drRun ((s.withRem r).laterWithRem n)) (paSteps 1) =
      andThen (andThen (drRun (s.withRem r)) (paSteps 1)) fun t => .next (t.laterWithRem n) := by
  rcases Nat.lt_or_ge s.cfg.cap r with hrem | hrem
  · rw [drain_rem (s := s.withRem r) hrem, drain_rem (s := (s.withRem r).laterWithRem n) hrem]
    rfl
  rcases Nat.lt_or_ge s.adu.cursor s.cfg.cap with hcur | hcur
  swap
  · rw [drain_cursor (s := s.withRem r) hrem hcur, drain_cursor (s := (s.withRem r).laterWithRem n) hrem hcur]
    rfl
  have hr : DrainReady (s.withRem r) := ⟨hrem, hcur⟩
  obtain ⟨hh, hc⟩ | ⟨hh, hd, ch, hch⟩ | hh := drain_course hr
  · rw [drain_healthy (s := s.withRem r) hhalt hrst hr hh hc]
    exact drain_healthy (s := (s.withRem r).laterWithRem n) hhalt hrst hr hh hc
  · rw [drain_countFault hr hh hd hch]
    exact drain_countFault (s := (s.withRem r).laterWithRem n) hr hh hd hch
  · rw [drain_rearm (s := s.withRem r) hhalt hrst hr hh]
    exact drain_rearm (s := (s.withRem r).laterWithRem n) hhalt hrst hr hh

/-- The level driven on `rem` is reduced to the port's width, which a level within it passes (R42). -/
theorem envStep_driveRem {s : State} {r : Nat} (hr : r < 2 * s.cfg.cap) : envStep (.driveRem r) s = .next (s.withRem r) := by
  rw [envStep, Nat.mod_eq_of_lt hr]
  rfl

/-- A `CYCLE` that has come to phase `p` with `q` in `lat_pwm`, `n` releases of the ports after `s`. -/
def State.latching (s : State) (q : Quad (BitVec 16)) (p : Phase) (n : Nat) : State :=
  { s with seq := { s.seq with latPwm := q, ph := p }, env := s.env.later n }

section

variable {s : State} (hw : s.cfg.wf = true) (hhalt : s.flt.halted = false) (hrst : s.env.rst = false)
include hw hhalt hrst

theorem runFor_latching (q : Quad (BitVec 16)) (i : Ch) (n : Nat) (rest : List Stimulus) (k : Nat) :
    ((s.latching q (.cyPwm i) n).past (.event (.pa []) :: rest)).runFor (k + 1) =
      ((s.latching (q.set i (s.pdu.pwmValue.get i)) (phaseAfterPwm i) (n + 1)).past rest).runFor k := by
  have he : paEnabled (s.latching q (.cyPwm i) n) = true := (paEnabled_iff _).2 ⟨nofun, hhalt, hrst⟩
  exact runFor_pa (s := s.latching q (.cyPwm i) n) hw rest (paStep_cyPwm he rfl) k

/-- The four `CY_PWMi` sub-steps latch the four PWM values (R144), each at an instant of its own. -/
theorem runFor_four_pa (q : Quad (BitVec 16)) (n : Nat) (rest : List Stimulus) (k : Nat) :
    ((s.latching q (.cyPwm 0) n).past (List.replicate 4 (.event (.pa [])) ++ rest)).runFor (k + 4) =
      ((s.latching s.pdu.pwmValue .drRun (n + 4)).past rest).runFor k := by
  have h0 : phaseAfterPwm 0 = .cyPwm 1 := rfl
  have h1 : phaseAfterPwm 1 = .cyPwm 2 := rfl
  have h2 : phaseAfterPwm 2 = .cyPwm 3 := rfl
  have h3 : phaseAfterPwm 3 = .drRun := rfl
  simp only [List.replicate, List.cons_append, List.nil_append]
  rw [runFor_latching hw hhalt hrst, h0, runFor_latching hw hhalt hrst, h1, runFor_latching hw hhalt hrst, h2,
    runFor_latching hw hhalt hrst, h3]
  rfl

end

/-- A `CYCLE` that has applied its command and latched its inputs (R142, R143). -/
def State.commanded (s : State) (o p : Byte) : State := { s with seq := { s.seq with dout := o, latDin := p, inCycle := true } }

/-- Acceptance of a `CYCLE`, and `CY_OUT` and `CY_IN` each with its port driven. -/
theorem runFor_commanded {s : State} (hw : s.cfg.wf = true) (ha : Accepting s) (o p : Byte) (rest : List Stimulus) (k : Nat) :
    (s.past (.event (.instant false true true false) :: .event (.driveOutcmd o) :: .event (.pa []) ::
        .event (.drivePins p) :: .event (.pa []) :: rest)).runFor (k + 5) =
      (((s.commanded o p).latching s.seq.latPwm (.cyPwm 0) 2).past rest).runFor k := by
  obtain ⟨-, hhalt, hrst⟩ := id ha
  have haccept : ∀ l, envStep (.instant false true true false) (s.past l) = .next ((acceptCycle s).past l) :=
    fun l => congrArg Host.Outcome.next (instant_accepting (s := s.past l) ha true)
  let a : State := { acceptCycle s with env := { s.env with outcmd := some o } }
  let b : State := { s with seq := { s.seq with dout := o, inCycle := true, ph := .cyIn }, env := s.env.later 1 }
  let c : State := { b with env := { s.env.later 1 with pins := some p } }
  have hea : paEnabled a = true := (paEnabled_iff a).2 ⟨nofun, hhalt, hrst⟩
  have hec : paEnabled c = true := (paEnabled_iff c).2 ⟨nofun, hhalt, hrst⟩
  rw [runFor_event hw _ rfl haccept, runFor_event (s := acceptCycle s) (u := a) hw _ rfl fun _ => rfl,
    runFor_pa (s := a) hw _ (paStep_cyOut hea rfl)]
  show (b.past _).runFor _ = _
  rw [runFor_event (s := b) (u := c) hw _ rfl fun _ => rfl, runFor_pa (s := c) hw _ (paStep_cyIn hec rfl)]
  rfl

/-- Settles O31: the sub-steps before `DR_RUN` and its level of `rem` lead to the `DR_RUN` the operation comes to, with the other
ports released and six instants later; the two sub-steps left are `runFor_two_pa`'s. -/
theorem coarseCycleIsItsSubSteps : Obligations.CoarseCycleIsItsSubSteps := by
  intro s o p r rest hw ha hr
  obtain ⟨-, hhalt, hrst⟩ := id ha
  let d : State := { s.withCyclePorts o p r with seq := latchedSeq (s.withCyclePorts o p r) }
  let a : State := (s.commanded o p).latching s.pdu.pwmValue .drRun 6
  have hda : a.withRem r = (d.withRem r).laterWithRem 6 := rfl
  have he : paEnabled (a.withRem r) = true := (paEnabled_iff _).2 ⟨nofun, hhalt, hrst⟩
  have fine : ∀ l, (s.past (.event (.instant false true true false) :: .event (.driveOutcmd o) :: .event (.pa []) ::
      .event (.drivePins p) :: .event (.pa []) :: (List.replicate 4 (.event (.pa [])) ++
        .event (.driveRem r) :: l))).runFor 12 = ((a.withRem r).past l).runFor 2 := fun l => by
    rw [runFor_commanded hw ha o p _ 7, runFor_four_pa (s := s.commanded o p) hw hhalt hrst _ 2 _ 3]
    exact runFor_event (s := a) (u := a.withRem r) hw _ rfl (fun _ => envStep_driveRem hr) 2
  rw [fine, runFor_two_pa (s := a.withRem r) hw he rfl, hda, drain_laterWithRem (s := d) r 6 hhalt hrst, runFor_one,
    step_past_request (s := s.withCyclePorts o p r) hw rest decode_cycle]
  show _ = andThen (thenRelease (execCycle ((s.withCyclePorts o p r).past rest))) _
  rw [execCycle_past, execCycle_accepted (s := s.withCyclePorts o p r) ha]
  show _ = andThen (thenRelease (withScript rest (andThen (drRun (d.withRem r)) (paSteps 1)))) _
  cases andThen (drRun (d.withRem r)) (paSteps 1) <;> rfl

/-! ### The coarse lines of a trace (R80) -/

theorem envStep_driveCnt {s : State} {t : Nat} (ht : t < 2 ^ s.cfg.wCnt) :
    envStep (.driveCnt t) s = .next { s with env := { s.env with cnt := some t } } := by
  rw [envStep, Config.cntMod, Nat.mod_eq_of_lt ht]
  rfl

/-- An `EDGE` line: its levels are driven, then the operation is executed. -/
theorem runFor_edgeStimuli {s : State} (hw : s.cfg.wf = true) (p : Byte) {t : Nat} (ht : t < 2 ^ s.cfg.wCnt)
    (rest : List Stimulus) :
    (s.past (edgeStimuli p t ++ rest)).runFor 3 = thenRelease (exec .edge ((s.withPins p t).past rest)) := by
  let u : State := { s with env := { s.env with pins := some p } }
  show (s.past (.event (.drivePins p) :: .event (.driveCnt t) :: .request .e 1 :: rest)).runFor 3 = _
  rw [runFor_event (s := s) (u := u) hw _ rfl fun _ => rfl,
    runFor_event (s := u) (u := s.withPins p t) hw _ rfl fun _ => envStep_driveCnt ht, runFor_one,
    step_past_request (s := s.withPins p t) hw rest decode_edge]

/-- A request of a `DRAIN` or `CYCLE` and the collaborator's answer (R81). -/
theorem runFor_request_dmaRearmed {s : State} (hw : s.cfg.wf = true) {f : Format} {w : Byte} {i : Instr}
    (hd : decode f w = .ok i) (hi : ∀ r, exec i (s.past r) = withScript r (exec i s)) (rest : List Stimulus) :
    (s.past (.request f w :: .event .dmaRearmed :: rest)).runFor 2 =
      andThen (exec i (s.past rest)) fun t => envStep .dmaRearmed t.release := by
  have hcfg : ∀ t, exec i s = .next t → t.cfg = s.cfg := fun t h => (keptByParts_cfg s.cfg).exec (fun _ => trivial) h rfl
  rw [runFor_request hw _ hd, hi, hi]
  cases he : exec i s with
  | next t =>
    show (t.release.past (.event .dmaRearmed :: rest)).runFor 1 = _
    rw [runFor_one, step_past_otherEvent (s := t.release) (by rw [State.cfg_release, hcfg t he]; exact hw) rest rfl]
    rfl
  | fault _ | refused _ => rfl

theorem lt_two_cap {c : Config} {r : Nat} (h : r ≤ c.cap) : r < 2 * c.cap := by
  have := cap_pos c
  omega

/-- Settles O32: each line drives its levels and then requests its operation. -/
theorem traceLinesRunTheOperationsTheyName : Obligations.TraceLinesRunTheOperationsTheyName := by
  intro s rest hw
  refine ⟨fun hs => ?reset, fun r hr hs => ?drain, fun o p r hr hs => ?cycle, fun p t ht hs => ?edge, fun hs => ?nop⟩ <;>
    rw [← past_of_script_eq hs]
  case reset => exact (runFor_one _).trans (step_past_request hw rest decode_reset)
  case drain =>
    show (s.past (.event (.driveRem r) :: .request .p 0b10 :: .event .dmaRearmed :: rest)).runFor 3 = _
    rw [runFor_event (s := s) (u := s.withRem r) hw _ rfl fun _ => envStep_driveRem (lt_two_cap hr)]
    exact runFor_request_dmaRearmed (s := s.withRem r) hw decode_drain (fun l => execDrain_past l _) rest
  case cycle =>
    let a : State := { s with env := { s.env with outcmd := some o } }
    let b : State := { s with env := { s.env with outcmd := some o, pins := some p } }
    show (s.past (.event (.driveOutcmd o) :: .event (.drivePins p) :: .event (.driveRem r) :: .request .p 0b11 ::
      .event .dmaRearmed :: rest)).runFor 5 = _
    rw [runFor_event (s := s) (u := a) hw _ rfl fun _ => rfl, runFor_event (s := a) (u := b) hw _ rfl fun _ => rfl,
      runFor_event (s := b) (u := s.withCyclePorts o p r) hw _ rfl fun _ => envStep_driveRem (lt_two_cap hr)]
    exact runFor_request_dmaRearmed (s := s.withCyclePorts o p r) hw decode_cycle (fun l => execCycle_past l _) rest
  case edge => exact runFor_edgeStimuli hw p ht rest
  case nop =>
    show (s.past (.request .p 0 :: .request .e 0 :: rest)).runFor 2 = _
    have hp : decode .p 0 = .ok (.pidle false) := decode_encode (.pidle false)
    have he : decode .e 0 = .ok .eidle := decode_encode .eidle
    rw [runFor_request hw _ hp, exec_pidle, thenRelease_next, andThen_next]
    show (s.release.past (.request .e 0 :: rest)).runFor 1 = _
    rw [runFor_one, step_past_request (s := s.release) hw rest he]
    rfl

/-! ### The pseudo-operation `PULSE` (R82) -/

/-- Levels within `MON_MASK` are their own monitored part. -/
theorem Pdu.InRange.and_monMask {c : Config} {p : Pdu} (h : p.InRange c) : p.lastLevels &&& monMask c = p.lastLevels := by
  have hzero : p.lastLevels &&& ~~~monMask c = 0#8 := h.1
  have hsplit : p.lastLevels = (p.lastLevels &&& monMask c) ||| (p.lastLevels &&& ~~~monMask c) := by
    ext b
    cases hb : (monMask c)[b] <;> simp [hb]
  rw [hzero, BitVec.or_zero] at hsplit
  exact hsplit.symm

theorem getLsbD_or_one_shiftLeft (v : Byte) {b : Nat} (hb : b < 8) : (v ||| 1#8 <<< b).getLsbD b = true := by
  simp [hb]

/-- An `EDGE` line where nothing holds the edge agent off. -/
theorem runFor_edgeStimuli_open {s : State} (hw : s.cfg.wf = true) (hopen : EdgeOpen s) (p : Byte) {t : Nat}
    (ht : t < 2 ^ s.cfg.wCnt) (rest : List Stimulus) :
    (s.past (edgeStimuli p t ++ rest)).runFor 3 =
      .next ((({ s with seq := servedSeq s, pdu := edgedPdu (s.withPins p t) } : State).release).past rest) := by
  rw [runFor_edgeStimuli hw p ht]
  exact congrArg thenRelease (execEdge_open (s := (s.withPins p t).past rest) hw hopen)

/-- Settles O37: two `EDGE` lines, the second of which shows the levels of before the first. -/
theorem pulseLineDecodesItsWidth : Obligations.PulseLineDecodesItsWidth := by
  intro s i t0 d rest hinv hopen ht0 hd hlow hs
  obtain ⟨hw, hr, -⟩ := hinv
  obtain ⟨-, hpdu, -⟩ := (inRange_iff s).1 hr
  let p := s.pdu.lastLevels ||| 1#8 <<< s.cfg.pwmBit.get i
  let t1 := (t0 + d) % 2 ^ s.cfg.wCnt
  let u : State := ({ s with seq := servedSeq s, pdu := edgedPdu (s.withPins p t0) } : State).release
  let v : State := ({ u with seq := servedSeq u, pdu := edgedPdu (u.withPins s.pdu.lastLevels t1) } : State).release
  have ht1 : t1 < 2 ^ s.cfg.wCnt := Nat.mod_lt _ (Nat.two_pow_pos _)
  obtain ⟨hrise, hhigh⟩ := pdu_after_rise (s := s.withPins p t0) hw hlow (getLsbD_or_one_shiftLeft _ (wf_pwmBit_lt hw i))
  refine ⟨v.past rest, ?_, rfl, ?_, pwmValue_after_fall (s := u.withPins s.pdu.lastLevels t1) hd rfl hrise hhigh hlow⟩
  · rw [← past_of_script_eq hs]
    show (s.past (edgeStimuli p t0 ++ (edgeStimuli s.pdu.lastLevels t1 ++ rest))).runFor (3 + 3) = _
    rw [runFor_add, runFor_edgeStimuli_open hw hopen p ht0, andThen_next]
    exact runFor_edgeStimuli_open (s := u) hw hopen s.pdu.lastLevels ht1 rest
  · exact hpdu.and_monMask

end Sys2Proof.Machine
end


section
/-! PROOF. What only some steps can do: a halted block stands still (R165), the PDU is the edge agent's (R120, R172), and an input
port has no memory (R40). -/

namespace Sys2Proof.Machine

/-! ### A halted block -/

/-- The stimulus asserts `rst` (R71). -/
def Stimulus.AssertsReset (x : Stimulus) : Prop := x = .request .r 1 ∨ ∃ p o r, x = .event (.instant true p o r)

theorem resetNext_iff (s : State) : s.ResetNext ↔ ∃ x rest, s.script = x :: rest ∧ x.AssertsReset := by
  constructor
  · rintro (⟨w, rest, hs, rfl⟩ | ⟨p, o, r, rest, hs⟩)
    · exact ⟨_, rest, hs, .inl rfl⟩
    · exact ⟨_, rest, hs, .inr ⟨p, o, r, rfl⟩⟩
  · rintro ⟨_, rest, hs, rfl | ⟨p, o, r, rfl⟩⟩
    · exact .inl ⟨1, rest, hs, rfl⟩
    · exact .inr ⟨p, o, r, rest, hs⟩

/-- `t` is halted and has the registers, trace and `buf_idx` of `s`, but that `e_pend` may be set. -/
def FrozenAs (s t : State) : Prop :=
  t.flt.halted = true ∧ t.adu = s.adu ∧ t.pdu = s.pdu ∧ t.flt = s.flt ∧ t.env.bufIdx = s.env.bufIdx ∧
    (t.seq = s.seq ∨ t.seq = { s.seq with ePend := true })

/-- While the block is halted no agent has a step and no request is sampled; only a reset and the pending latch are left. -/
theorem keptByParts_frozenAs (s : State) : KeptByParts (fun x => ¬ x.AssertsReset) (FrozenAs s) where
  past _ _ h := h
  undrive _ h := h
  release _ h := h
  countDraw _ h := h
  rstLow _ h := h
  acceptDrain _ ha h := absurd (ha.2.1.symm.trans h.1) (by decide)
  acceptCycle _ ha h := absurd (ha.2.1.symm.trans h.1) (by decide)
  paStep watch u t hst h := by
    rw [paStepWatched_off watch (paEnabled_of_halted h.1)] at hst
    injection hst with hst
    exact hst ▸ h
  eaStep u h := by
    rw [eaStep_closed (eaEnabled_eq_false fun hopen => absurd (hopen.2.1.symm.trans h.1) (by decide))]
    exact h
  latchEdge u h := by
    obtain ⟨hhalt, hadu, hpdu, hflt, hidx, hseq⟩ := h
    unfold latchEdge
    split
    · exact ⟨hhalt, hadu, hpdu, hflt, hidx, hseq⟩
    · refine ⟨hhalt, hadu, hpdu, hflt, hidx, .inr ?_⟩
      obtain hseq | hseq := hseq <;> rw [State.seq_setEPend, hseq]
  resetRequest hok _ _ := absurd (.inl rfl) hok
  resetInstant p o r hok _ _ := absurd (.inr ⟨p, o, r, rfl⟩) hok
  environment _ _ hof _ _ he h := by
    obtain ⟨-, hadu, hpdu, hseq, hflt, -, hidx⟩ := envStep_environment_frame hof he
    unfold FrozenAs
    rw [hadu, hpdu, hseq, hflt, hidx]
    exact h

theorem step_resetNext {s t : State} (hreset : s.ResetNext) (h : step s = .next t) : t.RegistersReset := by
  obtain ⟨hw, -⟩ := step_cases h
  obtain ⟨_, rest, hs, rfl | ⟨p, o, r, rfl⟩⟩ := (resetNext_iff s).1 hreset
  · rw [step_request hw hs decode_reset] at h
    injection h with h
    exact h ▸ ⟨rfl, rfl, rfl, rfl⟩
  · rw [step_otherEvent hw hs rfl] at h
    injection h with h
    exact h ▸ ⟨rfl, rfl, rfl, rfl⟩

/-- Settles O46: without a reset every piece of a step leaves the block as it is, and a reset request is the level of `rst`. -/
theorem haltedBlockIsFrozenUntilReset : Obligations.HaltedBlockIsFrozenUntilReset := by
  refine fun s hhalt => ⟨fun t h => ⟨fun hno => ?_, fun hreset => step_resetNext hreset h⟩, fun pReq pOp =>
    congrArg Host.Outcome.next (instant_eReq (.inr (.inr hhalt)))⟩
  have hok : ∀ x rest, s.script = x :: rest → ¬ x.AssertsReset := fun x rest hs hx => hno ((resetNext_iff s).2 ⟨x, rest, hs, hx⟩)
  exact ((keptByParts_frozenAs s).step hok h ⟨hhalt, rfl, rfl, rfl, rfl, .inl rfl⟩).2

/-! ### The PDU -/

theorem execDrain_pdu {s t : State} (h : execDrain s = .next t) : t.pdu = s.pdu := by
  by_cases ha : Accepting s
  · obtain ⟨-, ⟨-, -, rfl⟩ | ⟨-, -, ch, -, rfl⟩ | ⟨-, rfl⟩⟩ := execDrain_cases ha h <;> rfl
  · obtain rfl : s = t := Host.Outcome.next.inj ((execDrain_dropped ha).symm.trans h)
    rfl

theorem execCycle_pdu {s t : State} (h : execCycle s = .next t) : t.pdu = s.pdu := by
  by_cases ha : Accepting s
  · obtain ⟨-, ⟨-, -, rfl⟩ | ⟨-, -, ch, -, rfl⟩ | ⟨-, rfl⟩⟩ := execCycle_cases ha h <;> rfl
  · obtain rfl : s = t := Host.Outcome.next.inj ((execCycle_dropped ha).symm.trans h)
    rfl

/-- An operation other than `RESET` leaves the PDU alone, or is an `EDGE` that nothing holds off. -/
theorem exec_pdu {i : Instr} {s t : State} (hw : s.cfg.wf = true) (h : exec i s = .next t) :
    i = .reset ∨ t.pdu = s.pdu ∨ (i = .edge ∧ EdgeOpen s ∧ t.pdu = edgedPdu s) := by
  cases i with
  | reset => exact .inl rfl
  | drain => exact .inr (.inl (execDrain_pdu h))
  | cycle => exact .inr (.inl (execCycle_pdu h))
  | edge => exact .inr ((execEdge_pdu hw h).imp_right fun h => ⟨rfl, h⟩)
  | pidle _ | eidle =>
    injection h with h
    exact .inr (.inl (h ▸ rfl))

/-- The edge agent's step leaves the PDU alone, or is the `EDGE` pending (R121). -/
theorem eaStep_pdu {s : State} (hw : s.cfg.wf = true) :
    (eaStep s).pdu = s.pdu ∨ (EdgeOpen s ∧ s.seq.ePend = true ∧ (eaStep s).pdu = edgedPdu s) := by
  by_cases he : eaEnabled s = true
  · obtain ⟨hpend, hmask, hhalt, hrst⟩ := (eaEnabled_iff s).1 he
    rw [eaStep_open hw ⟨hrst, hhalt, hmask⟩ hpend]
    exact .inr ⟨⟨hrst, hhalt, hmask⟩, hpend, rfl⟩
  · exact .inl (by rw [eaStep_closed (by simpa using he)])

@[simp] theorem pdu_sampleP (pReq pOp : Bool) (s : State) : (sampleP pReq pOp s).pdu = s.pdu := by
  rw [sampleP_eq]
  split_ifs <;> rfl

theorem pdu_instant_low (pReq pOp eReq : Bool) (s : State) : (instant false pReq pOp eReq s).pdu = s.pdu := by
  rw [instant_low, sampleE_eq]
  split <;> simp

/-- An event other than a reset leaves the PDU alone, or is a step of the edge agent's. -/
theorem envStep_pdu {e : Event} {s t : State} (h : envStep e s = .next t) :
    (∃ p o r, e = .instant true p o r) ∨ t.pdu = s.pdu ∨ (e = .ea ∧ t = eaStep s) := by
  by_cases hof : e.OfEnvironment
  · obtain ⟨-, -, hpdu, -⟩ := envStep_environment_frame hof h
    exact .inr (.inl hpdu)
  cases e with
  | instant rst p o r =>
    injection h with h
    subst h
    cases rst with
    | true => exact .inl ⟨p, o, r, rfl⟩
    | false => exact .inr (.inl (pdu_instant_low p o r s))
  | pa watch => exact .inr (.inl (paStepWatched_pdu h))
  | ea =>
    injection h with h
    exact .inr (.inr ⟨rfl, h.symm⟩)
  | _ => exact absurd ⟨rfl, nofun⟩ hof

/-- Settles O47: of the pieces of a step only a reset and an `EDGE` that nothing holds off write the PDU. -/
theorem onlyEdgeAndResetChangeThePdu : Obligations.OnlyEdgeAndResetChangeThePdu := by
  refine ⟨fun s t h => ?_, fun s => ⟨fun hw hopen hpend => congrArg Host.Outcome.next (eaStep_open hw hopen hpend),
    fun hno => congrArg Host.Outcome.next (eaStep_closed ?_)⟩⟩
  swap
  · obtain hpend | hclosed := hno
    · simp [eaEnabled, hpend]
    · exact eaEnabled_eq_false hclosed
  obtain ⟨hw, ⟨f, w, rest, i, u, hs, hd, hu, rfl⟩ | ⟨f, w, rest, -, -, rfl⟩ | ⟨e, rest, u, hs, hu, rfl⟩ | ⟨hs, ho⟩⟩ :=
    step_cases h
  · obtain rfl | hpdu | ⟨rfl, hopen, hpdu⟩ := exec_pdu (s := s.past rest) hw hu
    · obtain ⟨rfl, hw1⟩ := decode_eq_reset hd
      exact .inl (.inl ⟨w, rest, hs, hw1⟩)
    · exact .inr (.inl hpdu)
    · obtain ⟨rfl, rfl⟩ := encode_decode hd
      refine .inr (.inr ⟨hopen, .inl ⟨rest, hs⟩, ?_⟩)
      rw [if_neg (by simp [hs])]
      exact hpdu
  · exact .inr (.inl rfl)
  · have hrel : (if e.isAgentStep then u.release else u).pdu = u.pdu := by split <;> rfl
    rw [hrel]
    obtain ⟨p, o, r, rfl⟩ | hpdu | ⟨rfl, rfl⟩ := envStep_pdu hu
    · exact .inl (.inr ⟨p, o, r, rest, hs⟩)
    · exact .inr (.inl hpdu)
    · obtain hpdu | ⟨hopen, hpend, hpdu⟩ := eaStep_pdu (s := s.past rest) hw
      · exact .inr (.inl hpdu)
      · refine .inr (.inr ⟨hopen, .inr hpend, ?_⟩)
        rw [if_neg (by simp [hs])]
        exact hpdu
  · obtain rfl | ⟨u, v, hu, hv, rfl⟩ := owedStep_cases ho
    · exact .inr (.inl rfl)
    have hcfg : u.cfg = s.cfg := by obtain rfl | rfl := hu <;> rfl
    have hpdu : u.pdu = s.pdu := by obtain rfl | rfl := hu <;> rfl
    rw [State.pdu_release, ← hpdu]
    obtain hv | rfl := hv
    · exact .inr (.inl (paStepWatched_pdu hv))
    obtain hsame | ⟨hopen, hpend, hedge⟩ := eaStep_pdu (s := u) (hcfg ▸ hw)
    · exact .inr (.inl hsame)
    · rw [if_pos hs]
      obtain rfl | rfl := hu <;> exact .inr (.inr ⟨hopen, .inr hpend, hedge⟩)

/-! ### The ports -/

/-- No piece of an operation is the end of an instant. -/
theorem keptByOperations_instant (n : Nat) : KeptByOperations (fun _ => True) (fun s => s.env.instant = n) where
  acceptDrain _ _ h := h
  acceptCycle _ _ h := h
  paStep _ _ _ hst h := by obtain henv | henv | henv := paStepWatched_env hst <;> rw [henv] <;> exact h
  eaStep _ h := by rw [env_eaStep]; exact h
  latchEdge _ h := by rw [env_latchEdge]; exact h
  resetRequest _ _ h := h

/-- The end of an instant: nothing is driven on the operand ports any more (R40). -/
theorem undriven_release {s u : State} (h : u.env.instant = s.env.instant) :
    u.release.Undriven ∧ u.release.env.instant = s.env.instant + 1 :=
  ⟨⟨rfl, rfl, rfl, rfl⟩, by rw [← h]; rfl⟩

theorem paStepWatched_instant {watch : List (List Watch)} {s t : State} (h : paStepWatched watch s = .next t) :
    t.env.instant = s.env.instant :=
  (keptByOperations_instant _).paStep watch s t h rfl

theorem owes_iff (s : State) : s.Owes ↔ paEnabled s = true ∨ eaEnabled s = true := by
  rw [paEnabled_iff, eaEnabled_iff, State.Owes]
  tauto

theorem owedStep_of_owes {s : State} (h : s.Owes) : owedStep s = thenRelease (agentStep s.undrive) := by
  rw [owedStep, if_pos]
  simpa using (owes_iff s).1 h

/-- Which agent a step is given to, and that one with nothing to do gets it only where the other has none either. -/
theorem agentStep_eq (s : State) :
    ∃ u, (u = s ∨ u = s.countDraw) ∧
      ((paEnabled s = true ∧ agentStep s = paStep u) ∨
        ((paEnabled s = true → eaEnabled s = true) ∧ agentStep s = .next (eaStep u))) := by
  unfold agentStep
  split_ifs with hboth hturn hpa
  · exact ⟨_, .inr rfl, .inl ⟨(Bool.and_eq_true_iff.1 hboth).1, rfl⟩⟩
  · exact ⟨_, .inr rfl, .inr ⟨fun _ => (Bool.and_eq_true_iff.1 hboth).2, rfl⟩⟩
  · exact ⟨_, .inl rfl, .inl ⟨hpa, rfl⟩⟩
  · exact ⟨_, .inl rfl, .inr ⟨fun h => absurd h hpa, rfl⟩⟩

/-- With no step of the edge agent's to take, it is the periodic agent's. -/
theorem agentStep_of_not_eaEnabled {s : State} (h : eaEnabled s = false) : agentStep s = paStep s := by
  cases hpa : paEnabled s with
  | true => simp [agentStep, h, hpa]
  | false => simp [agentStep, hpa, paStep_off hpa, eaStep_closed h]

theorem agentStep_instant {s t : State} (h : agentStep s = .next t) : t.env.instant = s.env.instant := by
  obtain ⟨u, hu, hstep⟩ := agentStep_eq s
  have hinst : u.env.instant = s.env.instant := by obtain rfl | rfl := hu <;> rfl
  obtain ⟨-, hpa⟩ | ⟨-, hea⟩ := hstep
  · exact (paStepWatched_instant (hpa.symm.trans h)).trans hinst
  · rw [hea] at h
    injection h with h
    rw [← h, env_eaStep, hinst]

/-- Every step that can sample ports ends its instant. -/
theorem step_releases {s t : State} (h : step s = .next t)
    (hs : (∃ f w rest i, s.script = .request f w :: rest ∧ decode f w = .ok i) ∨
      (∃ watch rest, s.script = .event (.pa watch) :: rest) ∨ (∃ rest, s.script = .event .ea :: rest) ∨
        (s.script = [] ∧ s.Owes)) :
    t.Undriven ∧ t.env.instant = s.env.instant + 1 := by
  obtain ⟨hw, -⟩ := step_cases h
  obtain ⟨f, w, rest, i, hs, hd⟩ | ⟨watch, rest, hs⟩ | ⟨rest, hs⟩ | ⟨hs, howes⟩ := hs
  · obtain ⟨u, hu, rfl⟩ := thenRelease_eq_next ((step_request hw hs hd).symm.trans h)
    exact undriven_release ((keptByOperations_instant _).exec (s := s.past rest) (fun _ => trivial) hu rfl)
  · obtain ⟨u, hu, rfl⟩ := thenRelease_eq_next ((step_agentEvent hw hs rfl).symm.trans h)
    exact undriven_release (paStepWatched_instant (s := s.past rest) hu)
  · obtain ⟨u, hu, rfl⟩ := thenRelease_eq_next ((step_agentEvent hw hs rfl).symm.trans h)
    injection hu with hu
    exact undriven_release (by rw [← hu, env_eaStep]; rfl)
  · obtain ⟨u, hu, rfl⟩ := thenRelease_eq_next (((step_owed hw hs).trans (owedStep_of_owes howes)).symm.trans h)
    exact undriven_release (agentStep_instant (s := s.undrive) hu)

/-- An owed step samples nothing that was driven before it. -/
theorem step_undrive {s : State} (hs : s.script = []) (howes : s.Owes) : step s = step s.undrive := by
  cases hw : s.cfg.wf with
  | false => rw [step_badConfig hw, step_badConfig (s := s.undrive) hw]
  | true =>
    rw [step_owed hw hs, step_owed (s := s.undrive) hw hs, owedStep_of_owes howes, owedStep_of_owes (s := s.undrive) howes,
      State.undrive_undrive]

/-- Settles O60: the release, where it happens, what stands on a released port, and what an owed step makes of it. -/
theorem portsHaveNoMemory : Obligations.PortsHaveNoMemory := by
  refine ⟨fun s => rfl, fun s t h hs => step_releases h hs, fun s hs => ?_, fun s hs howes => step_undrive hs howes,
    fun s t hs hpend hhalt hrst h => ?_⟩
  · obtain ⟨hrem, hpins, hcnt, hcmd⟩ := hs
    simp only [remSeen, pinsSeen, cntSeen, outcmdSeen, hrem, hpins, hcnt, hcmd, and_self]
  · obtain ⟨hw, -⟩ := step_cases h
    have hea : eaEnabled s = false := by simp [eaEnabled, hpend]
    have hpa : s.seq.ph ≠ .idle → paEnabled s = true := fun hp => (paEnabled_iff s).2 ⟨hp, hhalt, hrst⟩
    have hstep : s.seq.ph ≠ .idle → step s = thenRelease (paStep s.undrive) := fun hp => by
      rw [step_owed hw hs, owedStep_of_owes ((owes_iff s).2 (.inl (hpa hp))), agentStep_of_not_eaEnabled (s := s.undrive) hea]
    refine ⟨fun hp => ?_, fun hp => ?_⟩
    · rw [hstep (by simp [hp]), paStep_cyOut (s := s.undrive) (hpa (by simp [hp])) hp] at h
      injection h with h
      exact h ▸ rfl
    · rw [hstep (by simp [hp]), paStep_cyIn (s := s.undrive) (hpa (by simp [hp])) hp] at h
      injection h with h
      exact h ▸ rfl

end Sys2Proof.Machine
end


section
/-! PROOF. Every operation ends (R147, R194): the steps a block owes are counted down one at a time. -/

namespace Sys2Proof.Machine

/-- The number of sub-steps from a phase to `IDLE` (R36, R91, R141). -/
def Phase.remaining : Phase → Nat
  | .idle => 0
  | .cyOut => 8
  | .cyIn => 7
  | .cyPwm i => 6 - i.val
  | .drRun => 2
  | .pub => 1

/-- The number of steps the two agents owe. -/
def State.owed (s : State) : Nat := s.seq.ph.remaining + s.seq.ePend.toNat

theorem Phase.remaining_le (p : Phase) : p.remaining ≤ 8 := by
  cases p <;> simp only [Phase.remaining] <;> omega

theorem State.owed_le (s : State) : s.owed ≤ 9 := Nat.add_le_add s.seq.ph.remaining_le (Bool.toNat_le _)

theorem quiescent_of_owed_eq_zero {s : State} (hmask : s.seq.irqMask = false) (h : s.owed = 0) : s.Quiescent := by
  obtain ⟨hrem, hpend⟩ := Nat.add_eq_zero_iff.1 h
  refine ⟨?_, by simpa using hpend, hmask⟩
  cases hp : s.seq.ph with
  | idle => rfl
  | cyPwm i =>
    rw [hp, Phase.remaining] at hrem
    omega
  | _ => simp [hp, Phase.remaining] at hrem

/-- What is counted is owed by an agent that nothing holds off. -/
theorem owes_of_owed_ne_zero {s : State} (hmask : s.seq.irqMask = false) (hhalt : s.flt.halted = false)
    (hrst : s.env.rst = false) (h : s.owed ≠ 0) : s.Owes := by
  refine ⟨?_, hhalt, hrst⟩
  by_cases hp : s.seq.ph = .idle
  · refine .inr ⟨Bool.eq_true_of_not_eq_false fun hpend => h ?_, hmask⟩
    rw [State.owed, hp, hpend]
    rfl
  · exact .inl hp

theorem remaining_phaseAfterPwm (i : Ch) : (phaseAfterPwm i).remaining + 1 = (Phase.cyPwm i).remaining := by
  revert i
  decide

/-- What is left of the block's own work: one sub-step fewer, and nothing else that the count rests on has moved. -/
structure OneSubStep (s t : State) : Prop where
  remaining : t.seq.ph.remaining + 1 = s.seq.ph.remaining
  ePend : t.seq.ePend = s.seq.ePend
  rst : t.env.rst = s.env.rst
  script : t.script = s.script

/-- Within its contract the periodic agent's step answers a next state, one sub-step nearer to `IDLE`. -/
theorem paStep_progress {s : State} (hw : s.cfg.wf = true) (hc : s.cfg.conforming = true) (hr : DrainReady s)
    (he : paEnabled s = true) : ∃ t, paStep s = .next t ∧ OneSubStep s t := by
  cases hp : s.seq.ph with
  | idle => exact absurd hp ((paEnabled_iff s).1 he).1
  | cyOut => exact ⟨_, paStep_cyOut he hp, by rw [hp]; rfl, rfl, rfl, rfl⟩
  | cyIn => exact ⟨_, paStep_cyIn he hp, by rw [hp]; rfl, rfl, rfl, rfl⟩
  | cyPwm i => exact ⟨_, paStep_cyPwm he hp, by rw [hp]; exact remaining_phaseAfterPwm i, rfl, rfl, rfl⟩
  | drRun =>
    obtain ⟨hh, hok⟩ | ⟨hh, -, ch, hch, -⟩ | hh := drain_course hr
    · exact ⟨_, (paStep_drRun he hp).trans (drRun_healthy hr hh hok), by rw [hp]; rfl, rfl, rfl, rfl⟩
    · exact absurd (channelCount_le_cntMax hw hc hh ch) (Nat.not_le.2 hch)
    · exact ⟨_, (paStep_drRun he hp).trans (drRun_rearm hr hh), by rw [hp]; rfl, rfl, rfl, rfl⟩
  | pub =>
    refine ⟨_, paStep_pub he hp, ?_⟩
    rw [publish_eq]
    exact ⟨by rw [hp]; rfl, rfl, rfl, rfl⟩

/-- A block that no assertion can halt, with nothing further asked of it. -/
structure State.Finishing (s : State) : Prop where
  inv : s.Inv
  conforming : s.cfg.conforming = true
  running : s.flt.halted = false
  rst : s.env.rst = false
  script : s.script = []

/-- A step that is owed is taken, and then one fewer is owed, whichever agent took it. -/
theorem State.Finishing.step {s : State} (h : s.Finishing) (howed : s.owed ≠ 0) :
    ∃ t, Machine.step s = .next t ∧ t.Finishing ∧ t.owed < s.owed := by
  obtain ⟨hinv, hconf, hhalt, hrst, hscript⟩ := id h
  have hmask : s.seq.irqMask = false := hinv.2.2.1
  have next : ∀ v : State, agentStep s.undrive = .next v → v.env.rst = s.env.rst → v.script = s.script →
      v.owed < s.owed → s.Owes → ∃ t, Machine.step s = .next t ∧ t.Finishing ∧ t.owed < s.owed :=
    fun v hv hvrst hvscript hlt howes => by
      have hst : Machine.step s = .next v.release := by
        rw [step_owed hinv.1 hscript, owedStep_of_owes howes, hv, thenRelease_next]
      obtain ⟨hvhalt, hvconf⟩ := conformingBlockNeverHalts s _ hinv hconf hhalt hst
      exact ⟨_, hst, ⟨step_inv hinv hst, hvconf, hvhalt, hvrst.trans hrst, hvscript.trans hscript⟩, hlt⟩
  have howes := owes_of_owed_ne_zero hmask hhalt hrst howed
  obtain ⟨u, hu, hstep⟩ := agentStep_eq s.undrive
  have hcfg : u.cfg = s.cfg := by obtain rfl | rfl := hu <;> rfl
  have hseq : u.seq = s.seq := by obtain rfl | rfl := hu <;> rfl
  have hflt : u.flt = s.flt := by obtain rfl | rfl := hu <;> rfl
  have hurst : u.env.rst = s.env.rst := by obtain rfl | rfl := hu <;> rfl
  have huscript : u.script = s.script := by obtain rfl | rfl := hu <;> rfl
  obtain ⟨hpa, hstep⟩ | ⟨hea, hstep⟩ := hstep
  · have hready : DrainReady u := by obtain rfl | rfl := hu <;> exact ⟨remSeen_undrive_le s, hinv.2.1.1⟩
    have hen : paEnabled u = true := by obtain rfl | rfl := hu <;> exact hpa
    obtain ⟨v, hv, hsub⟩ := paStep_progress (hcfg ▸ hinv.1) (hcfg ▸ hconf) hready hen
    refine next v (hstep.trans hv) (hsub.rst.trans hurst) (hsub.script.trans huscript) ?_ howes
    have hrem := hsub.remaining
    rw [State.owed, State.owed, hsub.ePend, hseq]
    rw [hseq] at hrem
    omega
  · have hpend : s.seq.ePend = true := by
      obtain hpa | hea' := (owes_iff s).1 howes
      · exact ((eaEnabled_iff _).1 (hea hpa)).1
      · exact ((eaEnabled_iff _).1 hea').1
    have hrun : eaStep u = { u with seq := servedSeq u, pdu := edgedPdu u } :=
      eaStep_open (hcfg ▸ hinv.1) ⟨hurst.trans hrst, hflt ▸ hhalt, hseq ▸ hmask⟩ (hseq ▸ hpend)
    refine next _ (hstep.trans (congrArg Host.Outcome.next hrun)) hurst huscript ?_ howes
    show u.seq.ph.remaining + 0 < s.seq.ph.remaining + s.seq.ePend.toNat
    rw [hseq, hpend]
    exact Nat.lt_succ_self _

theorem State.Finishing.quiesces {s : State} (h : s.Finishing) (n : Nat) (hn : s.owed ≤ n) :
    ∃ k ≤ n, ∃ t, s.runFor k = .next t ∧ t.Quiescent ∧ t.flt.halted = false := by
  induction n generalizing s with
  | zero =>
    exact ⟨0, le_refl 0, s, rfl, quiescent_of_owed_eq_zero h.inv.2.2.1 (Nat.le_zero.1 hn), h.running⟩
  | succ n ih =>
    by_cases h0 : s.owed = 0
    · exact ⟨0, Nat.zero_le _, s, rfl, quiescent_of_owed_eq_zero h.inv.2.2.1 h0, h.running⟩
    obtain ⟨u, hu, hfin, hlt⟩ := h.step h0
    obtain ⟨k, hk, t, ht, hq⟩ := ih hfin (by omega)
    exact ⟨k + 1, Nat.succ_le_succ hk, t, by rw [runFor_succ, hu]; exact ht, hq⟩

/-- Settles O51: at most nine steps are owed, and each step taken leaves one fewer. -/
theorem owedStepsReachQuiescence : Obligations.OwedStepsReachQuiescence :=
  fun s hinv hconf hhalt hrst hscript => State.Finishing.quiesces ⟨hinv, hconf, hhalt, hrst, hscript⟩ 9 s.owed_le

end Sys2Proof.Machine
end


section
/-! PROOF. The environment's events and the DMA collaborator (20_memory.md sections 1, 3 and 4): what each event does, a sample
written, and a re-arm carried out. -/

namespace Sys2Proof.Machine

/-! ### The events -/

/-- A re-arm carried out puts the collaborator where E-REARM has it (R59). -/
theorem eRearm_dmaRearmed {s : State} (h : s.env.rearmDue = true) : ERearm (dmaRearmed s) := by
  rw [dmaRearmed_due h]
  exact ⟨rfl, rfl, rfl, rfl⟩

theorem envStep_dmaPlaced {s : State} {w : Nat} (hw : w < s.cfg.cap) (ch : Ch) :
    envStep (.dmaPlaced w ch) s =
      .next { s with env := { s.env with wCur := w, nextCh := ch, rearmDue := false, restarted := false } } := by
  rw [envStep, dmaPlaced, Nat.mod_eq_of_lt hw]
  rfl

/-- Settles O54: one clause for each event, the levels driven being within the ports' widths. -/
theorem environmentEventsChangeOnlyWhatTheyName : Obligations.EnvironmentEventsChangeOnlyWhatTheyName := by
  intro s
  refine ⟨fun r hr => envStep_driveRem hr, fun p => rfl, fun t ht => envStep_driveCnt ht, fun v => rfl, fun r => ?_,
    fun j => ⟨_, rfl, ?_, fun k hk => ?_, Memory.wf_disturb j⟩, fun hdue => ⟨_, rfl, eRearm_dmaRearmed hdue, dmaRearmed_due hdue⟩,
    fun hdue => congrArg Host.Outcome.next (dmaRearmed_of_not_due hdue), fun w hw ch => envStep_dmaPlaced hw ch⟩
  · rw [← observed_eq]
    rfl
  · rw [Memory.lookup_disturb, if_pos rfl]
  · rw [Memory.lookup_disturb, if_neg hk.symm]

/-- Settles O52: short of a lap the buffer is the old one with the sample written, at a lap and after it nothing. -/
theorem dmaWriteFillsOneLocation : Obligations.DmaWriteFillsOneLocation := by
  intro s x hcur hwf
  refine ⟨_, rfl, wf_bufferAfter (Memory.wf_write x hcur hwf), fun hlt => ?_, fun hle j => ?_⟩
  · rw [bufferAfter_of_lt _ hlt]
    refine ⟨by rw [Memory.lookup_write, if_pos rfl], fun j hj => by rw [Memory.lookup_write, if_neg hj.symm]⟩
  · rw [bufferAfter_of_le _ hle]
    rfl

/-! ### A re-arm -/

/-- A `DRAIN` or `CYCLE` re-arms and tells the collaborator, or leaves what it holds alone. -/
theorem drain_env_cases {s t : State} (h : exec .drain s = .next t ∨ exec .cycle s = .next t) :
    t.cfg = s.cfg ∧
      ((Accepting s ∧ ¬ Healthy s ∧ t.adu = rearmedAdu s ∧ t.env = rearmedEnv s) ∨
        ((¬ Accepting s ∨ Healthy s) ∧ (t.env = s.env ∨ t.env = drainedEnv s))) := by
  by_cases ha : Accepting s
  · have hcases : (Healthy s ∧ t.cfg = s.cfg ∧ t.env = drainedEnv s) ∨
        (¬ Healthy s ∧ t.cfg = s.cfg ∧ t.adu = rearmedAdu s ∧ t.env = rearmedEnv s) := by
      obtain h | h := h
      · obtain ⟨-, ⟨hh, -, rfl⟩ | ⟨hh, -, ch, -, rfl⟩ | ⟨hh, rfl⟩⟩ := execDrain_cases ha h
        · exact .inl ⟨hh, rfl, rfl⟩
        · exact .inl ⟨hh, rfl, rfl⟩
        · exact .inr ⟨hh, rfl, rfl, rfl⟩
      · obtain ⟨-, ⟨hh, -, rfl⟩ | ⟨hh, -, ch, -, rfl⟩ | ⟨hh, rfl⟩⟩ := execCycle_cases ha h
        · exact .inl ⟨hh, rfl, rfl⟩
        · exact .inl ⟨hh, rfl, rfl⟩
        · exact .inr ⟨hh, rfl, rfl, rfl⟩
    obtain ⟨hh, hcfg, henv⟩ | ⟨hh, hcfg, hadu, henv⟩ := hcases
    · exact ⟨hcfg, .inr ⟨.inr hh, .inr henv⟩⟩
    · exact ⟨hcfg, .inl ⟨ha, hh, hadu, henv⟩⟩
  · obtain rfl : s = t := by
      obtain h | h := h
      · exact Host.Outcome.next.inj ((execDrain_dropped ha).symm.trans h)
      · exact Host.Outcome.next.inj ((execCycle_dropped ha).symm.trans h)
    exact ⟨rfl, .inr ⟨.inl ha, .inl rfl⟩⟩

/-- The restart lasts through every piece of a step but a sample written and a collaborator placed elsewhere (R59). -/
theorem keptByParts_atRestart :
    KeptByParts (fun x => (∀ y, x ≠ .event (.dmaWrite y)) ∧ ∀ w ch, x ≠ .event (.dmaPlaced w ch)) State.AtRestart where
  past _ _ h := h
  undrive _ h := h
  release _ h := h
  countDraw _ h := h
  rstLow _ h := h
  acceptDrain _ _ h := h
  acceptCycle _ _ h := h
  paStep watch s t hst h := by
    unfold State.AtRestart at *
    obtain henv | henv | henv := paStepWatched_env hst <;> rw [henv] <;> exact h
  eaStep s h := by
    unfold State.AtRestart at *
    rw [env_eaStep]
    exact h
  latchEdge s h := by
    unfold State.AtRestart at *
    rw [env_latchEdge]
    exact h
  resetRequest _ _ h := h
  resetInstant _ _ _ _ _ h := h
  environment e hok hof s t he h := by
    obtain ⟨x, rfl, -⟩ | ⟨-, rfl⟩ | ⟨w, ch, rfl, -⟩ | ⟨j, -, rfl⟩ | ⟨r, p, c, o, l, rfl⟩ := envStep_environment_cases hof he
    · exact absurd rfl (hok.1 x)
    · unfold State.AtRestart at *
      rw [dmaRearmed_eq]
      dsimp only
      split
      · exact ⟨rfl, rfl, rfl⟩
      · exact h
    · exact absurd rfl (hok.2 w ch)
    · exact h
    · exact h

/-- Settles O55: the answer to a re-arm, that it lasts, and what `rem` reads meanwhile. -/
theorem rearmRestartsTheCollaborator : Obligations.RearmRestartsTheCollaborator := by
  refine ⟨fun s t h => ⟨_, rfl, fun ha hh => ?_, fun hno hdue => ?_⟩, fun s t hrest h hwrite hplaced => ?_,
    fun s h hrem => remSeen_restarted h.1 hrem⟩
  · obtain ⟨hcfg, ⟨-, -, hadu, henv⟩ | ⟨hno, -⟩⟩ := drain_env_cases h
    · have hdue : t.env.rearmDue = true := by rw [henv]; rfl
      have hbuf : t.env.buf = [] := by rw [henv]; rfl
      have hrearm := eRearm_dmaRearmed hdue
      have hunread : unread (dmaRearmed t) = 0 := unread_of_rem_cap (by rw [adu_dmaRearmed, hadu]; rfl) hrearm.2.1
      refine ⟨hrearm, ?_, ?_, channelAligned_of_ERearm hrearm, ?_, (adu_dmaRearmed t).trans hadu, hunread⟩ <;>
        rw [dmaRearmed_due hdue]
      · exact ⟨rfl, rfl, rfl⟩
      · exact hbuf
    · exact absurd hno (by simp [ha, hh])
  · obtain ⟨-, ⟨ha, hh, -⟩ | ⟨-, henv⟩⟩ := drain_env_cases h
    · exact absurd hno (by simp [ha, hh])
    · have hdue' : t.env.rearmDue = false := by obtain henv | henv := henv <;> rw [henv] <;> exact hdue
      refine ⟨dmaRearmed_of_not_due hdue', ?_⟩
      obtain henv | henv := henv <;> rw [henv] <;> exact ⟨rfl, rfl, rfl, rfl, rfl⟩
  · refine keptByParts_atRestart.step (fun x rest hs => ⟨?_, ?_⟩) h hrest
    · rintro y rfl
      exact hwrite y rest hs
    · rintro w ch rfl
      exact hplaced w ch rest hs

end Sys2Proof.Machine
end


section
/-! PROOF. Deliveries of the DMA collaborator (20_memory.md section 1): where a run of samples ends up, and what the `DRAIN` after
it, or the re-arm before it, has to do with them (R81, R195, R197). -/

namespace Sys2Proof.Machine

/-! ### A delivery -/

/-- The state after the collaborator has written the samples `xs`, one after another. -/
def deliver (xs : List Sample) (s : State) : State := xs.foldl (fun t x => dmaWrite x t) s

@[simp] theorem deliver_nil (s : State) : deliver [] s = s := rfl

theorem deliver_cons (x : Sample) (xs : List Sample) (s : State) : deliver (x :: xs) s = deliver xs (dmaWrite x s) := rfl

theorem deliver_concat (xs : List Sample) (x : Sample) (s : State) : deliver (xs ++ [x]) s = dmaWrite x (deliver xs s) := by
  simp [deliver]

/-- A delivery touches the ports' side only: the buffer, and the collaborator's place and counts. -/
theorem deliver_eq (xs : List Sample) {s : State} (hcur : s.env.wCur < s.cfg.cap) :
    ∃ m c b, deliver xs s =
      { s with
        env :=
          { s.env with
            buf := m
            wCur := (s.env.wCur + xs.length) % s.cfg.cap
            nextCh := c
            delivered := s.env.delivered + xs.length
            restarted := b } } := by
  induction xs using List.reverseRecOn with
  | nil => exact ⟨s.env.buf, s.env.nextCh, s.env.restarted, by simp [Nat.mod_eq_of_lt hcur]⟩
  | append_singleton xs x ih =>
    obtain ⟨m, c, b, ih⟩ := ih
    rw [deliver_concat, ih]
    refine ⟨bufferAfter s.cfg.cap (s.env.delivered + xs.length + 1) (m.write ((s.env.wCur + xs.length) % s.cfg.cap) x), c + 1,
      false, ?_⟩
    simp only [dmaWrite, State.modEnv, nextIndex, List.length_append, List.length_singleton, Nat.mod_add_mod, Nat.add_assoc]

theorem deliver_nextCh (xs : List Sample) (s : State) :
    (deliver xs s).env.nextCh.val = (s.env.nextCh.val + xs.length) % 4 := by
  have hsucc : ∀ c : Ch, (c + 1).val = (c.val + 1) % 4 := by decide
  induction xs using List.reverseRecOn with
  | nil => exact (Nat.mod_eq_of_lt s.env.nextCh.isLt).symm
  | append_singleton xs x ih =>
    rw [deliver_concat, env_dmaWrite, hsucc, ih, List.length_append, List.length_singleton, Nat.mod_add_mod, Nat.add_assoc]

/-- Fewer than a lap apart, two locations differ. -/
theorem add_mod_ne {w k n c : Nat} (hk : k < n) (hn : n < c) : (w + n) % c ≠ (w + k) % c := fun h => by
  have hmod : n % c = k % c := Nat.ModEq.add_left_cancel' w h
  rw [Nat.mod_eq_of_lt hn, Nat.mod_eq_of_lt (hk.trans hn)] at hmod
  omega

/-- Short of a lap each sample stands where it was written, and every other location is as it was. -/
theorem lookup_deliver {s : State} (hcur : s.env.wCur < s.cfg.cap) (xs : List Sample)
    (hlt : s.env.delivered + xs.length < s.cfg.cap) :
    (∀ k < xs.length, Memory.lookup ((s.env.wCur + k) % s.cfg.cap) (deliver xs s).env.buf = xs[k]?) ∧
      ∀ j, (∀ k < xs.length, (s.env.wCur + k) % s.cfg.cap ≠ j) →
        Memory.lookup j (deliver xs s).env.buf = Memory.lookup j s.env.buf := by
  induction xs using List.reverseRecOn with
  | nil => exact ⟨nofun, fun j _ => rfl⟩
  | append_singleton xs x ih =>
    rw [List.length_append, List.length_singleton] at hlt
    obtain ⟨hnew, hold⟩ := ih (by omega)
    have hbuf : (deliver (xs ++ [x]) s).env.buf =
        (deliver xs s).env.buf.write ((s.env.wCur + xs.length) % s.cfg.cap) x := by
      obtain ⟨m, c, b, heq⟩ := deliver_eq xs hcur
      rw [deliver_concat, env_dmaWrite, heq]
      exact bufferAfter_of_lt _ hlt
    rw [hbuf, List.length_append, List.length_singleton]
    refine ⟨fun k hk => ?_, fun j hj => ?_⟩
    · rcases Nat.lt_succ_iff_lt_or_eq.1 hk with hk | rfl
      · rw [Memory.lookup_write, if_neg (add_mod_ne hk (by omega)), hnew k hk, List.getElem?_append_left hk]
      · rw [Memory.lookup_write, if_pos rfl, List.getElem?_concat_length]
    · rw [Memory.lookup_write, if_neg (hj _ (Nat.lt_succ_self _)), hold j fun k hk => hj k (Nat.lt_succ_of_lt hk)]

/-- A delivery that brings the samples since the last `DRAIN` to a whole lap leaves no location with contents (U5). -/
theorem buf_deliver_of_lap {s : State} (hcur : s.env.wCur < s.cfg.cap) {xs : List Sample} (hne : xs ≠ [])
    (hle : s.cfg.cap ≤ s.env.delivered + xs.length) : (deliver xs s).env.buf = [] := by
  obtain ⟨ys, x, rfl⟩ := (List.eq_nil_or_concat' xs).resolve_left hne
  obtain ⟨m, c, b, heq⟩ := deliver_eq ys hcur
  rw [deliver_concat, env_dmaWrite, heq]
  exact bufferAfter_of_le _ (by simpa [Nat.add_assoc] using hle)

/-- The stimuli of a delivery, one sample each (R81). -/
theorem runFor_deliver {s : State} (hw : s.cfg.wf = true) (xs : List Sample) (rest : List Stimulus) (k : Nat) :
    (s.past (xs.map (fun x => Stimulus.event (.dmaWrite x)) ++ rest)).runFor (xs.length + k) =
      ((deliver xs s).past rest).runFor k := by
  induction xs generalizing s with
  | nil => simp
  | cons x xs ih =>
    rw [List.length_cons, Nat.add_right_comm, List.map_cons, List.cons_append,
      runFor_event (u := dmaWrite x s) hw _ rfl (fun _ => rfl), ih (s := dmaWrite x s) hw, deliver_cons]

/-! ### A delivery after a re-arm (R59, R81) -/

/-- A delivery to a collaborator that has just restarted fills the buffer from location 0 on, channel 0 first. -/
theorem filledFromZero_deliver {s : State} (xs : List Sample) (hcur : s.env.wCur = 0) (hch : s.env.nextCh = 0)
    (hbuf : s.env.buf = []) (hdel : s.env.delivered = 0) : (deliver xs s).FilledFromZero xs := by
  have hpos := cap_pos s.cfg
  have hlt : s.env.wCur < s.cfg.cap := hcur ▸ hpos
  obtain ⟨m, c, b, heq⟩ := deliver_eq xs hlt
  have hcfg : (deliver xs s).cfg = s.cfg := by rw [heq]
  refine ⟨fun j => ?_, by rw [heq, hcur, Nat.zero_add], ?_⟩
  · rw [hcfg]
    split
    · next hshort =>
      obtain ⟨hnew, hold⟩ := lookup_deliver hlt xs (by omega)
      simp only [hcur, Nat.zero_add] at hnew hold
      rcases Nat.lt_or_ge j xs.length with hj | hj
      · have := hnew j hj
        rwa [Nat.mod_eq_of_lt (by omega)] at this
      · rw [hold j fun k hk => by rw [Nat.mod_eq_of_lt (by omega)]; omega, hbuf, List.getElem?_eq_none hj]
        rfl
    · next hlap =>
      rw [buf_deliver_of_lap hlt (by rintro rfl; exact hlap hpos) (by omega)]
      rfl
  · rw [deliver_nextCh, hch]
    show (0 + xs.length) % 4 = _
    rw [Nat.zero_add]

/-- A re-arm carried out and a `DMA` line after it. -/
theorem runFor_dma_after_rearm {s : State} (hw : s.cfg.wf = true) (hdue : s.env.rearmDue = true) (hbuf : s.env.buf = [])
    (hdel : s.env.delivered = 0) {xs : List Sample} {rest : List Stimulus}
    (hs : s.script = Line.stimuli s.cfg (.dma xs) ++ rest) :
    ∃ t, (dmaRearmed s).runFor xs.length = .next t ∧ t.script = rest ∧ t.adu = s.adu ∧ t.seq = s.seq ∧
      t.FilledFromZero xs := by
  rw [← past_of_script_eq ((script_dmaRearmed s).trans hs), dmaRearmed_due hdue]
  let u : State :=
    { s with env := { s.env with wCur := 0, nextCh := 0, rem := none, rearmDue := false, restarted := true } }
  obtain ⟨m, c, b, heq⟩ := deliver_eq xs (s := u) (cap_pos s.cfg)
  refine ⟨(deliver xs u).past rest, runFor_deliver (s := u) hw xs rest 0, rfl, by rw [heq]; rfl, by rw [heq]; rfl, ?_⟩
  exact filledFromZero_deliver (s := u) xs rfl rfl hbuf hdel

/-- Settles O57: each of the three lines ends with the re-arm carried out, and the `DMA` line starts from there. -/
theorem dmaLineAfterARearmFillsFromLocationZero : Obligations.DmaLineAfterARearmFillsFromLocationZero := by
  intro s r xs rest hw hcur hr hh
  have hready : DrainReady (s.withRem r) := ⟨hr, hcur⟩
  let l := Line.stimuli s.cfg (.dma xs) ++ rest
  have after : ∀ (v : State) (k : Nat), s.runFor k = .next (dmaRearmed v) → v.cfg = s.cfg → v.script = l →
      v.env.rearmDue = true → v.env.buf = [] → v.env.delivered = 0 →
      ∃ t, s.runFor (k + xs.length) = .next t ∧ t.script = rest ∧ t.adu = v.adu ∧ t.seq = v.seq ∧ t.FilledFromZero xs :=
    fun v k hrun hcfg hscript hdue hbuf hdel => by
      obtain ⟨t, ht, hfacts⟩ := runFor_dma_after_rearm (hcfg ▸ hw) hdue hbuf hdel (by rw [hcfg]; exact hscript)
      exact ⟨t, by rw [runFor_add, hrun]; exact ht, hfacts⟩
  obtain ⟨-, drainLine, cycleLine, -⟩ := traceLinesRunTheOperationsTheyName s l hw
  refine ⟨fun ha hs => ?drain, fun o p ha hs => ?cycle, fun hp hhalt hrst hs => ?paStep⟩
  case drain =>
    have hrun := drainLine r hr hs
    rw [exec, execDrain_rearm (s := (s.withRem r).past l) ha hready hh] at hrun
    obtain ⟨t, ht, hscript, hadu, -, hfilled⟩ := after _ 3 hrun rfl rfl rfl rfl rfl
    exact ⟨t, ht, hscript, hadu, hfilled⟩
  case cycle =>
    have hrun := cycleLine o p r hr hs
    rw [exec, execCycle_rearm (s := (s.withCyclePorts o p r).past l) ha hready hh] at hrun
    obtain ⟨t, ht, hscript, hadu, -, hfilled⟩ := after _ 5 hrun rfl rfl rfl rfl rfl
    exact ⟨t, ht, hscript, hadu, hfilled⟩
  case paStep =>
    have he : paEnabled (s.withRem r) = true := (paEnabled_iff _).2 ⟨by simp [State.withRem, hp], hhalt, hrst⟩
    have hpa : paStep (s.withRem r) = .next (ranRearm (s.withRem r)) := (paStep_drRun he hp).trans (drRun_rearm hready hh)
    let v : State := (ranRearm (s.withRem r)).release.past l
    have hrun : s.runFor 3 = .next (dmaRearmed v) := by
      rw [← past_of_script_eq hs]
      show (s.past (.event (.driveRem r) :: .event (.pa []) :: .event .dmaRearmed :: l)).runFor 3 = _
      rw [runFor_event (s := s) (u := s.withRem r) hw _ rfl fun _ => envStep_driveRem (lt_two_cap hr),
        runFor_pa (s := s.withRem r) hw _ hpa, runFor_one,
        step_past_otherEvent (s := (ranRearm (s.withRem r)).release) hw l rfl]
      rfl
    obtain ⟨t, ht, hscript, hadu, hseq, hfilled⟩ := after v 3 hrun rfl rfl rfl rfl rfl
    exact ⟨t, ht, hscript, by rw [hseq]; rfl, hadu, hfilled⟩

/-! ### A delivery before a `DRAIN` (R195, R197) -/

/-- A level of `rem` that names the write cursor `n` locations past the cursor leaves `n` unread, up to whole laps (R57, R93). -/
theorem unread_mod {s : State} {n : Nat} (hcur : s.adu.cursor < s.cfg.cap)
    (hrem : filledOf s % s.cfg.cap = (s.adu.cursor + n) % s.cfg.cap) : unread s % s.cfg.cap = n % s.cfg.cap := by
  rw [← sampleIndex_unread hcur] at hrem
  exact Nat.ModEq.add_left_cancel' s.adu.cursor hrem

theorem unread_le (s : State) (hcur : s.adu.cursor < s.cfg.cap) : unread s ≤ s.cfg.cap := by
  have hfilled : filledOf s ≤ s.cfg.cap := Nat.sub_le _ _
  unfold unread
  split <;> omega

/-- Of less than a lap, what `rem` reports is what was delivered. -/
theorem unread_eq {s : State} {n : Nat} (hcur : s.adu.cursor < s.cfg.cap)
    (hrem : filledOf s % s.cfg.cap = (s.adu.cursor + n) % s.cfg.cap) (hpos : 0 < n) (hn : n < s.cfg.cap) : unread s = n := by
  have hmod := unread_mod hcur hrem
  have hle := unread_le s hcur
  rw [Nat.mod_eq_of_lt hn] at hmod
  rcases Nat.lt_or_eq_of_le hle with hlt | heq
  · rwa [Nat.mod_eq_of_lt hlt] at hmod
  · rw [heq, Nat.mod_self] at hmod
    omega

theorem Healthy.unread_lt {s : State} (h : Healthy s) : unread s < s.cfg.cap := by
  have hpos := cap_pos s.cfg
  obtain ⟨-, hle⟩ := h
  omega

/-- A delivery, a level of `rem` that names the write cursor and a `DRAIN` that finds nothing wrong: the cursors are in step. -/
theorem runFor_deliver_drain {s : State} {xs : List Sample} {r : Nat} {rest : List Stimulus} (hw : s.cfg.wf = true)
    (ha : Accepting s) (hc : s.cfg.conforming = true) (hcur : s.adu.cursor < s.cfg.cap) (hwcur : s.env.wCur < s.cfg.cap)
    (hr : r ≤ s.cfg.cap) (hrem : (s.cfg.cap - r) % s.cfg.cap = (s.env.wCur + xs.length) % s.cfg.cap)
    (hh : Healthy ((deliver xs s).withRem r))
    (hs : s.script = xs.map (fun x => Stimulus.event (.dmaWrite x)) ++ .event (.driveRem r) :: .request .p 0b10 :: rest) :
    ∃ t, s.runFor (xs.length + 2) = .next t ∧ t.script = rest ∧ t.adu.drainStatus = .ok ∧ t.adu.cursor = t.env.wCur ∧
      t.env.delivered = 0 ∧ t.adu.rearmCount = s.adu.rearmCount ∧ t.draws = s.draws + unread ((deliver xs s).withRem r) ∧
      ∀ ch, (t.adu.adcOut.get ch).toNat = channelAverage ((deliver xs s).withRem r) ch := by
  obtain ⟨m, c, b, heq⟩ := deliver_eq xs hwcur
  let d := (deliver xs s).withRem r
  have hwd : (deliver xs s).cfg.wf = true := by rw [heq]; exact hw
  have hrd : r < 2 * (deliver xs s).cfg.cap := by rw [heq]; exact lt_two_cap hr
  have had : Accepting d := by simp only [d, heq]; exact ha
  have hready : DrainReady d := by simp only [d, heq]; exact ⟨hr, hcur⟩
  have hcd : d.cfg.conforming = true := by simp only [d, heq]; exact hc
  refine ⟨((drainedState d (drainedSeq d)).release).past rest, ?_, rfl, rfl, ?_, rfl, ?_, ?_, channelAverages_toNat d⟩
  · rw [← past_of_script_eq hs, runFor_deliver hw,
      runFor_event (s := deliver xs s) (u := d) hwd _ rfl fun _ => envStep_driveRem hrd, runFor_one,
      step_past_request (s := d) hwd rest decode_drain]
    show thenRelease (execDrain (d.past rest)) = _
    rw [execDrain_past, execDrain_healthy had hready hh (countsAllowed_of_conforming hwd hcd hh)]
    rfl
  · show filledOf d % d.cfg.cap = d.env.wCur
    simp only [d, heq]
    exact hrem
  · show d.adu.rearmCount = _
    simp only [d, heq]
    rfl
  · show d.draws + unread d = _
    congr 1
    simp only [d, heq]
    rfl

/-- What a delivery leaves unread does not depend on what was delivered. -/
theorem unread_deliver (xs : List Sample) {s : State} (hwcur : s.env.wCur < s.cfg.cap) (r : Nat) :
    unread ((deliver xs s).withRem r) = unread (s.withRem r) := by
  obtain ⟨m, c, b, heq⟩ := deliver_eq xs hwcur
  rw [heq]
  rfl

theorem cfg_deliver (xs : List Sample) {s : State} (hwcur : s.env.wCur < s.cfg.cap) : (deliver xs s).cfg = s.cfg := by
  obtain ⟨m, c, b, heq⟩ := deliver_eq xs hwcur
  rw [heq]

/-- Settles O58: the count modulo `CAP` is all the block sees, and no location it reads has a value of its own. -/
theorem undetectedOverrunConsumesAnyValues : Obligations.UndetectedOverrunConsumesAnyValues := by
  intro s xs r rest hinv ha hc hcur hlap hr hrem hh hs
  obtain ⟨hacur, -⟩ := hinv.2.1
  have hwcur : s.env.wCur < s.cfg.cap := hcur ▸ hacur
  have hunread : unread (s.withRem r) = xs.length % s.cfg.cap := by
    have hmod := unread_mod (s := s.withRem r) (n := xs.length) hacur (hcur ▸ hrem)
    rwa [Nat.mod_eq_of_lt hh.unread_lt] at hmod
  have hne : xs ≠ [] := by
    rintro rfl
    have hpos := hh.1
    rw [hunread, List.length_nil, Nat.zero_mod] at hpos
    exact Nat.lt_irrefl 0 hpos
  have hhd : Healthy ((deliver xs s).withRem r) := by
    have hcap : ((deliver xs s).withRem r).cfg = s.cfg := cfg_deliver xs hwcur
    unfold Healthy
    rw [unread_deliver xs hwcur, hcap]
    exact hh
  obtain ⟨t, ht, hscript, hstat, hstep, hdel, hcount, hdraws, hout⟩ :=
    runFor_deliver_drain hinv.1 ha hc hacur hwcur hr hrem hhd hs
  refine ⟨hunread, t, ht, hscript, hstat, hstep, hdel, hcount, by rw [hdraws, unread_deliver xs hwcur, hunread], fun ch => ?_⟩
  have hbuf := buf_deliver_of_lap hwcur hne hlap
  obtain ⟨m, c, b, heq⟩ := deliver_eq xs hwcur
  rw [heq] at hbuf
  obtain rfl : m = [] := hbuf
  rw [hout ch, heq]
  rfl

/-- Where location and channel go together at the cursor they do at every sample read (R53). -/
theorem sampleIndex_mod_four {s : State} (hw : s.cfg.wf = true) {c : Ch} (hc : c.val = s.adu.cursor % 4) (k : Nat) :
    sampleIndex s k % 4 = (c.val + k) % 4 := by
  rw [sampleIndex, Nat.mod_mod_of_dvd _ (four_dvd_cap hw), hc, Nat.mod_add_mod]

/-- A `DRAIN` that reads the samples `xs` averages them, each under the channel that converted it (R51, R98, R100). -/
theorem channelAverage_of_delivered {s : State} (hw : s.cfg.wf = true) {xs : List Sample} {c : Ch}
    (hc : c.val = s.adu.cursor % 4) (hunread : unread s = xs.length) (hread : ∀ k < xs.length, sampleRead s k = xs.getD k 0)
    (ch : Ch) :
    channelAverage s ch =
      if deliveredCount xs c ch = 0 then 0 else deliveredTotal xs c ch * 16 / deliveredCount xs c ch := by
  have hcount : channelCount s ch = deliveredCount xs c ch := by
    simp only [channelCount, countOver, deliveredCount, hunread, sampleIndex_mod_four hw hc]
  have htotal : channelTotal s ch = deliveredTotal xs c ch := by
    simp only [channelTotal, totalOver, deliveredTotal, hunread, sampleIndex_mod_four hw hc]
    refine Finset.sum_congr rfl fun k hk => ?_
    rw [hread k (Finset.mem_range.1 hk)]
  rw [channelAverage, hcount, htotal]

/-- The `DRAIN` after a delivery short of a lap reads the samples delivered, in their order. -/
theorem sampleRead_deliver {s : State} (hwcur : s.env.wCur < s.cfg.cap) (hcur : s.adu.cursor = s.env.wCur) {xs : List Sample}
    (hlt : s.env.delivered + xs.length < s.cfg.cap) (r : Nat) {k : Nat} (hk : k < xs.length) :
    sampleRead ((deliver xs s).withRem r) k = xs.getD k 0 := by
  have hindex : sampleIndex ((deliver xs s).withRem r) k = (s.env.wCur + k) % s.cfg.cap := by
    obtain ⟨m, c, b, heq⟩ := deliver_eq xs hwcur
    rw [heq, ← hcur]
    rfl
  have hlookup := (lookup_deliver hwcur xs hlt).1 k hk
  rw [sampleRead, hindex]
  show (Memory.lookup _ (deliver xs s).env.buf).getD _ = _
  rw [hlookup, List.getElem?_eq_getElem hk, List.getD_eq_getElem _ _ hk]
  rfl

/-- Settles O53: the samples unread are those delivered, and the `DRAIN` reads them under the channels that converted them. -/
theorem drainAveragesWhatTheCollaboratorDelivered : Obligations.DrainAveragesWhatTheCollaboratorDelivered := by
  intro s xs r rest hinv ha hc haligned hcur hdel hpacing hr hrem hs
  obtain ⟨hacur, -⟩ := hinv.2.1
  obtain ⟨hpos, hmax⟩ := hpacing
  have hwcur : s.env.wCur < s.cfg.cap := hcur ▸ hacur
  have hlt : xs.length < s.cfg.cap := by
    have := cap_pos s.cfg
    omega
  have hunread : unread ((deliver xs s).withRem r) = xs.length := by
    rw [unread_deliver xs hwcur]
    exact unread_eq (s := s.withRem r) hacur (hcur ▸ hrem) hpos hlt
  have hcfg : ((deliver xs s).withRem r).cfg = s.cfg := cfg_deliver xs hwcur
  have hh : Healthy ((deliver xs s).withRem r) := by
    unfold Healthy
    rw [hunread, hcfg]
    omega
  obtain ⟨t, ht, hscript, hstat, hstep, hdel', hcount, -, hout⟩ :=
    runFor_deliver_drain hinv.1 ha hc hacur hwcur hr hrem hh hs
  refine ⟨t, ht, hscript, hstat, hstep, hdel', hcount, fun ch => (hout ch).trans ?_⟩
  refine channelAverage_of_delivered (hcfg ▸ hinv.1) ?_ hunread
    (fun k hk => sampleRead_deliver hwcur hcur (by omega) r hk) ch
  obtain ⟨m, c, b, heq⟩ := deliver_eq xs hwcur
  rw [heq]
  show s.env.nextCh.val = s.adu.cursor % 4
  rw [hcur]
  exact haligned

end Sys2Proof.Machine
end
